-- ==== Sys2Proof/Word.lean ====
section
/-! DEFINITION. Word.lean: the words of the machine and the sizes no parameter changes.
A quantity whose width is a parameter of rule R8 is a `Nat` (R10: "an unsigned integer of a stated width");
the rule that writes it takes the remainder its width asks for. -/

namespace Sys2Proof

/-- One byte of host memory, the smallest addressable unit (R51). -/
abbrev Byte := BitVec 8

/-- A host address (`ADDR_W` = 64, R8). -/
abbrev Addr := BitVec 64

/-- An Audio Sample Frame: word `c` of the list is channel `c` (R45). -/
abbrev Frame := List Nat

/-- How many byte addresses there are (R51): no access reaches this one (R68). -/
def addrSpace : Nat := 2 ^ 64

/-- `RECSIZE`, the bytes of one descriptor record (R8, R90). -/
def recSize : Nat := 24

/-- Where the flags word lies in a record (R90). -/
def flagsOffset : Nat := 12

/-- The two directions: playback (memory to line) and capture (line to memory) (R10). -/
inductive Dir where
  | pb
  | cap
deriving DecidableEq, Repr, Inhabited

/-- The other direction. -/
def Dir.other : Dir → Dir
  | .pb => .cap
  | .cap => .pb

/-- One value for each direction. -/
structure PerDir (α : Type) where
  pb : α
  cap : α
deriving DecidableEq, Repr, Inhabited

/-- The value of direction `d`. -/
def PerDir.get {α : Type} (v : PerDir α) : Dir → α
  | .pb => v.pb
  | .cap => v.cap

/-- The pair with direction `d`'s value replaced. -/
def PerDir.set {α : Type} (v : PerDir α) (d : Dir) (x : α) : PerDir α :=
  match d with
  | .pb => { v with pb := x }
  | .cap => { v with cap := x }

end Sys2Proof
end

