-- ==== Sys2Proof/Syntax.lean ====
section
/-! DEFINITION. Syntax.lean: the descriptor as a record of four fields (R90) and as one of the three kinds (R96). -/

namespace Sys2Proof

/-- The four fields of a descriptor record, as rule R95 decodes them and as `eng[d].cur` latches them (R29). -/
structure Desc where
  bufferAddress : BitVec 64
  length : BitVec 32
  flags : BitVec 32
  nextAddress : BitVec 64
deriving DecidableEq, Repr, Inhabited

/-- The descriptor kinds of spec/opcode_table.json (R96). Every bit of the record that the kind leaves open is an operand:
`interrupt` (the modifier `.I`, flags bit 0), `reserved` (flags bits 30:3, R98) and `hwOwned` (flags bit 31, R99). -/
inductive Instr where
  /-- `XFER`, R152: `lastInChain` = 0, `wrap` = 0. -/
  | xfer (bufferAddress : BitVec 64) (length : BitVec 32) (interrupt : Bool) (reserved : BitVec 28) (hwOwned : Bool)
      (nextAddress : BitVec 64)
  /-- `XFER.W`, R153: `lastInChain` = 0, `wrap` = 1. -/
  | xferW (bufferAddress : BitVec 64) (length : BitVec 32) (interrupt : Bool) (reserved : BitVec 28) (hwOwned : Bool)
      (nextAddress : BitVec 64)
  /-- `XFER.L`, R154: `lastInChain` = 1, whatever `wrap` is. -/
  | xferL (bufferAddress : BitVec 64) (length : BitVec 32) (interrupt : Bool) (wrap : Bool) (reserved : BitVec 28)
      (hwOwned : Bool) (nextAddress : BitVec 64)
deriving DecidableEq, Repr, Inhabited

/-- Why a decoder rejects its bytes. -/
inductive DecodeReject where
  /-- Fewer than the 24 bytes of a record (R101: every descriptor is 24 bytes). -/
  | truncated
deriving DecidableEq, Repr, Inhabited

end Sys2Proof
end

