-- ==== Sys2Proof/Config.lean ====
section
/-! DEFINITION. Config.lean: what an implementation fixes (the parameters of R8), the inputs the environment gives the core
(R270, R278, R223), and the values the spec leaves free (R10 `draw`), which are opaque: nothing can be proved of one. -/

namespace Sys2Proof

/-- `eng[d].st` (R27). -/
inductive EngState where
  | idle
  | fetchDescriptor
  | moveData
  | updateDescriptor
  | complete
deriving DecidableEq, Repr, Inhabited

/-- A format that has a meaning (R35: 0, 1, 2; 3 is reserved). -/
inductive Format where
  | i2s
  | tdm
  | dsd
deriving DecidableEq, Repr, Inhabited

/-- `DESC_WRITEBACK` (R8, R150). -/
inductive WriteBack where
  | none
  | clearOwn
deriving DecidableEq, Repr, Inhabited

/-- `UNDERRUN_OUTPUT` (R8, R230). -/
inductive UnderrunOutput where
  | draw
  | lastValue
deriving DecidableEq, Repr, Inhabited

/-- `GLITCH_MODEL` (R8, R205). -/
inductive GlitchModel where
  | none
  | bitmix
deriving DecidableEq, Repr, Inhabited

/-- Channel count `C` and sample width `W` (R8 `geometry`, R221). -/
structure Geom where
  channels : Nat
  width : Nat
deriving DecidableEq, Repr, Inhabited

/-- One row of the `bclkDiv` table for I2S and TDM, which depends on format, family and multiplier (R222). -/
structure DivRow where
  format : Format
  family : Nat
  mult : Nat
  div : Nat
deriving DecidableEq, Repr, Inhabited

/-- A range of host addresses. -/
structure Region where
  base : Nat
  size : Nat
deriving DecidableEq, Repr, Inhabited

/-- The implementation parameters of R8, as the configuration record that rule asks for, and the map of the platform's
device regions (R67). The tables `geometry` and `bclkDiv` are plain data (log 15). -/
structure Params where
  /-- `WORD_BYTES` -/
  wordBytes : Nat
  /-- `BURST_BYTES` -/
  burstBytes : Nat
  /-- `CAPACITY` -/
  capacity : Nat
  /-- `RING_MAX` -/
  ringMax : Nat
  /-- `SYNC_STAGES` -/
  syncStages : Nat
  /-- `MAXC` -/
  maxC : Nat
  /-- `MAXW` -/
  maxW : Nat
  /-- `BYTES_W` -/
  bytesW : Nat
  /-- `CNT_W` -/
  cntW : Nat
  /-- `FAMILY_W` -/
  familyW : Nat
  /-- `MULT_W` -/
  multW : Nat
  /-- `RATE_W` -/
  rateW : Nat
  geomI2s : Geom
  geomTdm : Geom
  geomDsd64 : Geom
  geomDsd128 : Geom
  geomDsd256 : Geom
  /-- `bclkDiv` for I2S and TDM: the first row that fits, else `divDefault`. -/
  divRows : List DivRow
  divDefault : Nat
  divDsd64 : Nat
  divDsd128 : Nat
  divDsd256 : Nat
  writeBack : WriteBack
  underrunOutput : UnderrunOutput
  glitch : GlitchModel
  /-- Host addresses that are not ordinary memory (R67). -/
  deviceRegions : List Region
deriving DecidableEq, Repr, Inhabited

/-- What a transport input carries: the content of host memory, which is the transport's duty (R279), or a value from
elsewhere, which R278 admits as an input (log 27). -/
inductive Source (α : Type) where
  | memory
  | value (v : α)
deriving DecidableEq, Repr, Inhabited

/-- The transport's inputs to one transport tick, for one direction (R278). -/
structure PortIn where
  /-- `descData[d]`: absent, or a 192-bit record. -/
  descData : Option (Source (BitVec 192))
  /-- `reqAccept[d]` -/
  reqAccept : Bool
  /-- `rdWord[d]`: absent, or a transport word with its `last` bit. -/
  rdWord : Option (Source Nat × Bool)
  /-- `wrReady[d]` -/
  wrReady : Bool
  /-- `dmaErrorIn[d]` -/
  dmaErrorIn : Bool
deriving DecidableEq, Repr, Inhabited

/-- A tick in which the transport presents nothing. -/
def PortIn.absent : PortIn := ⟨none, false, none, false, false⟩

/-- The serial data of one audio tick: bits of the line's own, or the line looped back, where `sdIn` is the `sdOut` that the
same bit event drives (R235). -/
inductive LineIn where
  | bits (l : List Bool)
  | loopback
deriving DecidableEq, Repr, Inhabited

/-- The inputs of one audio tick (R223, R50). -/
structure AudioIn where
  sdIn : LineIn
  lockedIn : Bool
  rateIn : Nat
deriving DecidableEq, Repr, Inhabited

/-- The four separately read fields of a descriptor record (R65). -/
inductive DescField where
  | bufferAddress
  | length
  | flags
  | nextAddress
deriving DecidableEq, Repr, Inhabited

/-- The registers of the format control group (R35), held by the register collaborator. -/
structure FormatRegs where
  format : BitVec 2
  family : Nat
  mult : Nat
  dsdMode : BitVec 2
  master : Bool
  clockSource : Nat
deriving DecidableEq, Repr, Inhabited

/-- One move of the step relation (R283): a tick of a domain with its inputs, a move of the host between ticks (R270), or an
access the transport performs between ticks (R65, R66). -/
inductive Event where
  /-- A transport tick (R284). -/
  | transportTick (pb cap : PortIn)
  /-- An audio tick (R223). -/
  | audioTick (a : AudioIn)
  /-- `ENABLE d` (R271). -/
  | enable (d : Dir)
  /-- `DISABLE d` (R272). -/
  | disable (d : Dir)
  /-- One half of `SOFT_RESET` (R273): the input takes this level. -/
  | softReset (level : Bool)
  /-- The hardware-reset input takes this level (R340). -/
  | hwReset (level : Bool)
  /-- `RING_SETUP d` (R274). -/
  | ringSetup (d : Dir) (base : BitVec 64) (count : Nat)
  /-- The other inputs of the ring group (R37, R39). -/
  | ringInputs (d : Dir) (bufferSize : Nat) (interruptEnable : Bool) (threshold : Nat)
  /-- `FORMAT_WRITE` (R275). -/
  | formatWrite (f : FormatRegs)
  /-- The host writes host memory (R270). -/
  | writeMemory (addr : Nat) (bytes : List Byte)
  /-- `STATUS_READ` (R276). -/
  | statusRead
  /-- The transport reads one field of the record that engine `d` waits for (R65). -/
  | readField (d : Dir) (f : DescField)
  /-- The transport reads the next word of the playback burst in flight (R66). -/
  | readAhead
  /-- The transport performs the oldest write of engine `d` that it holds (R66, R71). -/
  | performWrite (d : Dir)
deriving DecidableEq, Repr, Inhabited

/-- What an engine does in a tick after a DMA error, which R306 leaves unspecified: a value of everything it writes. -/
structure EngineDraw where
  st : EngState
  burstCnt : Nat
  cur : Desc
  curValid : Bool
  reqBytes : Nat
  completeSig : Bool
  currentIndex : Nat
  activeCount : Nat
  bytesProcessed : Nat
  complete : List Bool
  /-- Whether it pushes (playback) or pops (capture) its buffer in this tick. -/
  access : Bool
  frame : Frame
  /-- The bytes of host memory it has written. -/
  stores : List (Nat × Byte)
deriving DecidableEq, Repr, Inhabited

namespace Config

/-- What the environment does next where `State.inputs` says nothing (R283: "in any order"; log 2). -/
opaque environment : Nat → Event

/-- Channel `c` of the `draw(Frame)` of tick `n` (R230, R146; log 20). -/
opaque freeSample : (n c : Nat) → Nat

/-- The bits that a changing source shows of its new value, in tick `n`, for synchronizer cell `k` (R205; log 13). -/
opaque freeMask : (n k : Nat) → Nat

/-- The content of `eng[d].cur` after the reset of tick `n` (R52; log 6). -/
opaque freeDesc : (n : Nat) → Dir → Desc

/-- Channel `c` of entry `k` of `fifo[d].mem` after the reset of tick `n` (R52; log 6). -/
opaque freeStorage : (n : Nat) → Dir → (k c : Nat) → Nat

/-- What engine `d` does in tick `n` after a DMA error (R306; log 9). -/
opaque afterDmaError : (n : Nat) → Dir → EngineDraw

/-- The parameters of `State.reset` (log 1): an example that meets every constraint of R8 (`Params.ok`). -/
def exampleParams : Params where
  wordBytes := 32
  burstBytes := 512
  capacity := 32
  ringMax := 16
  syncStages := 2
  maxC := 8
  maxW := 32
  bytesW := 32
  cntW := 32
  familyW := 1
  multW := 3
  rateW := 32
  geomI2s := ⟨2, 24⟩
  geomTdm := ⟨8, 32⟩
  geomDsd64 := ⟨2, 8⟩
  geomDsd128 := ⟨2, 8⟩
  geomDsd256 := ⟨2, 8⟩
  divRows := []
  divDefault := 1
  divDsd64 := 1
  divDsd128 := 2
  divDsd256 := 4
  writeBack := .none
  underrunOutput := .draw
  glitch := .none
  deviceRegions := []

end Config

end Sys2Proof
end

