-- ==== Sys2Proof/WellFormed.lean ====
section
/-! DEFINITION. WellFormed.lean: the duties software owes of one descriptor whatever ring it lies in (R64, R68, R121 clauses
(c), (d), (e)), and the constraints of the parameters (R8). The clauses of R121 about the ring are in Machine/Validity.lean.
No bit pattern is illegal (R100): an ill-formed descriptor decodes, and is refused when it is latched. -/

namespace Sys2Proof

/-- `min(BURST_BYTES, length)` (R92, R97). -/
def burstSize (p : Params) (length : BitVec 32) : Nat := min p.burstBytes length.toNat

/-- `BURST_WORDS` (R8). -/
def Params.burstWords (p : Params) : Nat := p.burstBytes / p.wordBytes

/-- R121 (c): the buffer lies on a transport-word boundary. -/
def addressAligned (p : Params) (bufferAddress : BitVec 64) : Bool := bufferAddress.toNat % p.wordBytes == 0

/-- R121 (d), first half: at least one transport word. -/
def lengthEnough (p : Params) (length : BitVec 32) : Bool := decide (p.wordBytes ≤ length.toNat)

/-- R121 (d), second half: a whole number of transport words. -/
def lengthAligned (p : Params) (length : BitVec 32) : Bool := length.toNat % p.wordBytes == 0

/-- R121 (e): the burst does not pass the top of the address space (R68). -/
def burstFits (p : Params) (bufferAddress : BitVec 64) (length : BitVec 32) : Bool :=
  decide (bufferAddress.toNat + burstSize p length ≤ addrSpace)

/-- The operands of a descriptor meet R121 (c), (d) and (e). -/
def operandsOk (p : Params) (bufferAddress : BitVec 64) (length : BitVec 32) : Bool :=
  addressAligned p bufferAddress && lengthEnough p length && lengthAligned p length && burstFits p bufferAddress length

/-- Well-formedness of a descriptor under the parameters `p`. -/
def Instr.wellFormed (p : Params) : Instr → Bool
  | .xfer buf len _ _ _ _ => operandsOk p buf len
  | .xferW buf len _ _ _ _ => operandsOk p buf len
  | .xferL buf len _ _ _ _ _ => operandsOk p buf len

/-- A geometry that a table may hold: the constraints of R8 on `C`, `W` and the transport word. -/
def Params.geomOk (p : Params) (g : Geom) : Bool :=
  decide (1 ≤ g.channels) && decide (g.channels ≤ p.maxC) && decide (1 ≤ g.width) && decide (g.width ≤ p.maxW)

/-- The constraint column of R8. `CAPACITY >= BURST_WORDS` is not here: R354 gives a machine without it its behaviour. Nor is
`8*WORD_BYTES >= C*W`: R151 refuses a geometry in use that breaks it (log 30). -/
def Params.ok (p : Params) : Bool :=
  decide (1 ≤ p.wordBytes) && decide (0 < p.burstBytes) && p.burstBytes % p.wordBytes == 0
    && p.capacity == 2 ^ p.capacity.log2
    && decide (1 ≤ p.ringMax) && decide (2 ≤ p.syncStages) && decide (2 ≤ p.maxC) && decide (1 ≤ p.maxW)
    && decide (1 ≤ p.bytesW) && decide (1 ≤ p.cntW) && decide (1 ≤ p.familyW) && decide (1 ≤ p.multW) && decide (1 ≤ p.rateW)
    && p.geomI2s.channels == 2 && decide (2 ≤ p.geomTdm.channels)
    && p.geomOk p.geomI2s && p.geomOk p.geomTdm && p.geomOk p.geomDsd64 && p.geomOk p.geomDsd128 && p.geomOk p.geomDsd256
    && p.divRows.all (fun r => decide (1 ≤ r.div)) && decide (1 ≤ p.divDefault)
    && decide (1 ≤ p.divDsd64) && decide (1 ≤ p.divDsd128) && decide (1 ≤ p.divDsd256)

end Sys2Proof
end

