-- ==== Sys2Proof/Decode.lean ====
section
/-! DEFINITION. Decode.lean: byte order (R61), the record's fields (R90, R95), the kind of a descriptor (R93, R96), the total
decoder and, after it, the encoder, both from the tables of 30_encoding.md. -/

namespace Sys2Proof

/-! ## Byte order (R61) -/

/-- The little-endian number of a byte string: the byte at the lowest address holds bits [7:0] (R61). -/
def natOfBytes : List Byte → Nat
  | [] => 0
  | b :: rest => b.toNat + 256 * natOfBytes rest

/-- The `n` low bytes of `v`, the least significant first (R61). -/
def bytesOfNat : (n v : Nat) → List Byte
  | 0, _ => []
  | n + 1, v => BitVec.ofNat 8 v :: bytesOfNat n (v / 256)

/-- The record that 24 bytes of host memory hold (R90). -/
def recOfBytes (bs : List Byte) : BitVec 192 := BitVec.ofNat 192 (natOfBytes bs)

/-- The 24 bytes of a record (R90). -/
def bytesOfRec (rec : BitVec 192) : List Byte := bytesOfNat recSize rec.toNat

/-! ## Fields of the record (R90, R95) and of its flags word (R93) -/

/-- `decode(rec)` of R95, total on every 192-bit value. -/
def descOfRec (rec : BitVec 192) : Desc where
  bufferAddress := rec.extractLsb' 0 64
  length := rec.extractLsb' 64 32
  flags := rec.extractLsb' 96 32
  nextAddress := rec.extractLsb' 128 64

/-- The inverse of `descOfRec` (R95). -/
def recOfDesc (d : Desc) : BitVec 192 := d.nextAddress ++ d.flags ++ d.length ++ d.bufferAddress

/-- Flags bit 0 (R93). -/
def Desc.interrupt (d : Desc) : Bool := d.flags.getLsbD 0

/-- Flags bit 1 (R93). -/
def Desc.lastInChain (d : Desc) : Bool := d.flags.getLsbD 1

/-- Flags bit 2 (R93). -/
def Desc.wrap (d : Desc) : Bool := d.flags.getLsbD 2

/-- Flags bits 30:3 (R98). -/
def Desc.reserved (d : Desc) : BitVec 28 := d.flags.extractLsb' 3 28

/-- Flags bit 31 (R99). -/
def Desc.hwOwned (d : Desc) : Bool := d.flags.getLsbD 31

/-- The flags word of its parts, bit 31 first (R93). -/
def flagsOf (interrupt lastInChain wrap : Bool) (reserved : BitVec 28) (hwOwned : Bool) : BitVec 32 :=
  BitVec.ofBool hwOwned ++ reserved ++ BitVec.ofBool wrap ++ BitVec.ofBool lastInChain ++ BitVec.ofBool interrupt

/-! ## The kind of a descriptor (R96) -/

/-- The instruction a descriptor is: `flags[2:1]` alone selects the kind (R96). -/
def instrOfDesc (d : Desc) : Instr :=
  if d.lastInChain then
    .xferL d.bufferAddress d.length d.interrupt d.wrap d.reserved d.hwOwned d.nextAddress
  else if d.wrap then
    .xferW d.bufferAddress d.length d.interrupt d.reserved d.hwOwned d.nextAddress
  else
    .xfer d.bufferAddress d.length d.interrupt d.reserved d.hwOwned d.nextAddress

/-- The descriptor an instruction stands for (R93, R96). -/
def Instr.desc : Instr → Desc
  | .xfer buf len irq rsv own nxt => ⟨buf, len, flagsOf irq false false rsv own, nxt⟩
  | .xferW buf len irq rsv own nxt => ⟨buf, len, flagsOf irq false true rsv own, nxt⟩
  | .xferL buf len irq wrap rsv own nxt => ⟨buf, len, flagsOf irq true wrap rsv own, nxt⟩

/-! ## The decoder and the encoder -/

/-- The instruction of a record (R95, R96): total, no pattern is illegal (R100). -/
def decodeRec (rec : BitVec 192) : Instr := instrOfDesc (descOfRec rec)

/-- Decode the record at the head of a byte string, and give the rest. Only a string shorter than a record is rejected. -/
def decode (bs : List Byte) : Except DecodeReject (Instr × List Byte) :=
  if (bs.take recSize).length == recSize then
    .ok (decodeRec (recOfBytes (bs.take recSize)), bs.drop recSize)
  else
    .error .truncated

/-- The 24 bytes of an instruction in ascending address order (R90, R95). -/
def encode (i : Instr) : List Byte := bytesOfRec (recOfDesc i.desc)

/-- The bytes of the record that spec/opcode_table.json's number `w` of `nbits` bits stands for. The table's `match`, `mask`
and `fixed` number the 32-bit flags word (`match_applies_to`); its `record_match` numbers the whole record (log 16). -/
def tableWordBytes (nbits w : Nat) : List Byte :=
  if nbits ≤ 32 then
    bytesOfNat flagsOffset 0 ++ bytesOfNat 4 (w % 2 ^ nbits) ++ bytesOfNat 8 0
  else
    bytesOfNat recSize (w % 2 ^ nbits)

/-- The instruction the decoder reads from a number of spec/opcode_table.json. -/
def decodeTableWord (nbits w : Nat) : Option Instr :=
  match decode (tableWordBytes nbits w) with
  | .ok (i, _) => some i
  | .error _ => none

end Sys2Proof
end

