-- ==== Sys2Proof/Machine/State.lean ====
section
/-! DEFINITION. Machine/State.lean: everything the spec gives the machine (10_state.md), as plain data; the outcomes that stop a
run; the state right after reset (R52). Each field's docstring names its rule. -/

namespace Sys2Proof.Machine

/-! ## Stops -/

/-- The machine stops with a fault. The hardware of the spec has no trap (R300, R312). -/
inductive Fault where
  /-- Raised by an access of the transport or of the host at or above address 2^64, which the address space does not have (R51):
  a burst that runs on past its request to the top of memory, or a host write there. Safe: no claim is made (log 19). -/
  | outsideAddressSpace
deriving DecidableEq, Repr, Inhabited

/-- The spec gives the situation no meaning (R10 `refuse`, R307). Every one of them is safe: the model claims nothing of it. -/
inductive Refusal where
  /-- Raised by `exec` for an instruction that has no meaning yet. -/
  | notModelled (mnemonic : String)
  /-- Raised by the latch of a record whose buffer address, length or ring base is misaligned (R64, R100, U7). -/
  | misaligned
  /-- Raised by the latch of a record that breaks another clause of ring validity (R121, R68, U6), and by a descriptor fetch
  beyond the address space. -/
  | invalidRing
  /-- Raised by the latch of a record whose ring or buffer lies in a device region (R67, U8). -/
  | nonMemoryRegion
  /-- Raised by the latch of a record whose activation overlaps one of the same pass where either writes, and by a launch whose
  record the other direction's pass has written or is writing (R357, U17; log 11). -/
  | overlappingRegions
  /-- Raised by a data word under a geometry wider than a transport word (R151, U9); by no other step (log 30). -/
  | frameWiderThanWord
  /-- Raised by the latch of a reserved format, or a data word under one (R229, U10). -/
  | reservedFormat
  /-- Raised by the latch of slave mode (R242, U2). -/
  | slaveMode
  /-- Raised by a reset while a transport request is outstanding (R343, U18). -/
  | resetInFlight
  /-- Raised by RING_SETUP of a ring whose descriptor is in flight (R356, U19). -/
  | ringMovedInFlight
  /-- Raised by a launch with a burst size that does not divide the configured buffer size (R9, R352, U1). -/
  | burstNotDividing
  /-- Raised by bytes that the decoder rejects; a fetch delivers 24 bytes, so no step raises it. -/
  | undecodable
deriving DecidableEq, Repr, Inhabited

/-! ## The parts of the state -/

/-- A synchronizer cell (R201). Its output is its last stage. -/
structure Sync where
  /-- `stage[0 .. SYNC_STAGES-1]`. -/
  stages : List Nat
  /-- The source's value at the previous capture, which only `GLITCH_MODEL = bitmix` reads (R205). -/
  prev : Nat
deriving DecidableEq, Repr, Inhabited

/-- An Elastic Buffer (R42, R43). -/
structure Fifo where
  /-- `mem[0 .. CAPACITY-1]`. -/
  mem : List Frame
  /-- The push index, modulo `2*CAPACITY`, the producer's. -/
  wr : Nat
  /-- The pop index, modulo `2*CAPACITY`, the consumer's. -/
  rd : Nat
  /-- `rd` in the producer's domain. -/
  rdSync : Sync
  /-- `wr` in the consumer's domain. -/
  wrSync : Sync
  overrunCnt : Nat
  underrunCnt : Nat
deriving DecidableEq, Repr, Inhabited

/-- The engine's half of a Descriptor Ring (R21, R23 to R26). -/
structure Ring where
  /-- One bit per slot (R23). -/
  complete : List Bool
  /-- The program counter (R24). -/
  currentIndex : Nat
  activeCount : Nat
  bytesProcessed : Nat
deriving DecidableEq, Repr, Inhabited

/-- A Transfer Engine's registers (R27 to R32). -/
structure Eng where
  st : EngState
  burstCnt : Nat
  cur : Desc
  curValid : Bool
  reqBytes : Nat
  completeSig : Bool
  /-- The ghost counter of R31. -/
  completeEdges : Nat
  dmaErr : Bool
deriving DecidableEq, Repr, Inhabited

/-- One write that the transport holds: `size` bytes of `value` at `addr`, and the mark of a burst's last word (R146). -/
structure PendingWrite where
  addr : Nat
  size : Nat
  value : Nat
  last : Bool
deriving DecidableEq, Repr, Inhabited

/-- The fields of a standing descriptor read that the transport has read already (R65). -/
structure FieldsRead where
  bufferAddress : Option (List Byte)
  length : Option (List Byte)
  flags : Option (List Byte)
  nextAddress : Option (List Byte)
deriving DecidableEq, Repr, Inhabited

/-- What the transport has in hand for one engine (R65, R66, R71). -/
structure Port where
  fields : FieldsRead
  /-- Words of the playback burst in flight, read ahead of their consumption, the next one first (R66). -/
  rdAhead : List Nat
  /-- Words a capture burst has handed over that are not yet in memory, the oldest first (R66). -/
  pending : List PendingWrite
deriving DecidableEq, Repr, Inhabited

/-- The inputs of the ring group (R22, R37). -/
structure RingRegs where
  base : BitVec 64
  descCount : Nat
  bufferSize : Nat
  interruptEnable : Bool
  threshold : Nat
deriving DecidableEq, Repr, Inhabited

/-- The inputs that the register collaborator holds (R22, R35 to R37). -/
structure HostRegs where
  cfg : FormatRegs
  enable : PerDir Bool
  softReset : Bool
  /-- The hardware-reset input (R340). -/
  hwReset : Bool
  ring : PerDir RingRegs
deriving DecidableEq, Repr, Inhabited

/-- The control synchronizer cells (R40). -/
structure ControlCells where
  format : Sync
  family : Sync
  mult : Sync
  dsdMode : Sync
  master : Sync
  pbEn : Sync
  capEn : Sync
deriving DecidableEq, Repr, Inhabited

/-- The status synchronizer cells (R41, R44). -/
structure StatusCells where
  locked : Sync
  rate : Sync
  underrun : Sync
  overrun : Sync
deriving DecidableEq, Repr, Inhabited

/-- The active configuration (R46). Only a format with a meaning is ever latched (R229). -/
structure ActiveConfig where
  format : Format
  family : Nat
  mult : Nat
  dsdMode : Nat
  master : Bool
deriving DecidableEq, Repr, Inhabited

/-- The Audio Frame Processor (R44, R46 to R49). -/
structure Afp where
  act : ActiveConfig
  divCnt : Nat
  bitCnt : Nat
  chCnt : Nat
  txFrame : Frame
  rxShift : List Nat
  sdOut : List Bool
  frameSig : Bool
  slotNum : Nat
  bitTick : Bool
  underrunFlag : Bool
  overrunFlag : Bool
deriving DecidableEq, Repr, Inhabited

/-- The levels last supplied by the clock-tracking collaborator (R41, R50). -/
structure LineLevels where
  lockedIn : Bool
  rateIn : Nat
deriving DecidableEq, Repr, Inhabited

/-- The outputs of the core that the host can read (R38, R276). -/
structure Status where
  locked : Bool
  rate : Nat
  underrun : Bool
  overrun : Bool
  dmaError : Bool
  activeCount : PerDir Nat
  bytesProcessed : PerDir Nat
  level : PerDir Nat
  currentIndex : PerDir Nat
  completeSig : PerDir Bool
deriving DecidableEq, Repr, Inhabited

/-- The regions one activation reads and writes (R63, R357). -/
structure Footprint where
  reads : List Region
  writes : List Region
deriving DecidableEq, Repr, Inhabited

/-- Host memory: the listed bytes by address (R51). Its canonical form is `memWf` in Machine/Ops.lean. -/
abbrev Memory := List Host.Cell

/-! ## The state -/

/-- The state of the machine. The last eight fields are the model's own (log 2, 11, 20, 22). -/
structure State where
  /-- The implementation parameters (R8), which no step changes. -/
  params : Params
  host : HostRegs
  mem : Memory
  ring : PerDir Ring
  eng : PerDir Eng
  port : PerDir Port
  fifo : PerDir Fifo
  control : ControlCells
  status : StatusCells
  afp : Afp
  /-- The direction whose engine takes its step of R140. -/
  turn : Dir
  /-- The transport's inputs of the current transport tick (R278). -/
  bus : PerDir PortIn
  line : LineLevels
  /-- The index of the next free values. -/
  freeIx : Nat
  /-- The moves to come that are written out; after them the environment is `Config.environment`. -/
  inputs : List Event
  envIx : Nat
  /-- What the last STATUS_READ sampled. -/
  hostView : Option Status
  /-- What the activations of the pass under way have used since the pass began, the earliest first (R357, log 11); what an engine
  in `Complete` keeps of the pass just over (R286) counts for nothing, and goes when it leaves `Complete`. -/
  used : PerDir (List Footprint)
deriving DecidableEq, Repr, Inhabited

/-! ## The state after reset (R52) -/

/-- A cell every stage of which holds its reset default (R209). The default also stands for the source's value at the previous
capture (DESIGN CHOICE, log 13): under `bitmix` the first capture after a reset may mix it with the source. -/
def syncReset (p : Params) (v : Nat) : Sync := ⟨List.replicate p.syncStages v, v⟩

/-- The all-zero Frame (R45). -/
def zeroFrame (p : Params) : Frame := List.replicate p.maxC 0

/-- `reset()` of a ring (R124). -/
def ringReset (p : Params) : Ring where
  complete := List.replicate p.ringMax false
  currentIndex := 0
  activeCount := 0
  bytesProcessed := 0

/-- The engine's registers after reset; the latch's content is not given by the spec (R29). -/
def engReset (cur : Desc) : Eng where
  st := .idle
  burstCnt := 0
  cur := cur
  curValid := false
  reqBytes := 0
  completeSig := false
  completeEdges := 0
  dmaErr := false

/-- Nothing in the transport's hands. -/
def portReset : Port := ⟨⟨none, none, none, none⟩, [], []⟩

/-- The buffer after reset; the entries' content is not given by the spec (R42). -/
def fifoReset (p : Params) (mem : List Frame) : Fifo where
  mem := mem
  wr := 0
  rd := 0
  rdSync := syncReset p 0
  wrSync := syncReset p 0
  overrunCnt := 0
  underrunCnt := 0

/-- R40: every stage 0 but those of `syncMaster`. -/
def controlReset (p : Params) : ControlCells where
  format := syncReset p 0
  family := syncReset p 0
  mult := syncReset p 0
  dsdMode := syncReset p 0
  master := syncReset p 1
  pbEn := syncReset p 0
  capEn := syncReset p 0

/-- R41: every stage 0. -/
def statusReset (p : Params) : StatusCells := ⟨syncReset p 0, syncReset p 0, syncReset p 0, syncReset p 0⟩

/-- R46 to R49 after reset. -/
def afpReset (p : Params) : Afp where
  act := ⟨.i2s, 0, 0, 0, true⟩
  divCnt := 0
  bitCnt := 0
  chCnt := 0
  txFrame := zeroFrame p
  rxShift := List.replicate p.maxC 0
  sdOut := List.replicate p.maxC false
  frameSig := false
  slotNum := 0
  bitTick := false
  underrunFlag := false
  overrunFlag := false

/-- The ring inputs at the values log 5 names. -/
def ringRegsReset : RingRegs := ⟨0, 0, 0, false, 0⟩

/-- The configuration inputs: enables and soft reset 0 (R346), the rest at the values log 5 names. -/
def hostRegsReset : HostRegs where
  cfg := ⟨0, 0, 0, 0, true, 0⟩
  enable := ⟨false, false⟩
  softReset := false
  hwReset := false
  ring := ⟨ringRegsReset, ringRegsReset⟩

/-- The machine with parameters `p` right after a hardware reset (R52, R346), with no move written out. -/
def State.resetWith (p : Params) : State where
  params := p
  host := hostRegsReset
  mem := []
  ring := ⟨ringReset p, ringReset p⟩
  eng := ⟨engReset ⟨0, 0, 0, 0⟩, engReset ⟨0, 0, 0, 0⟩⟩
  port := ⟨portReset, portReset⟩
  fifo := ⟨fifoReset p (List.replicate p.capacity (zeroFrame p)), fifoReset p (List.replicate p.capacity (zeroFrame p))⟩
  control := controlReset p
  status := statusReset p
  afp := afpReset p
  turn := .pb
  bus := ⟨PortIn.absent, PortIn.absent⟩
  line := ⟨false, 0⟩
  freeIx := 0
  inputs := []
  envIx := 0
  hostView := none
  used := ⟨[], []⟩

/-- The machine right after reset, with the parameters that log 1 names. -/
def State.reset : State := State.resetWith Config.exampleParams

end Sys2Proof.Machine
end

