-- ==== Sys2Proof/Machine/Ops.lean ====
section
/-! DEFINITION. Machine/Ops.lean: the named operations over host memory and over the state's parts, and `raise`, the one
operation that records a condition of 60_exceptions.md. The hardware has no trap entry and no trap return (R312, R313):
`raise` is all that any condition does. -/

namespace Sys2Proof.Machine

/-- What a step answers. -/
abbrev Result := Host.Outcome State Fault Refusal

/-- Continue with `f` where `r` is a next state. -/
def andThen (r : Result) (f : State → Result) : Result :=
  match r with
  | .next s => f s
  | .fault e => .fault e
  | .refused e => .refused e

/-- Apply `f` to the next state. -/
def mapNext (r : Result) (f : State → State) : Result := andThen r (fun s => .next (f s))

/-! ## Host memory (R51, R61) -/

/-- What an address that no entry lists reads as (log 4). -/
def unlistedByte : Byte := 0

/-- The canonical form: addresses strictly rising and inside the address space, no entry equal to `unlistedByte`. -/
def memWf (m : Memory) : Bool :=
  m.all (fun c => decide (c.1 < addrSpace) && c.2 != unlistedByte) && decide (m.Pairwise (fun a b => a.1 < b.1))

/-- The byte at address `a`. -/
def memByte : Memory → Nat → Byte
  | [], _ => unlistedByte
  | (k, v) :: rest, a => if a = k then v else memByte rest a

/-- The memory without an entry for `a`. -/
def eraseByte : Memory → Nat → Memory
  | [], _ => []
  | (k, v) :: rest, a => if a = k then rest else (k, v) :: eraseByte rest a

/-- The memory with the entry `(a, b)`, in order. -/
def insertByte : Memory → Nat → Byte → Memory
  | [], a, b => [(a, b)]
  | (k, v) :: rest, a, b =>
    if a < k then (a, b) :: (k, v) :: rest
    else if a = k then (a, b) :: rest
    else (k, v) :: insertByte rest a b

/-- Write one byte, keeping the canonical form. -/
def setByte (m : Memory) (a : Nat) (b : Byte) : Memory := if b = unlistedByte then eraseByte m a else insertByte m a b

/-- Write bytes at ascending addresses from `a`. -/
def setBytes : Memory → Nat → List Byte → Memory
  | m, _, [] => m
  | m, a, b :: rest => setBytes (setByte m a b) (a + 1) rest

/-- Write a list of single bytes; those outside the address space are not there to be written. -/
def setCells : Memory → List (Nat × Byte) → Memory
  | m, [] => m
  | m, (a, b) :: rest => setCells (if a < addrSpace then setByte m a b else m) rest

/-- The access of `n` bytes at `a` lies in the address space (R68: no access wraps). -/
def inSpace (a n : Nat) : Bool := decide (a + n ≤ addrSpace)

/-- The `n` bytes from `a` in ascending address order. -/
def loadBytes (m : Memory) (a n : Nat) : List Byte := (List.range n).map (fun k => memByte m (a + k))

/-- `MemRead(a, n)` (R10, R61); none outside the address space. -/
def memRead (m : Memory) (a n : Nat) : Option Nat := if inSpace a n then some (natOfBytes (loadBytes m a n)) else none

/-- `MemWrite(a, n, v)` (R10, R61); none outside the address space. -/
def memWrite (m : Memory) (a n v : Nat) : Option Memory := if inSpace a n then some (setBytes m a (bytesOfNat n v)) else none

/-! ## Parts of the state by direction -/

def State.withRing (s : State) (d : Dir) (r : Ring) : State := { s with ring := s.ring.set d r }
def State.withEng (s : State) (d : Dir) (e : Eng) : State := { s with eng := s.eng.set d e }
def State.withPort (s : State) (d : Dir) (p : Port) : State := { s with port := s.port.set d p }
def State.withFifo (s : State) (d : Dir) (f : Fifo) : State := { s with fifo := s.fifo.set d f }
def State.withMem (s : State) (m : Memory) : State := { s with mem := m }
def State.withAfp (s : State) (a : Afp) : State := { s with afp := a }
def State.withHost (s : State) (h : HostRegs) : State := { s with host := h }
def State.withTurn (s : State) (d : Dir) : State := { s with turn := d }
def State.withUsed (s : State) (d : Dir) (u : List Footprint) : State := { s with used := s.used.set d u }
def State.withBus (s : State) (b : PerDir PortIn) : State := { s with bus := b }

/-- The next free values (R10 `draw`). -/
def State.drawn (s : State) : State := { s with freeIx := s.freeIx + 1 }

/-- `eng[d].st <- st` (R27). -/
def setState (d : Dir) (st : EngState) (s : State) : State := s.withEng d { s.eng.get d with st := st }

/-! ## Conditions (60_exceptions.md) -/

/-- The conditions that the core records (R301). A stall is recorded nowhere (R304). -/
inductive Condition where
  /-- A pop of an empty buffer (R185, R302). -/
  | underrun (d : Dir)
  /-- A push of a full buffer (R183, R303). -/
  | overrun (d : Dir)
  /-- A DMA error signalled to an engine (R306). -/
  | dmaError (d : Dir)
deriving DecidableEq, Repr, Inhabited

/-- `raise` (R10): the flags and counters that the condition's rule names, and nothing else (R300). The counters wrap (R43);
the sticky flags are set by the two conditions that the audio side meets (R44, R305). -/
def raise (c : Condition) (s : State) : State :=
  match c with
  | .underrun d =>
    let f := s.fifo.get d
    let s := s.withFifo d { f with underrunCnt := (f.underrunCnt + 1) % 2 ^ s.params.cntW }
    match d with
    | .pb => s.withAfp { s.afp with underrunFlag := true }
    | .cap => s
  | .overrun d =>
    let f := s.fifo.get d
    let s := s.withFifo d { f with overrunCnt := (f.overrunCnt + 1) % 2 ^ s.params.cntW }
    match d with
    | .pb => s
    | .cap => s.withAfp { s.afp with overrunFlag := true }
  | .dmaError d => s.withEng d { s.eng.get d with dmaErr := true }

end Sys2Proof.Machine
end

