-- ==== Sys2Proof/Machine/Sync.lean ====
section
/-! DEFINITION. Machine/Sync.lean: the synchronizer cell (43_cdc_bridge.md) and the two sets of cells (R203, R284). -/

namespace Sys2Proof.Machine

/-- `s.out = s.stage[S-1]` (R201). -/
def Sync.out (c : Sync) : Nat := c.stages.getLastD 0

/-- Shift `v` into a cell (R201). -/
def shiftIn (v : Nat) (stages : List Nat) : List Nat := v :: stages.dropLast

/-- A value each of whose bits is the bit of `old` or of `new`: of `new` where `mask` has a 1 (R205). -/
def mixBits (old new mask : Nat) : Nat := old ^^^ ((old ^^^ new) &&& mask)

/-- The step of a cell that carries whole values (R204): the index cells of the buffers, in every model. -/
def Sync.stepWhole (c : Sync) (src : Nat) : Sync := ⟨shiftIn src c.stages, src⟩

/-- What the first stage of a scalar cell captures (R201, R205). -/
def captured (g : GlitchModel) (prev src mask : Nat) : Nat :=
  match g with
  | .none => src
  | .bitmix => if src = prev then src else mixBits prev src mask

/-- The step of scalar cell number `k` in the tick of free values `n` (R201, R205). -/
def Sync.stepScalar (p : Params) (n k : Nat) (c : Sync) (src : Nat) : Sync :=
  ⟨shiftIn (captured p.glitch c.prev src (Config.freeMask n k)) c.stages, src⟩

/-- The six cells whose destination is the transport domain (R203, R284). -/
def stepTransportCells (s : State) : State :=
  let pb := s.fifo.pb
  let cap := s.fifo.cap
  { s with
    status :=
      { locked := s.status.locked.stepScalar s.params s.freeIx 7 s.line.lockedIn.toNat
        rate := s.status.rate.stepScalar s.params s.freeIx 8 s.line.rateIn
        underrun := s.status.underrun.stepScalar s.params s.freeIx 9 s.afp.underrunFlag.toNat
        overrun := s.status.overrun.stepScalar s.params s.freeIx 10 s.afp.overrunFlag.toNat }
    fifo := ⟨{ pb with rdSync := pb.rdSync.stepWhole pb.rd }, { cap with wrSync := cap.wrSync.stepWhole cap.wr }⟩ }

/-- The nine cells whose destination is the audio domain (R203, R284). -/
def stepAudioCells (s : State) : State :=
  let pb := s.fifo.pb
  let cap := s.fifo.cap
  let cfg := s.host.cfg
  { s with
    control :=
      { format := s.control.format.stepScalar s.params s.freeIx 0 cfg.format.toNat
        family := s.control.family.stepScalar s.params s.freeIx 1 cfg.family
        mult := s.control.mult.stepScalar s.params s.freeIx 2 cfg.mult
        dsdMode := s.control.dsdMode.stepScalar s.params s.freeIx 3 cfg.dsdMode.toNat
        master := s.control.master.stepScalar s.params s.freeIx 4 cfg.master.toNat
        pbEn := s.control.pbEn.stepScalar s.params s.freeIx 5 s.host.enable.pb.toNat
        capEn := s.control.capEn.stepScalar s.params s.freeIx 6 s.host.enable.cap.toNat }
    fifo := ⟨{ pb with wrSync := pb.wrSync.stepWhole pb.wr }, { cap with rdSync := cap.rdSync.stepWhole cap.rd }⟩ }

end Sys2Proof.Machine
end

