-- ==== Sys2Proof/Machine/Buffer.lean ====
section
/-! DEFINITION. Machine/Buffer.lean: the Elastic Buffer (42_elastic_buffer.md): the two views of its occupancy, push and pop. -/

namespace Sys2Proof.Machine

/-- `(a - b) mod m` of two unsigned numbers (R10, R181). -/
def modSub (m a b : Nat) : Nat := (a + (m - b % m)) % m

/-- `M = 2*CAPACITY` (R181). -/
def indexModulus (p : Params) : Nat := 2 * p.capacity

/-- The true occupancy (R181). -/
def occ (p : Params) (f : Fifo) : Nat := modSub (indexModulus p) f.wr f.rd

/-- The producer's view (R186). -/
def occP (p : Params) (f : Fifo) : Nat := modSub (indexModulus p) f.wr f.rdSync.out

/-- The consumer's view (R187). -/
def occC (p : Params) (f : Fifo) : Nat := modSub (indexModulus p) f.wrSync.out f.rd

/-- R186. -/
def fullSeen (p : Params) (f : Fifo) : Bool := occP p f == p.capacity

/-- R186. -/
def freeSeen (p : Params) (f : Fifo) : Nat := p.capacity - occP p f

/-- R187. -/
def emptySeen (p : Params) (f : Fifo) : Bool := occC p f == 0

/-- R187. -/
def filledSeen (p : Params) (f : Fifo) : Nat := occC p f

/-- `level[d]`, the buffer level the host reads (R188). -/
def level (s : State) : Dir → Nat
  | .pb => occP s.params s.fifo.pb
  | .cap => occC s.params s.fifo.cap

/-- The buffer with frame `fr` entered (R182, the accepted push). -/
def Fifo.pushed (p : Params) (f : Fifo) (fr : Frame) : Fifo :=
  { f with mem := f.mem.set (f.wr % p.capacity) fr, wr := (f.wr + 1) % indexModulus p }

/-- The buffer with its oldest frame taken (R184, the accepted pop). -/
def Fifo.popped (p : Params) (f : Fifo) : Fifo := { f with rd := (f.rd + 1) % indexModulus p }

/-- The entry a pop returns (R184). -/
def Fifo.front (p : Params) (f : Fifo) : Frame := f.mem.getD (f.rd % p.capacity) []

/-- `push(fifo[d], fr)` by the producer (R182); on full it is the counted no-op of R183. -/
def pushFrame (d : Dir) (fr : Frame) (s : State) : State :=
  let f := s.fifo.get d
  if occP s.params f < s.params.capacity then s.withFifo d (f.pushed s.params fr) else raise (.overrun d) s

/-- `pop(fifo[d])` by the consumer (R184); on empty there is no frame and it is the counted no-op of R185. -/
def popFrame (d : Dir) (s : State) : Option Frame × State :=
  let f := s.fifo.get d
  if 0 < occC s.params f then (some (f.front s.params), s.withFifo d (f.popped s.params)) else (none, raise (.underrun d) s)

/-- `draw(Frame)` (R10): a Frame of `MAXC` words of `MAXW` bits that nothing fixes. -/
def drawFrame (s : State) : Frame :=
  (List.range s.params.maxC).map (fun c => Config.freeSample s.freeIx c % 2 ^ s.params.maxW)

end Sys2Proof.Machine
end

