-- ==== Sys2Proof/Machine/Operands.lean ====
section
/-! DEFINITION. Machine/Operands.lean: what is assembled from a descriptor's fields and the ring (R97), the two parameter tables
(R221, R222), and the layout of a frame in a transport word (R151). -/

namespace Sys2Proof.Machine

/-! ## Ring addresses (R69, R97) -/

/-- `ring[d].base` as a number. -/
def ringBase (s : State) (d : Dir) : Nat := (s.host.ring.get d).base.toNat

/-- `N`, the slots of the ring (R22). -/
def ringCount (s : State) (d : Dir) : Nat := (s.host.ring.get d).descCount

/-- The address of slot `i` (R69). -/
def slotAddress (s : State) (d : Dir) (i : Nat) : Nat := ringBase s d + i * recSize

/-- The address of the current slot: where the engine fetches. -/
def fetchAddress (s : State) (d : Dir) : Nat := slotAddress s d (s.ring.get d).currentIndex

/-- `nextIndex` (R97): defined only for the address of a slot of the ring. -/
def nextIndex (base count : Nat) (nextAddress : BitVec 64) : Option Nat :=
  let a := nextAddress.toNat
  if base ≤ a ∧ (a - base) % recSize = 0 ∧ (a - base) / recSize < count then some ((a - base) / recSize) else none

/-- `nextIndex` of a descriptor of ring `d`. -/
def nextSlot (s : State) (d : Dir) (desc : Desc) : Option Nat := nextIndex (ringBase s d) (ringCount s d) desc.nextAddress

/-- The address of the `k`-th transport word of a burst (R63 (b)). -/
def wordAddress (p : Params) (desc : Desc) (k : Nat) : Nat := desc.bufferAddress.toNat + k * p.wordBytes

/-! ## The tables of R8 -/

/-- The format of a configuration value (R35): 3 is reserved. -/
def formatOfCode : Nat → Option Format
  | 0 => some .i2s
  | 1 => some .tdm
  | 2 => some .dsd
  | _ => none

/-- A format that has a meaning, with the DSD sub-mode it is given (R229: the sub-mode is ignored but under DSD). -/
def legalFormat (format dsdMode : Nat) : Option Format :=
  match formatOfCode format with
  | some .dsd => if dsdMode < 3 then some .dsd else none
  | f => f

/-- `geometry(format, dsdMode)` (R221). -/
def geometry (p : Params) (f : Format) (dsdMode : Nat) : Geom :=
  match f with
  | .i2s => p.geomI2s
  | .tdm => p.geomTdm
  | .dsd =>
    match dsdMode with
    | 0 => p.geomDsd64
    | 1 => p.geomDsd128
    | _ => p.geomDsd256

/-- The row of the divider table, else the default (R222). -/
def divLookup (rows : List DivRow) (dflt : Nat) (f : Format) (family mult : Nat) : Nat :=
  match rows with
  | [] => dflt
  | r :: rest =>
    if r.format = f ∧ r.family = family ∧ r.mult = mult then r.div else divLookup rest dflt f family mult

/-- `bclkDiv(format, family, mult, dsdMode)` (R222): for DSD of the sub-mode alone. -/
def bclkDiv (p : Params) (f : Format) (family mult dsdMode : Nat) : Nat :=
  match f with
  | .dsd =>
    match dsdMode with
    | 0 => p.divDsd64
    | 1 => p.divDsd128
    | _ => p.divDsd256
  | f => divLookup p.divRows p.divDefault f family mult

/-- `(C, W)` of an active configuration (R221). -/
def activeGeometry (p : Params) (a : ActiveConfig) : Geom := geometry p a.format a.dsdMode

/-- `DIV` of an active configuration (R221). -/
def activeDivider (p : Params) (a : ActiveConfig) : Nat := bclkDiv p a.format a.family a.mult a.dsdMode

/-- The geometry `g` that the engines slice and pack with: of the transport-domain inputs (R146), under a format that has a
meaning (log 14) and a frame that fits a transport word (R8, R151). That a wider one is refused here, when an engine moves a data
word, and at no other step, is the model's choice: R151 does not say at which step (DESIGN CHOICE, log 30). -/
def transportGeometry (s : State) : Except Refusal Geom :=
  match legalFormat s.host.cfg.format.toNat s.host.cfg.dsdMode.toNat with
  | none => .error .reservedFormat
  | some f =>
    let g := geometry s.params f s.host.cfg.dsdMode.toNat
    if g.channels * g.width ≤ 8 * s.params.wordBytes then .ok g else .error .frameWiderThanWord

/-! ## Slicing and packing (R151) -/

/-- `w[c*W+W-1 : c*W]`. -/
def sliceWord (g : Geom) (w c : Nat) : Nat := (w >>> (c * g.width)) % 2 ^ g.width

/-- `slice(w, (C, W))` (R151): channel 0 in the least significant bits, the channels from `C` on zero. -/
def slice (p : Params) (g : Geom) (w : Nat) : Frame :=
  (List.range p.maxC).map (fun c => if c < g.channels then sliceWord g w c else 0)

/-- The first `n` channels of `f`, from channel `c` on, packed with channel `c` lowest. -/
def packFrom (g : Geom) (f : Frame) : (n c : Nat) → Nat
  | 0, _ => 0
  | n + 1, c => f.getD c 0 % 2 ^ g.width + 2 ^ g.width * packFrom g f n (c + 1)

/-- `pack(f, (C, W))` (R151). -/
def pack (g : Geom) (f : Frame) : Nat := packFrom g f g.channels 0

end Sys2Proof.Machine
end

