-- ==== Sys2Proof/Machine/Audio.lean ====
section
/-! DEFINITION. Machine/Audio.lean: the Audio Frame Processor (44_audio_frame_processor.md): divider, frame alignment,
serializer, deserializer; and the audio tick (R223). -/

namespace Sys2Proof.Machine

/-- A frame boundary is a bit event that starts here (R226). -/
def atBoundary (a : Afp) : Bool := a.bitCnt == 0 && a.chCnt == 0

/-- `latch()` (R228): the outputs of the five control cells, refused where they have no meaning (R229, R242). Where they show
both a reserved format and slave mode the refusal named is `reservedFormat` (DESIGN CHOICE, log 10). A geometry wider than a
transport word is latched and run like any other: R151 does not say at which step it is refused (DESIGN CHOICE, log 30). -/
def latchConfig (s : State) : Except Refusal ActiveConfig :=
  let c := s.control
  match legalFormat c.format.out c.dsdMode.out with
  | none => .error .reservedFormat
  | some f =>
    if c.master.out = 0 then .error .slaveMode
    else .ok { format := f, family := c.family.out, mult := c.mult.out, dsdMode := c.dsdMode.out, master := true }

/-- The frame that an underrun serializes (R230). -/
def underrunFrame (s : State) : Frame :=
  match s.params.underrunOutput with
  | .lastValue => s.afp.txFrame
  | .draw => drawFrame s

/-- `load()` (R230): the frame to serialize, and the pop it makes. -/
def loadFrame (s : State) : Frame × State :=
  if s.control.pbEn.out = 0 then (zeroFrame s.params, s)
  else ((popFrame .pb s).1.getD (underrunFrame s), (popFrame .pb s).2)

/-- Bit `bitCnt` of channel `c`'s word, the most significant bit first (R231, R234). -/
def lineBit (g : Geom) (tx : Frame) (bitCnt c : Nat) : Bool := (tx.getD c 0).testBit (g.width - 1 - bitCnt)

/-- `drive`, the data lines (R231, R234). -/
def driveData (p : Params) (f : Format) (g : Geom) (tx : Frame) (bitCnt chCnt : Nat) : List Bool :=
  (List.range p.maxC).map (fun c =>
    match f with
    | .dsd => if c < g.channels then lineBit g tx bitCnt c else false
    | _ => if c = 0 then lineBit g tx bitCnt chCnt else false)

/-- `drive`, the frame signal (R232). -/
def driveFrameSig (f : Format) (boundary : Bool) (chCnt : Nat) : Bool :=
  match f with
  | .i2s => chCnt.testBit 0
  | .tdm => boundary
  | .dsd => false

/-- `drive`, the slot number (R233). -/
def driveSlot (f : Format) (chCnt : Nat) : Nat :=
  match f with
  | .tdm => chCnt
  | _ => 0

/-- The serial data of this bit event (R235): a loop-back carries what the event drives. -/
def lineIn (inp : LineIn) (driven : List Bool) : List Bool :=
  match inp with
  | .bits l => l
  | .loopback => driven

/-- One shift of a deserializer register (R235). -/
def shiftBit (g : Geom) (old : Nat) (b : Bool) : Nat := (2 * old + b.toNat) % 2 ^ g.width

/-- `sample` (R235). -/
def sampleLine (f : Format) (g : Geom) (sdIn : List Bool) (chCnt : Nat) (rx : List Nat) : List Nat :=
  match f with
  | .dsd => rx.mapIdx (fun c v => if c < g.channels then shiftBit g v (sdIn.getD c false) else v)
  | _ => rx.set chCnt (shiftBit g (rx.getD chCnt 0) (sdIn.getD 0 false))

/-- The counters after a bit event, and `frameEnd` (R225). -/
def advanceCounters (f : Format) (g : Geom) (bitCnt chCnt : Nat) : Nat × Nat × Bool :=
  if bitCnt < g.width - 1 then (bitCnt + 1, chCnt, false)
  else if f ≠ .dsd ∧ chCnt < g.channels - 1 then (0, chCnt + 1, false)
  else (0, 0, true)

/-- The Frame that the shift registers make (R236, R45). -/
def receivedFrame (p : Params) (g : Geom) (rx : List Nat) : Frame :=
  (List.range p.maxC).map (fun c => if c < g.channels then rx.getD c 0 % 2 ^ g.width else 0)

/-- `publish` (R236): one push attempt while capture streams, else the frame is discarded. -/
def publishFrame (g : Geom) (rx : List Nat) (s : State) : State :=
  if s.control.capEn.out = 0 then s else pushFrame .cap (receivedFrame s.params g rx) s

/-- The bit event under active configuration `act` with frame `tx` (R227), after the boundary's latch and load: drive, sample,
advance, publish. `boundary` says that the event is a frame boundary. -/
def driveAndSample (inp : LineIn) (boundary : Bool) (act : ActiveConfig) (tx : Frame) (s : State) : State :=
  let a := s.afp
  let g := activeGeometry s.params act
  let sd := driveData s.params act.format g tx a.bitCnt a.chCnt
  let rx := sampleLine act.format g (lineIn inp sd) a.chCnt a.rxShift
  let next := advanceCounters act.format g a.bitCnt a.chCnt
  let s := s.withAfp { a with
    act := act
    txFrame := tx
    rxShift := rx
    sdOut := sd
    frameSig := driveFrameSig act.format boundary a.chCnt
    slotNum := driveSlot act.format a.chCnt
    bitCnt := next.1
    chCnt := next.2.1 }
  if next.2.2 then publishFrame g rx s else s

/-- `bitEvent()` (R227). -/
def bitEvent (inp : LineIn) (s : State) : Result :=
  if atBoundary s.afp then
    match latchConfig s with
    | .error r => .refused r
    | .ok act => .next (driveAndSample inp true act (loadFrame s).1 (loadFrame s).2)
  else .next (driveAndSample inp false s.afp.act s.afp.txFrame s)

/-- The divider (R224): a bit event every `DIV` ticks, `DIV` taken before the tick. -/
def dividerStep (inp : LineIn) (s : State) : Result :=
  if s.afp.divCnt < activeDivider s.params s.afp.act - 1 then
    .next (s.withAfp { s.afp with divCnt := s.afp.divCnt + 1, bitTick := false })
  else bitEvent inp (s.withAfp { s.afp with divCnt := 0, bitTick := true })

/-- The collaborator's levels of this tick (R41). -/
def withLine (a : AudioIn) (s : State) : State := { s with line := ⟨a.lockedIn, a.rateIn % 2 ^ s.params.rateW⟩ }

/-- One audio tick (R223, R284): the processor, then its domain's cells, which read nothing that the processor writes (log 18). -/
def audioStep (a : AudioIn) (s : State) : Result :=
  mapNext (dividerStep a.sdIn (withLine a s)) (fun s => (stepAudioCells s).drawn)

end Sys2Proof.Machine
end

