-- ==== Sys2Proof/Machine/Flags.lean ====
section
/-! DEFINITION. Machine/Flags.lean: the status flags that a descriptor writes (R33): the slot's complete bit and the complete
signal with its ghost edge counter. -/

namespace Sys2Proof.Machine

/-- `ring[d].complete[i]` (R23). -/
def slotComplete (s : State) (d : Dir) (i : Nat) : Bool := (s.ring.get d).complete.getD i false

/-- The test of R143 on the current slot. -/
def currentComplete (s : State) (d : Dir) : Bool := slotComplete s d (s.ring.get d).currentIndex

/-- The edge counter's increment in a tick that writes `v` over `old` (R149). -/
def edgeOf (old v : Bool) : Nat := if v && !old then 1 else 0

/-- The write of `eng[d].completeSig` that every transport tick makes (R149). -/
def writeSig (d : Dir) (v : Bool) (s : State) : State :=
  let e := s.eng.get d
  s.withEng d { e with completeSig := v, completeEdges := e.completeEdges + edgeOf e.completeSig v }

/-- The DMA-error latch of a transport tick (R306). -/
def latchDmaError (d : Dir) (s : State) : State :=
  if (s.bus.get d).dmaErrorIn then raise (.dmaError d) s else s

end Sys2Proof.Machine
end

