-- ==== Sys2Proof/Machine/Validity.lean ====
section
/-! DEFINITION. Machine/Validity.lean: what the latch of a record refuses: ring validity (R121), misalignment (R64), a device
region (R67), an overlap of a region that an engine writes (R357, at the launch too); and the launch, move and reset
preconditions (R9, R343, R356). The hardware checks none of them (R121); the model gives their breach no meaning. -/

namespace Sys2Proof.Machine

/-! ## Ring validity (R121) -/

/-- R121 (a). -/
def countOk (s : State) (d : Dir) : Bool := decide (1 ≤ ringCount s d) && decide (ringCount s d ≤ s.params.ringMax)

/-- R121 (b), first half. -/
def baseAligned (s : State) (d : Dir) : Bool := ringBase s d % 8 == 0

/-- R121 (b), second half (R68). -/
def ringFits (s : State) (d : Dir) : Bool := inSpace (ringBase s d) (ringCount s d * recSize)

/-- R121 (f): a descriptor that is no end of a chain names a slot of its ring. -/
def successorOk (s : State) (d : Dir) (desc : Desc) : Bool :=
  desc.lastInChain || desc.wrap || (nextSlot s d desc).isSome

/-- What R64 asks for: base, buffer address and length aligned, and a length of at least a word. -/
def alignedOk (s : State) (d : Dir) (desc : Desc) : Bool :=
  baseAligned s d && addressAligned s.params desc.bufferAddress && lengthEnough s.params desc.length
    && lengthAligned s.params desc.length

/-- The clauses of R121 that are not alignment: (a), (b) second half, (e), (f). That the current slot is below `N` (R24) is none
of them and is not tested: a slot that RING_SETUP left beyond the ring is fetched like any other (DESIGN CHOICE, log 29). -/
def rangesOk (s : State) (d : Dir) (desc : Desc) : Bool :=
  countOk s d && ringFits s d && burstFits s.params desc.bufferAddress desc.length && successorOk s d desc

/-- Ring validity at the moment the current slot is fetched with record `desc` (R121). -/
def validRing (s : State) (d : Dir) (desc : Desc) : Bool := alignedOk s d desc && rangesOk s d desc

/-! ## Regions (R67, R357) -/

/-- Two regions share an address. -/
def regionsMeet (a b : Region) : Bool := decide (max a.base b.base < min (a.base + a.size) (b.base + b.size))

/-- The bytes a descriptor's burst moves (R145). -/
def bufferRegion (p : Params) (desc : Desc) : Region := ⟨desc.bufferAddress.toNat, burstSize p desc.length⟩

/-- The whole ring. -/
def ringRegion (s : State) (d : Dir) : Region := ⟨ringBase s d, ringCount s d * recSize⟩

/-- The record of slot `i`. -/
def recordRegion (s : State) (d : Dir) (i : Nat) : Region := ⟨slotAddress s d i, recSize⟩

/-- The flags word of slot `i` (R150). -/
def flagsRegion (s : State) (d : Dir) (i : Nat) : Region := ⟨slotAddress s d i + flagsOffset, 4⟩

/-- R67: the ring or the buffer lies in a device region. -/
def inDevice (s : State) (d : Dir) (desc : Desc) : Bool :=
  s.params.deviceRegions.any (fun r => regionsMeet r (ringRegion s d) || regionsMeet r (bufferRegion s.params desc))

/-- The flags word, where it is written back (R150). -/
def writeBackRegions (s : State) (d : Dir) (i : Nat) : List Region :=
  match s.params.writeBack with
  | .none => []
  | .clearOwn => [flagsRegion s d i]

/-- The footprint of the activation of slot `i` with record `desc`. -/
def footprint (s : State) (d : Dir) (i : Nat) (desc : Desc) : Footprint :=
  match d with
  | .pb => ⟨[recordRegion s d i, bufferRegion s.params desc], writeBackRegions s d i⟩
  | .cap => ⟨[recordRegion s d i], bufferRegion s.params desc :: writeBackRegions s d i⟩

/-- One of the two writes where the other reads or writes. -/
def footprintsClash (a b : Footprint) : Bool :=
  a.writes.any (fun w => (b.reads ++ b.writes).any (regionsMeet w)) || b.writes.any (fun w => a.reads.any (regionsMeet w))

/-- An activation whose own buffer meets its own record where one of them is written. Its flags word lies in its own record,
which is no overlap. -/
def selfClash (s : State) (d : Dir) (i : Nat) (desc : Desc) : Bool :=
  match d with
  | .pb => (writeBackRegions s d i).any (regionsMeet (bufferRegion s.params desc))
  | .cap => regionsMeet (bufferRegion s.params desc) (recordRegion s d i)

/-- The record of slot `i` as memory holds it. -/
def recordAt (s : State) (d : Dir) (i : Nat) : Desc := descOfRec (recOfBytes (loadBytes s.mem (slotAddress s d i) recSize))

/-- The record that slot `i` stands for: the latched one for the slot in hand, else the one in memory. -/
def recordInHand (s : State) (d : Dir) (i : Nat) : Desc :=
  if i = (s.ring.get d).currentIndex ∧ (s.eng.get d).curValid = true then (s.eng.get d).cur else recordAt s d i

/-- The slot that a pass goes on to after `desc`; none at an end of the chain (R126) and where `nextAddress` names none. -/
def successor (s : State) (d : Dir) (desc : Desc) : Option Nat :=
  if desc.lastInChain || desc.wrap then none else nextSlot s d desc

/-- The slots that a pass still has to execute: the chain from slot `i` to an end of the chain, a complete slot (R143), a slot
seen before, or a successor outside the ring (R126), at most `fuel` of them. -/
def chainFrom (s : State) (d : Dir) : (fuel : Nat) → (seen : List Nat) → (i : Option Nat) → List Nat
  | 0, _, _ => []
  | _ + 1, _, none => []
  | fuel + 1, seen, some i =>
    if seen.contains i || slotComplete s d i then []
    else i :: chainFrom s d fuel (i :: seen) (successor s d (recordInHand s d i))

/-- A bound of the slots of a chain. -/
def chainFuel (s : State) (d : Dir) : Nat := min (ringCount s d) s.params.ringMax

/-- The slots that the pass of direction `d` executes after the current one, whose record is `desc`. -/
def slotsAfter (s : State) (d : Dir) (desc : Desc) : List Nat :=
  chainFrom s d (chainFuel s d) [(s.ring.get d).currentIndex] (successor s d desc)

/-- The slots that the pass of direction `d` still has to execute, the current one first. -/
def slotsFrom (s : State) (d : Dir) : List Nat := chainFrom s d (chainFuel s d) [] (some (s.ring.get d).currentIndex)

/-- A direction with a pass under way or about to start: in `Idle` where it is enabled, and until `Complete`, where its pass
is over (R286). An engine that a DMA error was signalled to is not in play: R306 leaves all it does unspecified, and the spec does
not say whether it counts for R357; that it does not is the model's choice (DESIGN CHOICE, log 9, log 11). -/
def inPlay (s : State) (d : Dir) : Bool :=
  if (s.eng.get d).dmaErr then false
  else
    match (s.eng.get d).st with
    | .idle => s.host.enable.get d
    | .complete => false
    | _ => true

/-- What the slots `ks` of direction `d` stand for, each by the record in hand for it. -/
def slotFootprints (s : State) (d : Dir) (ks : List Nat) : List Footprint :=
  ks.map (fun k => footprint s d k (recordInHand s d k))

/-- The activations of the pass of direction `d` where that pass is in play: those latched so far, and those still to come. -/
def passFootprints (s : State) (d : Dir) : List Footprint :=
  if inPlay s d then s.used.get d ++ slotFootprints s d (slotsFrom s d) else []

/-- The activations that the one of record `desc` must not overlap (R357, log 11): of its own pass, those latched so far and those
still to come after it; and those of the other direction's pass. -/
def otherFootprints (s : State) (d : Dir) (desc : Desc) : List Footprint :=
  s.used.get d ++ slotFootprints s d (slotsAfter s d desc) ++ passFootprints s d.other

/-- R357: the activation overlaps a region that an engine uses. -/
def overlaps (s : State) (d : Dir) (desc : Desc) : Bool :=
  let i := (s.ring.get d).currentIndex
  selfClash s d i desc || (otherFootprints s d desc).any (footprintsClash (footprint s d i desc))

/-- R357 at the launch of engine `d`, which issues the read of its current slot's record (R142, R144): an activation that the
other direction's pass in play has latched writes that record. A slot that is already complete is not read (R143). -/
def launchOverlaps (s : State) (d : Dir) : Bool :=
  !currentComplete s d && inPlay s d.other &&
    (s.used.get d.other).any (footprintsClash ⟨[recordRegion s d (s.ring.get d).currentIndex], []⟩)

/-- Why the latch of `desc` for engine `d` is refused; none where R144 goes on. The order is log 10's, and
so is the refusal of a slot past 2^64, which gives no record and does not come this far (`decodeDelivered`). -/
def latchRefusal (s : State) (d : Dir) (desc : Desc) : Option Refusal :=
  if !alignedOk s d desc then some .misaligned
  else if !rangesOk s d desc then some .invalidRing
  else if inDevice s d desc then some .nonMemoryRegion
  else if overlaps s d desc then some .overlappingRegions
  else none

/-! ## Preconditions of the launch, of a ring move and of a reset -/

/-- R9, R352: the burst size divides the configured buffer size. -/
def burstDivides (s : State) (d : Dir) : Bool := (s.host.ring.get d).bufferSize % s.params.burstBytes == 0

/-- R356: the engine is between FetchDescriptor and UpdateDescriptor. After a DMA error its state is unspecified (R306, R361), and
the spec does not say whether a ring change is then in flight: the drawn state decides, as the state of any engine does (DESIGN
CHOICE, log 23), though a reset and R357 disregard such an engine (log 9, log 11). -/
def betweenFetchAndUpdate (s : State) (d : Dir) : Bool :=
  match (s.eng.get d).st with
  | .fetchDescriptor => true
  | .moveData => true
  | .updateDescriptor => true
  | .idle => false
  | .complete => false

/-- R343: engine `d` has a request outstanding with the transport: a standing descriptor read or burst request, a burst, or
writes not yet performed. After a DMA error R343 read literally would refuse; that the reset is taken is the model's choice, as
reset is the recovery that R315 names (DESIGN CHOICE, log 9). -/
def requestOutstanding (s : State) (d : Dir) : Bool :=
  if (s.eng.get d).dmaErr then false
  else
    match (s.eng.get d).st with
    | .fetchDescriptor => !currentComplete s d
    | .moveData => true
    | .updateDescriptor => !(s.port.get d).pending.isEmpty
    | .idle => false
    | .complete => false

end Sys2Proof.Machine
end

