-- ==== Sys2Proof/Machine/RingOps.lean ====
section
/-! DEFINITION. Machine/RingOps.lean: the Descriptor Ring's operations (40_descriptor_ring.md) and the flags write-back (R150). -/

namespace Sys2Proof.Machine

/-- `ring[d].currentIndex <- i` (R24). -/
def setIndex (d : Dir) (i : Nat) (s : State) : State := s.withRing d { s.ring.get d with currentIndex := i }

/-- `markComplete(bytes)` (R123): the current slot's flag, and the wrapping byte counter. -/
def markComplete (d : Dir) (bytes : Nat) (s : State) : State :=
  let r := s.ring.get d
  s.withRing d { r with
    complete := r.complete.set r.currentIndex true
    bytesProcessed := (r.bytesProcessed + bytes) % 2 ^ s.params.bytesW }

/-- `ring[d].activeCount <- n` (R25). -/
def setActive (d : Dir) (n : Nat) (s : State) : State := s.withRing d { s.ring.get d with activeCount := n }

/-- The slot `advance()` moves to (R122): slot 0 from an end of a chain, else the slot that `nextAddress` names. -/
def advanceTo (s : State) (d : Dir) (desc : Desc) : Option Nat :=
  if desc.lastInChain || desc.wrap then some 0 else nextSlot s d desc

/-- The flags word with bit 31 cleared (R150). -/
def clearOwned (flags : BitVec 32) : BitVec 32 := flags &&& 0x7FFFFFFF#32

/-- `writeBack()` (R150) under `DESC_WRITEBACK`, for the record of the current slot; none outside the address space. -/
def writeBackFlags (d : Dir) (flags : BitVec 32) (s : State) : Option State :=
  match s.params.writeBack with
  | .none => some s
  | .clearOwn => (memWrite s.mem (fetchAddress s d + flagsOffset) 4 (clearOwned flags).toNat).map s.withMem

/-- Perform the writes the transport holds, the oldest first (R71). -/
def performAll : Memory → List PendingWrite → Option Memory
  | m, [] => some m
  | m, w :: rest =>
    match memWrite m w.addr w.size w.value with
    | some m' => performAll m' rest
    | none => none

end Sys2Proof.Machine
end

