-- ==== Sys2Proof/Machine/Engine.lean ====
section
/-! DEFINITION. Machine/Engine.lean: the transitions of the Transfer Engine (41_transfer_engine.md), each as one step of engine
`d` that writes the complete signal (R149), and `activation`, the step that the three kinds share. -/

namespace Sys2Proof.Machine

/-! ## The steps that no descriptor takes part in -/

/-- A step whose awaited input is absent leaves `st` (R140, R155) and writes 0 to the signal (R149). -/
def waitStep (d : Dir) (s : State) : Result := .next (writeSig d false s)

/-- `spaceOK(d)` (R141): the buffer can absorb one full burst. -/
def spaceOk (s : State) : Dir → Bool
  | .pb => decide (s.params.burstWords ≤ freeSeen s.params s.fifo.pb)
  | .cap => decide (s.params.burstWords ≤ filledSeen s.params s.fifo.cap)

/-- The step in `Idle` (R142), with the launch precondition of R9 and R352, and R357 for the read that the launch issues (log 11);
where both are broken the first is named (DESIGN CHOICE, log 10). -/
def idleStep (d : Dir) (s : State) : Result :=
  if s.host.enable.get d && spaceOk s d then
    if !burstDivides s d then .refused .burstNotDividing
    else if launchOverlaps s d then .refused .overlappingRegions
    else .next (writeSig d false (setState d .fetchDescriptor s))
  else waitStep d s

/-- The step in `FetchDescriptor` on a slot that is already complete (R143). -/
def alreadyCompleteStep (d : Dir) (s : State) : Result := .next (writeSig d false (setState d .complete s))

/-- The step in `Complete` (R148); what the pass used goes when it is left (log 11). -/
def completeStep (d : Dir) (s : State) : Result :=
  .next (writeSig d true (if s.host.enable.get d then s else (setState d .idle s).withUsed d []))

/-! ## FetchDescriptor (R144, R145) -/

/-- The pass of engine `d` begins the activation of its current slot with record `desc`: its regions count as used (R357). -/
def recordUse (d : Dir) (desc : Desc) (s : State) : State :=
  s.withUsed d (s.used.get d ++ [footprint s d (s.ring.get d).currentIndex desc])

/-- The latch of a record (R144), refused where the ring is not valid. -/
def latchStep (d : Dir) (desc : Desc) (s : State) : Result :=
  match latchRefusal s d desc with
  | some r => .refused r
  | none =>
    let s := recordUse d desc (s.withEng d { s.eng.get d with cur := desc, curValid := true })
    .next (writeSig d false (s.withPort d { s.port.get d with fields := ⟨none, none, none, none⟩ }))

/-- The burst request (R145): the activation of the descriptor, once the transport accepts. -/
def requestStep (d : Dir) (desc : Desc) (s : State) : Result :=
  if (s.bus.get d).reqAccept then
    let s := s.withEng d { s.eng.get d with reqBytes := burstSize s.params desc.length, burstCnt := 0, st := .moveData }
    .next (writeSig d false (setActive d 1 s))
  else waitStep d s

/-! ## MoveData (R146) -/

/-- Count the word moved, and leave `MoveData` where the burst is finished (R146). -/
def countWord (d : Dir) (done : Bool) (s : State) : State :=
  let e := s.eng.get d
  s.withEng d { e with burstCnt := e.burstCnt + 1, st := if done then .updateDescriptor else e.st }

/-- The word `w` of the playback burst (R146, R66): as the transport read it ahead, else as memory holds it now; a word from
elsewhere is cut to the width of a transport word (R278). None outside the address space. -/
def playbackWord (desc : Desc) (src : Source Nat) (s : State) : Option Nat :=
  match src with
  | .value w => some (w % 2 ^ (8 * s.params.wordBytes))
  | .memory =>
    match s.port.pb.rdAhead with
    | w :: _ => some w
    | [] => memRead s.mem (wordAddress s.params desc s.eng.pb.burstCnt) s.params.wordBytes

/-- The playback burst is finished by this word (R146). -/
def playbackDone (s : State) (last : Bool) : Bool := last || s.eng.pb.burstCnt + 1 == s.params.burstWords

/-- The word that was read ahead is consumed. -/
def dropAhead (s : State) : State := s.withPort .pb { s.port.pb with rdAhead := s.port.pb.rdAhead.tail }

/-- One word of a playback burst (R146). Where the word lies past 2^64 and the geometry is refused too, the fault is named first
(DESIGN CHOICE, log 10). -/
def movePlayback (desc : Desc) (s : State) : Result :=
  match s.bus.pb.rdWord with
  | none => waitStep .pb s
  | some (src, last) =>
    match playbackWord desc src s with
    | none => .fault .outsideAddressSpace
    | some w =>
      match transportGeometry s with
      | .error r => .refused r
      | .ok g =>
        .next (writeSig .pb false (countWord .pb (playbackDone s last) (dropAhead (pushFrame .pb (slice s.params g w) s))))

/-- The capture burst is finished by this word, as the engine itself counts (R146). -/
def captureDone (s : State) : Bool :=
  s.eng.cap.burstCnt + 1 == s.eng.cap.reqBytes / s.params.wordBytes || s.eng.cap.burstCnt + 1 == s.params.burstWords

/-- Hand one write to the transport, with its `last` mark (R146). -/
def handWrite (w : PendingWrite) (s : State) : State :=
  s.withPort .cap { s.port.cap with pending := s.port.cap.pending ++ [w] }

/-- The frame a capture step packs: the popped one, else any frame at all (R146, U21). -/
def capturedFrame (s : State) : Frame := (popFrame .cap s).1.getD (drawFrame s)

/-- One word of a capture burst (R146). Where the word lies past 2^64 and the geometry is refused too, the refusal is named first
(DESIGN CHOICE, log 10). -/
def moveCapture (desc : Desc) (s : State) : Result :=
  if s.bus.cap.wrReady then
    match transportGeometry s with
    | .error r => .refused r
    | .ok g =>
      let a := wordAddress s.params desc s.eng.cap.burstCnt
      if inSpace a s.params.wordBytes then
        .next (writeSig .cap false (countWord .cap (captureDone s)
          (handWrite ⟨a, s.params.wordBytes, pack g (capturedFrame s), captureDone s⟩ (popFrame .cap s).2)))
      else .fault .outsideAddressSpace
  else waitStep .cap s

/-- The step in `MoveData` (R146). -/
def moveStep (d : Dir) (desc : Desc) (s : State) : Result :=
  match d with
  | .pb => movePlayback desc s
  | .cap => moveCapture desc s

/-! ## UpdateDescriptor (R147) -/

/-- The part of R147 that the three kinds share: the burst's writes are in memory (R71), the slot is complete, nothing is
active, the latch is empty, the flags word is written back. None where a write lies outside the address space. -/
def retire (d : Dir) (desc : Desc) (s : State) : Option State :=
  match performAll s.mem (s.port.get d).pending with
  | none => none
  | some m =>
    let s := (s.withMem m).withPort d { s.port.get d with rdAhead := [], pending := [] }
    let s := setActive d 0 (markComplete d ((s.eng.get d).burstCnt * s.params.wordBytes) s)
    writeBackFlags d desc.flags (s.withEng d { s.eng.get d with curValid := false })

/-- Leave `UpdateDescriptor` (R147): the shared part, then the cursor, the state and the signal. -/
def finish (d : Dir) (desc : Desc) (index : Nat) (st : EngState) (s : State) : Result :=
  match retire d desc s with
  | none => .fault .outsideAddressSpace
  | some s' => .next (writeSig d desc.interrupt (setState d st (setIndex d index s')))

/-! ## One step of the engine with a descriptor in its hands -/

/-- The step that engine `turn` takes in this tick with descriptor `desc` (R140): chosen by `st`, and in `UpdateDescriptor` the
kind's own `update`. In `Idle`, in `Complete` and on a complete slot the descriptor takes no part. -/
def activation (desc : Desc) (update : Dir → Desc → State → Result) (s : State) : Result :=
  match (s.eng.get s.turn).st with
  | .idle => idleStep s.turn s
  | .fetchDescriptor =>
    if currentComplete s s.turn then alreadyCompleteStep s.turn s
    else if (s.eng.get s.turn).curValid then requestStep s.turn desc s
    else latchStep s.turn desc s
  | .moveData => moveStep s.turn desc s
  | .updateDescriptor => update s.turn desc s
  | .complete => completeStep s.turn s

end Sys2Proof.Machine
end

