-- ==== Sys2Proof/Machine/Xfer.lean ====
section
/-! DEFINITION. Machine/Xfer.lean: the meaning of each descriptor kind (R152 to R154): the shared activation, and the kind's own
`UpdateDescriptor` step (R147). -/

namespace Sys2Proof.Machine

/-- `UpdateDescriptor` of `XFER` (R147, R152): `advance()` to the slot that `nextAddress` names, back to `Idle`. A
`nextAddress` that names none was refused at the latch (R121 (f)); `nextIndex` is not defined for it (R97). -/
def updateXfer (d : Dir) (desc : Desc) (s : State) : Result :=
  match advanceTo s d desc with
  | none => .refused .invalidRing
  | some k => finish d desc k .idle s

/-- `UpdateDescriptor` of `XFER.W` (R147, R153): to slot 0, back to `Idle`; `nextAddress` is not read. -/
def updateXferW (d : Dir) (desc : Desc) (s : State) : Result := finish d desc 0 .idle s

/-- `UpdateDescriptor` of `XFER.L` (R147, R154): to slot 0 and `Complete`; `nextAddress` and `wrap` are not read. -/
def updateXferL (d : Dir) (desc : Desc) (s : State) : Result := finish d desc 0 .complete s

/-- `XFER` (R152). -/
def execXfer (bufferAddress : BitVec 64) (length : BitVec 32) (interrupt : Bool) (reserved : BitVec 28) (hwOwned : Bool)
    (nextAddress : BitVec 64) (s : State) : Result :=
  activation ⟨bufferAddress, length, flagsOf interrupt false false reserved hwOwned, nextAddress⟩ updateXfer s

/-- `XFER.W` (R153). -/
def execXferW (bufferAddress : BitVec 64) (length : BitVec 32) (interrupt : Bool) (reserved : BitVec 28) (hwOwned : Bool)
    (nextAddress : BitVec 64) (s : State) : Result :=
  activation ⟨bufferAddress, length, flagsOf interrupt false true reserved hwOwned, nextAddress⟩ updateXferW s

/-- `XFER.L` (R154). -/
def execXferL (bufferAddress : BitVec 64) (length : BitVec 32) (interrupt : Bool) (wrap : Bool) (reserved : BitVec 28)
    (hwOwned : Bool) (nextAddress : BitVec 64) (s : State) : Result :=
  activation ⟨bufferAddress, length, flagsOf interrupt true wrap reserved hwOwned, nextAddress⟩ updateXferL s

end Sys2Proof.Machine
end

