-- ==== Sys2Proof/Machine/Dispatch.lean ====
section
/-! DEFINITION. Machine/Dispatch.lean: `exec`, one arm per descriptor kind. -/

namespace Sys2Proof.Machine

def exec (i : Instr) (s : State) : Host.Outcome State Fault Refusal :=
  match i with
  | .xfer buf len irq rsv own nxt => Sys2Proof.Machine.execXfer buf len irq rsv own nxt s
  | .xferW buf len irq rsv own nxt => Sys2Proof.Machine.execXferW buf len irq rsv own nxt s
  | .xferL buf len irq wrap rsv own nxt => Sys2Proof.Machine.execXferL buf len irq wrap rsv own nxt s

end Sys2Proof.Machine
end

