-- ==== Sys2Proof/Machine/Status.lean ====
section
/-! DEFINITION. Machine/Status.lean: the outputs of the core that the host reads (R38, R276). -/

namespace Sys2Proof.Machine

/-- The status outputs (R38) and the current index (R276). -/
def statusOf (s : State) : Status where
  locked := s.status.locked.out != 0
  rate := s.status.rate.out
  underrun := s.status.underrun.out != 0
  overrun := s.status.overrun.out != 0
  dmaError := s.eng.pb.dmaErr || s.eng.cap.dmaErr
  activeCount := ⟨s.ring.pb.activeCount, s.ring.cap.activeCount⟩
  bytesProcessed := ⟨s.ring.pb.bytesProcessed, s.ring.cap.bytesProcessed⟩
  level := ⟨level s .pb, level s .cap⟩
  currentIndex := ⟨s.ring.pb.currentIndex, s.ring.cap.currentIndex⟩
  completeSig := ⟨s.eng.pb.completeSig, s.eng.cap.completeSig⟩

end Sys2Proof.Machine
end

