-- ==== Sys2Proof/Machine/HostMoves.lean ====
section
/-! DEFINITION. Machine/HostMoves.lean: the host commands (R270 to R276) and the accesses that the transport performs between
ticks (R65, R66, R71). -/

namespace Sys2Proof.Machine

/-! ## The host -/

/-- `ENABLE d` and `DISABLE d` (R271, R272): the level of one input; nothing else changes. -/
def setEnable (d : Dir) (v : Bool) (s : State) : State := s.withHost { s.host with enable := s.host.enable.set d v }

/-- One half of `SOFT_RESET` (R273). -/
def setSoftReset (v : Bool) (s : State) : State := s.withHost { s.host with softReset := v }

/-- The hardware-reset input (R340). -/
def setHwReset (v : Bool) (s : State) : State := s.withHost { s.host with hwReset := v }

/-- `RING_SETUP d` (R274), refused where it moves a ring in flight (R356). -/
def ringSetup (d : Dir) (base : BitVec 64) (count : Nat) (s : State) : Result :=
  let r := s.host.ring.get d
  if betweenFetchAndUpdate s d && (r.base != base || r.descCount != count) then .refused .ringMovedInFlight
  else .next (s.withHost { s.host with ring := s.host.ring.set d { r with base := base, descCount := count } })

/-- The other inputs of the ring group (R37, R39). -/
def setRingInputs (d : Dir) (bufferSize : Nat) (interruptEnable : Bool) (threshold : Nat) (s : State) : State :=
  s.withHost { s.host with ring := s.host.ring.set d { s.host.ring.get d with
    bufferSize := bufferSize, interruptEnable := interruptEnable, threshold := threshold } }

/-- `FORMAT_WRITE` (R275): the inputs change, each cut to its width (R35); nothing is reset (R344). -/
def writeFormat (f : FormatRegs) (s : State) : State :=
  s.withHost { s.host with cfg := { f with
    family := f.family % 2 ^ s.params.familyW
    mult := f.mult % 2 ^ s.params.multW } }

/-- The host writes host memory (R270). -/
def hostWrite (addr : Nat) (bytes : List Byte) (s : State) : Result :=
  if inSpace addr bytes.length then .next (s.withMem (setBytes s.mem addr bytes)) else .fault .outsideAddressSpace

/-- `STATUS_READ` (R276): no effect on the core. -/
def readStatus (s : State) : State := { s with hostView := some (statusOf s) }

/-! ## The transport between ticks -/

/-- The offset and size of a field in a record (R90). -/
def fieldSpan : DescField → Nat × Nat
  | .bufferAddress => (0, 8)
  | .length => (8, 4)
  | .flags => (12, 4)
  | .nextAddress => (16, 8)

/-- What the transport has read of a field. -/
def FieldsRead.get (r : FieldsRead) : DescField → Option (List Byte)
  | .bufferAddress => r.bufferAddress
  | .length => r.length
  | .flags => r.flags
  | .nextAddress => r.nextAddress

/-- The transport has read `bs` of field `f`. -/
def FieldsRead.put (r : FieldsRead) (f : DescField) (bs : List Byte) : FieldsRead :=
  match f with
  | .bufferAddress => { r with bufferAddress := some bs }
  | .length => { r with length := some bs }
  | .flags => { r with flags := some bs }
  | .nextAddress => { r with nextAddress := some bs }

/-- The standing descriptor read of R144: the engine waits for the record of its current slot. -/
def awaitsRecord (s : State) (d : Dir) : Bool :=
  (s.eng.get d).st == .fetchDescriptor && !currentComplete s d && !(s.eng.get d).curValid

/-- The bytes of field `f` of the current slot as memory holds them. -/
def fieldNow (s : State) (d : Dir) (f : DescField) : List Byte :=
  loadBytes s.mem (fetchAddress s d + (fieldSpan f).1) (fieldSpan f).2

/-- The transport reads one field of an awaited record, once (R65). -/
def readField (d : Dir) (f : DescField) (s : State) : State :=
  let p := s.port.get d
  if awaitsRecord s d && (p.fields.get f).isNone && inSpace (fetchAddress s d) recSize then
    s.withPort d { p with fields := p.fields.put f (fieldNow s d f) }
  else s

/-- The transport reads the next word of the playback burst before the engine consumes it (R66, R71). -/
def readAhead (s : State) : State :=
  let e := s.eng.pb
  let k := e.burstCnt + s.port.pb.rdAhead.length
  if e.st == .moveData && decide (k < e.reqBytes / s.params.wordBytes) then
    match memRead s.mem (wordAddress s.params e.cur k) s.params.wordBytes with
    | some w => s.withPort .pb { s.port.pb with rdAhead := s.port.pb.rdAhead ++ [w] }
    | none => s
  else s

/-- The transport performs the oldest write it holds for engine `d` (R66, R71). -/
def performWrite (d : Dir) (s : State) : Result :=
  match (s.port.get d).pending with
  | [] => .next s
  | w :: rest =>
    match memWrite s.mem w.addr w.size w.value with
    | some m => .next ((s.withMem m).withPort d { s.port.get d with pending := rest })
    | none => .fault .outsideAddressSpace

end Sys2Proof.Machine
end

