-- ==== Sys2Proof/Machine/Reset.lean ====
section
/-! DEFINITION. Machine/Reset.lean: the reset step (R340, R52) and its refusal in flight (R343). -/

namespace Sys2Proof.Machine

/-- A reset input is 1 (R36, R340). -/
def resetAsserted (s : State) : Bool := s.host.softReset || s.host.hwReset

/-- The content of a buffer's entries after a reset, which nothing fixes (R42, R52). -/
def freeEntries (s : State) (d : Dir) : List Frame :=
  (List.range s.params.capacity).map (fun k =>
    (List.range s.params.maxC).map (fun c => Config.freeStorage s.freeIx d k c % 2 ^ s.params.maxW))

/-- Every state element of the core at its reset value (R52, R340), and no pass under way; the inputs, host memory and the
environment are not touched (R341). Capture writes that the transport has accepted and not performed, which a reset meets only
after a DMA error, are dropped and never performed, with no free bytes in their place: R279 (e) promises nothing of them and R341
does not speak of them (DESIGN CHOICE, log 31). -/
def resetCore (s : State) : State :=
  { s with
    ring := ⟨ringReset s.params, ringReset s.params⟩
    eng := ⟨engReset (Config.freeDesc s.freeIx .pb), engReset (Config.freeDesc s.freeIx .cap)⟩
    port := ⟨portReset, portReset⟩
    fifo := ⟨fifoReset s.params (freeEntries s .pb), fifoReset s.params (freeEntries s .cap)⟩
    control := controlReset s.params
    status := statusReset s.params
    afp := afpReset s.params
    used := ⟨[], []⟩ }

/-- The reset taken instead of a tick of either domain (R340, R343). -/
def resetStep (s : State) : Result :=
  if requestOutstanding s .pb || requestOutstanding s .cap then .refused .resetInFlight else .next (resetCore s).drawn

end Sys2Proof.Machine
end

