-- ==== Sys2Proof/Machine/Tick.lean ====
section
/-! DEFINITION. Machine/Tick.lean: the fetch of a record, the transport tick (R284), and the move of the step relation (R283). -/

namespace Sys2Proof.Machine

/-! ## The descriptor in an engine's hands -/

/-- Field `f` of the delivered record: as it was read (R65), else as memory holds it now. -/
def deliveredField (s : State) (d : Dir) (f : DescField) : List Byte :=
  ((s.port.get d).fields.get f).getD (fieldNow s d f)

/-- The 24 bytes that the transport delivers (R144, R279 (a)); none where memory's content is asked for and the slot is not in the
address space. -/
def deliveredBytes (s : State) (d : Dir) (src : Source (BitVec 192)) : Option (List Byte) :=
  match src with
  | .value rec => some (bytesOfRec rec)
  | .memory =>
    if inSpace (fetchAddress s d) recSize then
      some (deliveredField s d .bufferAddress ++ deliveredField s d .length ++ deliveredField s d .flags
        ++ deliveredField s d .nextAddress)
    else none

/-- What engine `d` has in its hands for this tick. -/
inductive InHand where
  /-- Nothing: it rests, its slot is complete, or it waits for a record. -/
  | nothing
  /-- A record that gives no descriptor. -/
  | bad (r : Refusal)
  /-- A descriptor: delivered in this tick, or in the latch. -/
  | instr (i : Instr)
deriving DecidableEq, Repr, Inhabited

/-- The descriptor that a delivered record is. A slot past 2^64 gives no bytes, and is refused as an invalid ring (R68) before
alignment is looked at: where its base is misaligned too (R64), R64 and R121 do not say which refusal is named (DESIGN CHOICE,
log 10). -/
def decodeDelivered (bytes : Option (List Byte)) : InHand :=
  match bytes with
  | none => .bad .invalidRing
  | some bs =>
    match decode bs with
    | .ok (i, _) => .instr i
    | .error _ => .bad .undecodable

/-- The descriptor in engine `d`'s hands (R143 to R147). -/
def inHand (s : State) (d : Dir) : InHand :=
  match (s.eng.get d).st with
  | .idle => .nothing
  | .complete => .nothing
  | .fetchDescriptor =>
    if currentComplete s d then .nothing
    else if (s.eng.get d).curValid then .instr (instrOfDesc (s.eng.get d).cur)
    else
      match (s.bus.get d).descData with
      | none => .nothing
      | some src => decodeDelivered (deliveredBytes s d src)
  | .moveData => .instr (instrOfDesc (s.eng.get d).cur)
  | .updateDescriptor => .instr (instrOfDesc (s.eng.get d).cur)

/-- The step of engine `d` with nothing in its hands (R142, R143, R148, R155). -/
def restStep (d : Dir) (s : State) : Result :=
  match (s.eng.get d).st with
  | .idle => idleStep d s
  | .complete => completeStep d s
  | _ => if currentComplete s d then alreadyCompleteStep d s else waitStep d s

/-! ## The engine's step -/

/-- The step of R140: the descriptor in hand is executed. -/
def engineStep (d : Dir) (s : State) : Result :=
  match inHand s d with
  | .nothing => restStep d s
  | .bad r => .refused r
  | .instr i => exec i (s.withTurn d)

/-- The number of values of a field that is as wide as the number `top` needs, at least one bit (R24, R25, R28). -/
def widthRange (top : Nat) : Nat := 2 ^ (top.log2 + 1)

/-- The registers of an engine about which nothing is known, each any value of its width (R28, R30). -/
def drawnEng (p : Params) (w : EngineDraw) (e : Eng) : Eng :=
  { e with
    st := w.st
    burstCnt := w.burstCnt % widthRange p.burstWords
    cur := w.cur
    curValid := w.curValid
    reqBytes := w.reqBytes % 2 ^ 32 }

/-- The ring of such an engine, each field any value of its width (R23 to R26): `currentIndex` may name a slot that the ring does
not have, and `activeCount` exceed the number of slots. -/
def drawnRing (p : Params) (w : EngineDraw) : Ring where
  complete := (List.range p.ringMax).map (fun i => w.complete.getD i false)
  currentIndex := w.currentIndex % widthRange (p.ringMax - 1)
  activeCount := w.activeCount % widthRange p.ringMax
  bytesProcessed := w.bytesProcessed % 2 ^ p.bytesW

/-- The buffer access of such an engine: it pushes or pops, through its buffer's own rules, or it does not. -/
def drawnAccess (d : Dir) (w : EngineDraw) (s : State) : State :=
  if w.access then
    match d with
    | .pb => pushFrame .pb ((List.range s.params.maxC).map (fun c => w.frame.getD c 0 % 2 ^ s.params.maxW)) s
    | .cap => (popFrame .cap s).2
  else s

/-- The step of an engine that a DMA error was signalled to (R306): unspecified, so all that the engine writes is free; the
sticky bit stays (R32), and what the engine does not write is as it was. The port is emptied: the free bytes of this tick stand
for its accesses up to here, and none stand for accesses that the transport performs later (DESIGN CHOICE, log 31). -/
def unspecifiedStep (d : Dir) (s : State) : State :=
  let w := Config.afterDmaError s.freeIx d
  let s := drawnAccess d w s
  let s := s.withEng d (drawnEng s.params w (s.eng.get d))
  let s := (s.withRing d (drawnRing s.params w)).withPort d portReset
  writeSig d w.completeSig (s.withMem (setCells s.mem w.stores))

/-- Engine `d` in a transport tick: its step, and the DMA-error latch (R284, R306). -/
def engineTick (d : Dir) (s : State) : Result :=
  if (s.eng.get d).dmaErr then .next (unspecifiedStep d s)
  else mapNext (engineStep d s) (latchDmaError d)

/-! ## The transport tick -/

/-- One transport tick (R284): both engines, then the domain's cells. The parts write disjoint state and read none of each
other's but for the check of R357, so their order shows in a refusal alone (log 18). Where the steps of both engines are refused
in one tick the spec does not say which refusal is named: the model names the playback engine's (DESIGN CHOICE, log 10). -/
def transportStep (pb cap : PortIn) (s : State) : Result :=
  mapNext (andThen (engineTick .pb (s.withBus ⟨pb, cap⟩)) (engineTick .cap)) (fun s => (stepTransportCells s).drawn)

/-! ## The step relation (R283) -/

/-- A tick, or the reset in its place (R284, R340). All that comes with a tick goes with it: the levels `lockedIn` and `rateIn` of
an audio tick that a reset replaces are dropped, and `line` keeps the levels of the last audio tick that was no reset, which the
next transport tick captures (R41). The spec does not say so (DESIGN CHOICE, log 21). -/
def tickOrReset (tick : State → Result) (s : State) : Result := if resetAsserted s then resetStep s else tick s

/-- One move of the step relation. -/
def applyEvent (e : Event) (s : State) : Result :=
  match e with
  | .transportTick pb cap => tickOrReset (transportStep pb cap) s
  | .audioTick a => tickOrReset (audioStep a) s
  | .enable d => .next (setEnable d true s)
  | .disable d => .next (setEnable d false s)
  | .softReset v => .next (setSoftReset v s)
  | .hwReset v => .next (setHwReset v s)
  | .ringSetup d base count => ringSetup d base count s
  | .ringInputs d size irq thr => .next (setRingInputs d size irq thr s)
  | .formatWrite f => .next (writeFormat f s)
  | .writeMemory addr bytes => hostWrite addr bytes s
  | .statusRead => .next (readStatus s)
  | .readField d f => .next (readField d f s)
  | .readAhead => .next (readAhead s)
  | .performWrite d => performWrite d s

/-- The next move: the head of the moves written out, else the environment's (log 2). -/
def nextEvent (s : State) : Event :=
  match s.inputs with
  | e :: _ => e
  | [] => Config.environment s.envIx

/-- The state once that move is taken from the environment. -/
def takeEvent (s : State) : State :=
  match s.inputs with
  | _ :: rest => { s with inputs := rest }
  | [] => { s with envIx := s.envIx + 1 }

/-! ## Placing an instruction where the next step fetches it -/

/-- The playback engine waits in `FetchDescriptor` for the record of its current slot, which memory holds; the next move is a
transport tick that presents it (log 17). -/
def placeRecord (bytes : List Byte) (s : State) : State :=
  let r := s.ring.pb
  let h := s.host
  { s with
    mem := setBytes s.mem (fetchAddress s .pb) bytes
    host := { h with
      softReset := false
      hwReset := false
      ring := { h.ring with pb := { h.ring.pb with descCount := max h.ring.pb.descCount (r.currentIndex + 1) } } }
    ring := { s.ring with pb := { r with complete := r.complete.set r.currentIndex false } }
    eng := { s.eng with pb := { s.eng.pb with st := .fetchDescriptor, curValid := false, dmaErr := false } }
    port := { s.port with pb := portReset }
    inputs := .transportTick { PortIn.absent with descData := some .memory } PortIn.absent :: s.inputs }

end Sys2Proof.Machine
end

