-- ==== Sys2Proof/Machine/Step.lean ====
section
/-! DEFINITION. Machine/Step.lean: one step of the machine, and the placing of an instruction for the host's checks. -/

namespace Sys2Proof.Machine

/-- One step: one move of the step relation (R283). -/
def step (s : State) : Host.Outcome State Fault Refusal := applyEvent (nextEvent s) (takeEvent s)

/-- `s` with the instruction whose number in spec/opcode_table.json is `w` stored where the next step fetches it (log 16, 17). -/
def State.withFetchWord (s : State) (nbits w : Nat) : State := placeRecord (tableWordBytes nbits w) s

end Sys2Proof.Machine
end

