-- ==== Sys2Proof/Safety.lean ====
section
/-! DEFINITION. Safety.lean: the terms that claims about the machine use: runs of one agent, and what a good state is. -/

namespace Sys2Proof.Machine

/-! ## Runs of one agent -/

/-- A transport that presents in one tick all that engine `d` may wait for, with `last` on the final word of the request, as
its duties say (R279, R280). -/
def eagerPort (s : State) (d : Dir) : PortIn where
  descData := some .memory
  reqAccept := true
  rdWord := some (.memory, (s.eng.get d).burstCnt + 1 == (s.eng.get d).reqBytes / s.params.wordBytes)
  wrReady := true
  dmaErrorIn := false

/-- `n` steps of engine `d` against an eager transport. -/
def runEngine (d : Dir) : Nat → State → Result
  | 0, s => .next s
  | n + 1, s => andThen (engineTick d (s.withBus (s.bus.set d (eagerPort s d)))) (runEngine d n)

/-- `n` bit events of the processor (R227). -/
def runBits (inp : LineIn) : Nat → State → Result
  | 0, s => .next s
  | n + 1, s => andThen (bitEvent inp s) (runBits inp n)

/-- The bit events of one frame (R225). -/
def frameBits (f : Format) (g : Geom) : Nat :=
  match f with
  | .dsd => g.width
  | _ => g.channels * g.width

/-- The words of a playback burst of `n` words as memory holds them (R146). -/
def burstFrames (s : State) (desc : Desc) (g : Geom) (n : Nat) : List Frame :=
  (List.range n).map (fun k => slice s.params g (natOfBytes (loadBytes s.mem (wordAddress s.params desc k) s.params.wordBytes)))

/-- A buffer after pushes of the frames, in order. -/
def pushAll (p : Params) (f : Fifo) (frames : List Frame) : Fifo := frames.foldl (fun f fr => f.pushed p fr) f

/-- A buffer after `n` pops. -/
def popMany (p : Params) : Nat → Fifo → Fifo
  | 0, f => f
  | n + 1, f => popMany p n (f.popped p)

/-- Host memory after the next `n` frames of a buffer are packed and written at `a`, one transport word each (R152). -/
def writeFrames (p : Params) (g : Geom) : (n a : Nat) → Fifo → Memory → Memory
  | 0, _, _, m => m
  | n + 1, a, f, m =>
    writeFrames p g n (a + p.wordBytes) (f.popped p) (setBytes m a (bytesOfNat p.wordBytes (pack g (f.front p))))

/-- The transport words of a descriptor's burst (R97, R145). -/
def burstLength (p : Params) (desc : Desc) : Nat := burstSize p desc.length / p.wordBytes

/-- A cell after `n` ticks of its destination under a source that holds `v` (R202). -/
def Sync.held (v : Nat) : Nat → Sync → Sync
  | 0, c => c
  | n + 1, c => Sync.held v n (c.stepWhole v)

/-- Cell `c'` is cell `c` after one tick of its destination under source `src`: the first stage captured it, for some free mask
(R201, R205). -/
def Captures (p : Params) (src : Nat) (c c' : Sync) : Prop :=
  ∃ mask, c' = ⟨captured p.glitch c.prev src mask :: c.stages.dropLast, src⟩

/-! ## Good states -/

/-- The index synchronizers of a buffer carry earlier values of the indices: seen from the push index, the pop indices lie ever
further back and never further than the capacity; seen from the pop index, the push indices lie ever less far ahead. This is
what makes both views conservative (R189). -/
structure BufferInv (p : Params) (f : Fifo) : Prop where
  wr_lt : f.wr < indexModulus p
  rd_lt : f.rd < indexModulus p
  entries : f.mem.length = p.capacity
  rd_stages : f.rdSync.stages.length = p.syncStages
  wr_stages : f.wrSync.stages.length = p.syncStages
  rd_range : ∀ r ∈ f.rdSync.stages, r < indexModulus p
  wr_range : ∀ w ∈ f.wrSync.stages, w < indexModulus p
  rd_older : (f.rd :: f.rdSync.stages).Pairwise (fun a b => modSub (indexModulus p) f.wr a ≤ modSub (indexModulus p) f.wr b)
  rd_bound : ∀ r ∈ f.rd :: f.rdSync.stages, modSub (indexModulus p) f.wr r ≤ p.capacity
  wr_older : (f.wr :: f.wrSync.stages).Pairwise (fun a b => modSub (indexModulus p) b f.rd ≤ modSub (indexModulus p) a f.rd)

/-- Both buffers are good, under parameters that meet R8. -/
def BuffersInv (s : State) : Prop := s.params.ok = true ∧ BufferInv s.params s.fifo.pb ∧ BufferInv s.params s.fifo.cap

/-- The control part of an engine that no DMA error was signalled to: the latch holds a record exactly from the latch to the
completion, the slot in hand is not complete (R123, R125), `activeCount` is 1 exactly while a burst is in hand (R25), the burst
counter is in its range (R28), and the ring in hand keeps its size (R356). -/
structure ControlInv (s : State) (d : Dir) : Prop where
  slots : (s.ring.get d).complete.length = s.params.ringMax
  index : (s.ring.get d).currentIndex < s.params.ringMax
  inHand : (s.eng.get d).st = .moveData ∨ (s.eng.get d).st = .updateDescriptor → (s.eng.get d).curValid = true
  atRest : (s.eng.get d).st = .idle ∨ (s.eng.get d).st = .complete → (s.eng.get d).curValid = false
  fresh : (s.eng.get d).curValid = true → currentComplete s d = false
  sized : (s.eng.get d).curValid = true → ringCount s d ≤ s.params.ringMax
  active : (s.ring.get d).activeCount = if (s.eng.get d).st = .moveData ∨ (s.eng.get d).st = .updateDescriptor then 1 else 0
  moving : (s.eng.get d).st = .moveData → (s.eng.get d).burstCnt < s.params.burstWords
  moved : (s.eng.get d).burstCnt ≤ s.params.burstWords

/-- Every engine that no DMA error was signalled to is good, under parameters that meet R8. -/
def EnginesInv (s : State) : Prop := s.params.ok = true ∧ ∀ d, (s.eng.get d).dmaErr = false → ControlInv s d

/-- The room a burst still needs, as its engine sees it (R141). -/
def roomSeen (s : State) : Dir → Nat
  | .pb => freeSeen s.params s.fifo.pb
  | .cap => filledSeen s.params s.fifo.cap

/-- The count of the engine's own failed accesses (R190). -/
def ownFailures (s : State) : Dir → Nat
  | .pb => s.fifo.pb.overrunCnt
  | .cap => s.fifo.cap.underrunCnt

/-- An engine's burst fits what it sees of its buffer until the burst ends, and none of its accesses has failed (R189, R190). -/
structure ReserveInv (s : State) (d : Dir) : Prop where
  fetching : (s.eng.get d).st = .fetchDescriptor → s.params.burstWords ≤ roomSeen s d
  moving : (s.eng.get d).st = .moveData →
    (s.eng.get d).burstCnt < s.params.burstWords ∧ s.params.burstWords ≤ roomSeen s d + (s.eng.get d).burstCnt
  failures : ownFailures s d = 0

/-- The buffers are good and every engine without a DMA error keeps its reserve. -/
def ReservesInv (s : State) : Prop := BuffersInv s ∧ ∀ d, (s.eng.get d).dmaErr = false → ReserveInv s d

/-- The counters of the processor are in the ranges of R47 for the active configuration, which is in master mode (R242). -/
structure CountersInv (s : State) : Prop where
  params : s.params.ok = true
  divider : s.afp.divCnt < activeDivider s.params s.afp.act
  bits : s.afp.bitCnt < (activeGeometry s.params s.afp.act).width
  channels : s.afp.chCnt < (activeGeometry s.params s.afp.act).channels
  dsd : s.afp.act.format = .dsd → s.afp.chCnt = 0
  master : s.afp.act.master = true

/-- The numbers that wrap are inside their widths (R26, R43), and the frames inside theirs (R45, R48, R49). -/
structure WidthsInv (s : State) : Prop where
  bytes : ∀ d, (s.ring.get d).bytesProcessed < 2 ^ s.params.bytesW
  overruns : ∀ d, (s.fifo.get d).overrunCnt < 2 ^ s.params.cntW
  underruns : ∀ d, (s.fifo.get d).underrunCnt < 2 ^ s.params.cntW
  lines : s.afp.sdOut.length = s.params.maxC
  shifts : s.afp.rxShift.length = s.params.maxC

/-! ## The effect of an `UpdateDescriptor` step (R147) -/

/-- The flags word that the engine writes back for a descriptor with flags `f`, and where, over memory `m` (R150). -/
def writtenBack (s : State) (d : Dir) (f : BitVec 32) (m : Memory) : Memory :=
  match s.params.writeBack with
  | .none => m
  | .clearOwn => setBytes m (fetchAddress s d + flagsOffset) (bytesOfNat 4 (f &&& 0x7FFFFFFF#32).toNat)

/-- `t` is `s` after engine `d` completed its slot with flags word `f`, the burst's writes leaving memory `m`: the cursor at
`index`, the engine in `st`, the signal at `sig`; nothing else differs. -/
structure Completed (d : Dir) (f : BitVec 32) (m : Memory) (index : Nat) (st : EngState) (sig : Bool) (s t : State) : Prop where
  ring : t.ring = s.ring.set d
    { complete := (s.ring.get d).complete.set (s.ring.get d).currentIndex true
      currentIndex := index
      activeCount := 0
      bytesProcessed := ((s.ring.get d).bytesProcessed + (s.eng.get d).burstCnt * s.params.wordBytes) % 2 ^ s.params.bytesW }
  eng : t.eng = s.eng.set d { s.eng.get d with
    st := st
    curValid := false
    completeSig := sig
    completeEdges := (s.eng.get d).completeEdges + if sig && !(s.eng.get d).completeSig then 1 else 0 }
  mem : t.mem = writtenBack s d f m
  port : t.port = s.port.set d { s.port.get d with rdAhead := [], pending := [] }
  fifo : t.fifo = s.fifo
  host : t.host = s.host
  control : t.control = s.control
  status : t.status = s.status
  afp : t.afp = s.afp
  line : t.line = s.line
  params : t.params = s.params
  turn : t.turn = s.turn
  bus : t.bus = s.bus
  freeIx : t.freeIx = s.freeIx
  inputs : t.inputs = s.inputs
  envIx : t.envIx = s.envIx
  hostView : t.hostView = s.hostView
  used : t.used = s.used

/-- `t` has every part of `s` that the engine of direction `d` does not own (R20, R284). -/
structure KeepsOthers (d : Dir) (s t : State) : Prop where
  ring : t.ring.get d.other = s.ring.get d.other
  eng : t.eng.get d.other = s.eng.get d.other
  port : t.port.get d.other = s.port.get d.other
  fifo : t.fifo.get d.other = s.fifo.get d.other
  host : t.host = s.host
  control : t.control = s.control
  status : t.status = s.status
  afp : t.afp = s.afp
  line : t.line = s.line
  params : t.params = s.params
  turn : t.turn = s.turn
  bus : t.bus = s.bus
  freeIx : t.freeIx = s.freeIx
  inputs : t.inputs = s.inputs
  envIx : t.envIx = s.envIx
  hostView : t.hostView = s.hostView
  used : t.used.get d.other = s.used.get d.other

/-- An engine writes of its own buffer only what its side owns: the playback engine the push side, the capture engine the pop
side (R42, R284). -/
def KeepsFarSide (d : Dir) (s t : State) : Prop :=
  match d with
  | .pb => t.fifo.pb.rd = s.fifo.pb.rd ∧ t.fifo.pb.rdSync = s.fifo.pb.rdSync ∧ t.fifo.pb.wrSync = s.fifo.pb.wrSync ∧
      t.fifo.pb.underrunCnt = s.fifo.pb.underrunCnt
  | .cap => t.fifo.cap.wr = s.fifo.cap.wr ∧ t.fifo.cap.mem = s.fifo.cap.mem ∧ t.fifo.cap.rdSync = s.fifo.cap.rdSync ∧
      t.fifo.cap.wrSync = s.fifo.cap.wrSync ∧ t.fifo.cap.overrunCnt = s.fifo.cap.overrunCnt

/-- Every stage of a cell holds `v`, and there are SYNC_STAGES of them (R209). -/
def StagesAt (s : State) (v : Nat) (c : Sync) : Prop := c.stages = List.replicate s.params.syncStages v

/-- Every state element of the core has its value of R52; the content of `eng[d].cur` and `fifo[d].mem` is not given by that
rule. -/
structure CoreAtReset (s : State) : Prop where
  ring : ∀ d, s.ring.get d =
    { complete := List.replicate s.params.ringMax false, currentIndex := 0, activeCount := 0, bytesProcessed := 0 }
  eng : ∀ d, (s.eng.get d).st = .idle ∧ (s.eng.get d).burstCnt = 0 ∧ (s.eng.get d).curValid = false ∧
    (s.eng.get d).reqBytes = 0 ∧ (s.eng.get d).completeSig = false ∧ (s.eng.get d).completeEdges = 0 ∧ (s.eng.get d).dmaErr = false
  fifo : ∀ d, (s.fifo.get d).mem.length = s.params.capacity ∧ (s.fifo.get d).wr = 0 ∧ (s.fifo.get d).rd = 0 ∧
    (s.fifo.get d).overrunCnt = 0 ∧ (s.fifo.get d).underrunCnt = 0 ∧
    StagesAt s 0 (s.fifo.get d).rdSync ∧ StagesAt s 0 (s.fifo.get d).wrSync
  control : StagesAt s 0 s.control.format ∧ StagesAt s 0 s.control.family ∧ StagesAt s 0 s.control.mult ∧
    StagesAt s 0 s.control.dsdMode ∧ StagesAt s 1 s.control.master ∧ StagesAt s 0 s.control.pbEn ∧ StagesAt s 0 s.control.capEn
  status : StagesAt s 0 s.status.locked ∧ StagesAt s 0 s.status.rate ∧ StagesAt s 0 s.status.underrun ∧ StagesAt s 0 s.status.overrun
  act : s.afp.act = ⟨.i2s, 0, 0, 0, true⟩
  counters : s.afp.divCnt = 0 ∧ s.afp.bitCnt = 0 ∧ s.afp.chCnt = 0
  frames : s.afp.txFrame = List.replicate s.params.maxC 0 ∧ s.afp.rxShift = List.replicate s.params.maxC 0
  outputs : s.afp.sdOut = List.replicate s.params.maxC false ∧ s.afp.frameSig = false ∧ s.afp.slotNum = 0 ∧ s.afp.bitTick = false
  flags : s.afp.underrunFlag = false ∧ s.afp.overrunFlag = false

/-- The reset takes the place of a tick (R340): a reset input is 1, and the next move, written out or the environment's, is a tick
of either domain. A move between ticks is no reset, whatever the reset inputs are (log 21). -/
def resetTickNext (s : State) : Prop :=
  resetAsserted s = true ∧ ((∃ pb cap, nextEvent s = .transportTick pb cap) ∨ ∃ a, nextEvent s = .audioTick a)

end Sys2Proof.Machine
end

