-- ==== Sys2Proof/Certificates/Slice0/Obligations.lean ====
section
/-! DEFINITION. Certificates/Slice0/Obligations.lean: the statements for the provers. Each is about every parameter record, since
`State.params` holds it. -/

open Sys2Proof Sys2Proof.Machine

/-! ## Encoding -/

/-- R95: the fields lie where the rule puts them, `encode` is the inverse of `decode` both ways, and the decoder gives back
every instruction whatever follows it. -/
def Obligations.DecodeOfEncode : Prop :=
  (∀ (i : Instr) (rest : List Byte), decode (encode i ++ rest) = .ok (i, rest)) ∧
  (∀ d : Desc, descOfRec (recOfDesc d) = d) ∧
  (∀ rec : BitVec 192, recOfDesc (descOfRec rec) = rec ∧
    (descOfRec rec).bufferAddress.toNat = rec.toNat % 2 ^ 64 ∧
    (descOfRec rec).length.toNat = rec.toNat / 2 ^ 64 % 2 ^ 32 ∧
    (descOfRec rec).flags.toNat = rec.toNat / 2 ^ 96 % 2 ^ 32 ∧
    (descOfRec rec).nextAddress.toNat = rec.toNat / 2 ^ 128)

/-- R100, R101: every string of 24 bytes is a descriptor, and encoding it gives the bytes back: no bit is dropped; a shorter
string is no descriptor. -/
def Obligations.EncodeOfDecode : Prop :=
  ∀ bs : List Byte, (bs.length = 24 → ∃ i, decode bs = .ok (i, []) ∧ encode i = bs) ∧
    (bs.length < 24 → decode bs = .error .truncated)

/-- R90, R93, R96: flags bits 1 and 2 of the record select the kind, and every operand comes from its own bits. -/
def Obligations.KindAndOperandsOfRecord : Prop :=
  ∀ rec : BitVec 192, decodeRec rec =
    if rec.getLsbD 97 then
      .xferL (rec.extractLsb' 0 64) (rec.extractLsb' 64 32) (rec.getLsbD 96) (rec.getLsbD 98) (rec.extractLsb' 99 28)
        (rec.getLsbD 127) (rec.extractLsb' 128 64)
    else if rec.getLsbD 98 then
      .xferW (rec.extractLsb' 0 64) (rec.extractLsb' 64 32) (rec.getLsbD 96) (rec.extractLsb' 99 28)
        (rec.getLsbD 127) (rec.extractLsb' 128 64)
    else
      .xfer (rec.extractLsb' 0 64) (rec.extractLsb' 64 32) (rec.getLsbD 96) (rec.extractLsb' 99 28)
        (rec.getLsbD 127) (rec.extractLsb' 128 64)

/-- Three records written out from R90 (vectors V1, V2 and V4 of 95_test_vectors.md, and one of kind XFER.L, V3) decode to what
they stand for. -/
def Obligations.WrittenRecordsDecode : Prop :=
  decode [0x00, 0x00, 0x00, 0x20, 0, 0, 0, 0, 0x00, 0x02, 0, 0, 0, 0, 0, 0, 0x18, 0x00, 0x00, 0x10, 0, 0, 0, 0] =
    .ok (.xfer 0x20000000 512 false 0 false 0x10000018, []) ∧
  decode [0x10, 0x00, 0x00, 0x50, 0, 0, 0, 0, 8, 0, 0, 0, 0x05, 0, 0, 0x80, 0, 0, 0, 0, 0, 0, 0, 0] =
    .ok (.xferW 0x50000010 8 true 0 true 0, []) ∧
  decode [0x00, 0x06, 0x00, 0x20, 0, 0, 0, 0, 0x00, 0x02, 0, 0, 0x03, 0, 0, 0, 0x00, 0x00, 0x00, 0x10, 0, 0, 0, 0] =
    .ok (.xferL 0x20000600 512 true false 0 false 0x10000000, [])

/-! ## Host memory -/

/-- R61: byte `k` of what is read at `a` is the byte at `a + k`, and byte `k` of what is written at `a` lies at `a + k`; every
byte outside the access is as before. -/
def Obligations.HostMemoryLittleEndian : Prop :=
  (∀ (m : Memory) (a n v k : Nat), memRead m a n = some v → k < n → v / 256 ^ k % 256 = (memByte m (a + k)).toNat) ∧
  (∀ (m m' : Memory) (a n v k : Nat), memWf m = true → memWrite m a n v = some m' → k < n →
    (memByte m' (a + k)).toNat = v / 256 ^ k % 256) ∧
  (∀ (m m' : Memory) (a n v x : Nat), memWf m = true → memWrite m a n v = some m' → x < a ∨ a + n ≤ x →
    memByte m' x = memByte m x)

/-- R68, R51: an access is made exactly where it lies in the address space, and a read after a write gives the value written. -/
def Obligations.WriteThenRead : Prop :=
  (∀ (m : Memory) (a n v : Nat), (memWrite m a n v).isSome = true ↔ a + n ≤ 2 ^ 64) ∧
  (∀ (m : Memory) (a n : Nat), (memRead m a n).isSome = true ↔ a + n ≤ 2 ^ 64) ∧
  (∀ (m m' : Memory) (a n v : Nat), memWf m = true → memWrite m a n v = some m' → memRead m' a n = some (v % 256 ^ n))

/-- The model's canonical form of memory (log 4) is kept by every step. -/
def Obligations.MemoryFormKept : Prop :=
  ∀ s t : State, memWf s.mem = true → step s = .next t → memWf t.mem = true

/-- The model's canonical form of memory (log 4) holds right after reset. -/
def Obligations.MemoryFormAtReset : Prop := memWf State.reset.mem = true

/-! ## The steps of an engine -/

/-- R141, R142, R352: in `Idle` the engine goes on exactly where its direction is enabled and its buffer can absorb one full
burst; the launch of a burst size that does not divide the buffer size is refused, in this step (log 28). R357: so is the launch
on a slot that is not complete whose record has an address in a region that the other direction's pass has written or is writing.
That R357 is checked at the launch, which pass counts and from when, and the name where both are broken, are the model's choice
(log 10, log 11). -/
def Obligations.IdleStep : Prop :=
  ∀ (d : Dir) (s : State), (s.eng.get d).st = .idle →
    let room : Prop := match d with
      | .pb => s.params.burstBytes / s.params.wordBytes ≤ s.params.capacity - occP s.params s.fifo.pb
      | .cap => s.params.burstBytes / s.params.wordBytes ≤ occC s.params s.fifo.cap
    let launch : Prop := s.host.enable.get d = true ∧ room
    let overwritten : Prop := currentComplete s d = false ∧ inPlay s d.other = true ∧
      ∃ f ∈ s.used.get d.other, ∃ w ∈ f.writes, ∃ x, (w.base ≤ x ∧ x < w.base + w.size) ∧
        (fetchAddress s d ≤ x ∧ x < fetchAddress s d + 24)
    (launch → (s.host.ring.get d).bufferSize % s.params.burstBytes = 0 → ¬overwritten →
      engineStep d s = .next (s.withEng d { s.eng.get d with st := .fetchDescriptor, completeSig := false })) ∧
    (launch → (s.host.ring.get d).bufferSize % s.params.burstBytes ≠ 0 → engineStep d s = .refused .burstNotDividing) ∧
    (launch → (s.host.ring.get d).bufferSize % s.params.burstBytes = 0 → overwritten →
      engineStep d s = .refused .overlappingRegions) ∧
    (¬launch → engineStep d s = .next (s.withEng d { s.eng.get d with completeSig := false }))

/-- R143: on a slot that is already complete the engine goes to `Complete`, whatever the transport presents, and touches
neither memory nor the ring. -/
def Obligations.CompleteSlotEndsPass : Prop :=
  ∀ (d : Dir) (s : State), (s.eng.get d).st = .fetchDescriptor →
    (s.ring.get d).complete.getD (s.ring.get d).currentIndex false = true →
    engineStep d s = .next (s.withEng d { s.eng.get d with st := .complete, completeSig := false })

/-- R144: the latch of a record that nothing forbids (log 10, log 11), for each of the three kinds; the regions of its activation
count as used by the pass from here on, which is the model's own bookkeeping (log 11). -/
def Obligations.RecordIsLatched : Prop :=
  ∀ (i : Instr) (s : State), (s.eng.get s.turn).st = .fetchDescriptor → currentComplete s s.turn = false →
    (s.eng.get s.turn).curValid = false → latchRefusal s s.turn i.desc = none →
    exec i s = .next (((s.withEng s.turn { s.eng.get s.turn with cur := i.desc, curValid := true, completeSig := false }).withPort
      s.turn { s.port.get s.turn with fields := ⟨none, none, none, none⟩ }).withUsed
      s.turn (s.used.get s.turn ++ [footprint s s.turn (s.ring.get s.turn).currentIndex i.desc]))

/-- R64, R67, R121, R357: the latch refuses by name, in the model's order (log 10), a record that breaks alignment, one that
breaks another clause of ring validity, one whose ring or burst has an address in a device region (log 12), and one that
overlaps (log 11); it takes every other. Of the overlaps: a capture burst over its own record is one; a burst over the burst that
the other engine has in hand is one; a burst over a region that an activation latched earlier wrote or will write, in its own pass
or in the other direction's pass in play, is one; the first playback burst of a pass, beside a capture engine that is at rest, in
`Complete` (R286) or after a DMA error, has none. Which pass counts and from when, and that an engine after a DMA error does not
count, are the model's choice (log 11). -/
def Obligations.InvalidRecordRefused : Prop :=
  (∀ (s : State) (desc : Desc) (x : Nat), desc.bufferAddress.toNat ≤ x →
    x < desc.bufferAddress.toNat + min s.params.burstBytes desc.length.toNat → fetchAddress s .cap ≤ x →
    x < fetchAddress s .cap + 24 → overlaps s .cap desc = true) ∧
  (∀ (s : State) (d : Dir) (desc : Desc) (x : Nat), let e := s.eng.get d.other
    e.dmaErr = false → e.st = .moveData → e.curValid = true → currentComplete s d.other = false → 1 ≤ ringCount s d.other → 1 ≤ s.params.ringMax →
    desc.bufferAddress.toNat ≤ x → x < desc.bufferAddress.toNat + min s.params.burstBytes desc.length.toNat →
    e.cur.bufferAddress.toNat ≤ x → x < e.cur.bufferAddress.toNat + min s.params.burstBytes e.cur.length.toNat →
    overlaps s d desc = true) ∧
  (∀ (s : State) (d : Dir) (desc : Desc) (f : Footprint) (w : Region) (x : Nat), let e := s.eng.get d.other
    f ∈ s.used.get d ∨ (f ∈ s.used.get d.other ∧ e.dmaErr = false ∧ e.st ≠ .complete ∧
      (e.st = .idle → s.host.enable.get d.other = true)) →
    w ∈ f.writes → w.base ≤ x → x < w.base + w.size → desc.bufferAddress.toNat ≤ x →
    x < desc.bufferAddress.toNat + min s.params.burstBytes desc.length.toNat → overlaps s d desc = true) ∧
  (∀ (s : State) (desc : Desc), s.params.writeBack = .none → s.used.pb = [] →
    s.eng.cap.st = .complete ∨ (s.eng.cap.st = .idle ∧ s.host.enable.cap = false) ∨ s.eng.cap.dmaErr = true →
    overlaps s .pb desc = false) ∧
  ∀ (i : Instr) (s : State), (s.eng.get s.turn).st = .fetchDescriptor → currentComplete s s.turn = false →
    (s.eng.get s.turn).curValid = false →
    let p := s.params
    let base := (s.host.ring.get s.turn).base.toNat
    let n := (s.host.ring.get s.turn).descCount
    let buf := i.desc.bufferAddress.toNat
    let len := i.desc.length.toNat
    let aligned : Prop := base % 8 = 0 ∧ buf % p.wordBytes = 0 ∧ p.wordBytes ≤ len ∧ len % p.wordBytes = 0
    let ranges : Prop := (1 ≤ n ∧ n ≤ p.ringMax) ∧ base + n * 24 ≤ 2 ^ 64 ∧ buf + min p.burstBytes len ≤ 2 ^ 64 ∧
      (i.desc.lastInChain = false ∧ i.desc.wrap = false → ∃ k, k < n ∧ i.desc.nextAddress.toNat = base + k * 24)
    let device : Prop := ∃ r ∈ p.deviceRegions, ∃ x, (r.base ≤ x ∧ x < r.base + r.size) ∧
      ((base ≤ x ∧ x < base + n * 24) ∨ (buf ≤ x ∧ x < buf + min p.burstBytes len))
    (¬aligned → exec i s = .refused .misaligned) ∧
    (aligned → ¬ranges → exec i s = .refused .invalidRing) ∧
    (aligned → ranges → device → exec i s = .refused .nonMemoryRegion) ∧
    (aligned → ranges → ¬device → overlaps s s.turn i.desc = true → exec i s = .refused .overlappingRegions) ∧
    (aligned → ranges → ¬device → overlaps s s.turn i.desc = false → ∃ t, exec i s = .next t)

/-- R145: the accepted burst request, for each of the three kinds. -/
def Obligations.RequestStartsBurst : Prop :=
  ∀ (i : Instr) (s : State), (s.eng.get s.turn).st = .fetchDescriptor → currentComplete s s.turn = false →
    (s.eng.get s.turn).curValid = true → (s.bus.get s.turn).reqAccept = true →
    exec i s = .next ((s.withEng s.turn { s.eng.get s.turn with
        reqBytes := min s.params.burstBytes i.desc.length.toNat, burstCnt := 0, st := .moveData, completeSig := false }).withRing
      s.turn { s.ring.get s.turn with activeCount := 1 })

/-- R146, playback: a word that the transport presents from memory is read at `bufferAddress + burstCnt * WORD_BYTES` unless it
was read ahead (R66, log 8), sliced and pushed; the burst ends on `last` or at the configured burst length. -/
def Obligations.PlaybackWordMoved : Prop :=
  ∀ (i : Instr) (s : State) (last : Bool) (g : Geom), s.turn = .pb → s.eng.pb.st = .moveData →
    s.bus.pb.rdWord = some (.memory, last) → transportGeometry s = .ok g →
    occP s.params s.fifo.pb < s.params.capacity →
    i.desc.bufferAddress.toNat + s.eng.pb.burstCnt * s.params.wordBytes + s.params.wordBytes ≤ 2 ^ 64 →
    ∃ w t, exec i s = .next t ∧
      (s.port.pb.rdAhead = [] → memRead s.mem (i.desc.bufferAddress.toNat + s.eng.pb.burstCnt * s.params.wordBytes)
        s.params.wordBytes = some w) ∧
      (∀ v rest, s.port.pb.rdAhead = v :: rest → w = v) ∧
      t.fifo.pb = { s.fifo.pb with
        mem := s.fifo.pb.mem.set (s.fifo.pb.wr % s.params.capacity) (slice s.params g w)
        wr := (s.fifo.pb.wr + 1) % (2 * s.params.capacity) } ∧
      t.eng.pb = { s.eng.pb with
        burstCnt := s.eng.pb.burstCnt + 1
        completeSig := false
        st := if last ∨ s.eng.pb.burstCnt + 1 = s.params.burstBytes / s.params.wordBytes then .updateDescriptor else .moveData } ∧
      t.port.pb = { s.port.pb with rdAhead := s.port.pb.rdAhead.tail } ∧
      t.ring = s.ring ∧ t.mem = s.mem ∧ KeepsOthers .pb s t

/-- R146, capture: a frame is popped, packed, and handed over as one write at `bufferAddress + burstCnt * WORD_BYTES`; the burst
ends by the engine's own count, which marks its last word. Where the write waits until it is performed is the model's choice (log 8). -/
def Obligations.CaptureWordMoved : Prop :=
  ∀ (i : Instr) (s : State) (g : Geom), s.turn = .cap → s.eng.cap.st = .moveData →
    s.bus.cap.wrReady = true → transportGeometry s = .ok g → 0 < occC s.params s.fifo.cap →
    i.desc.bufferAddress.toNat + s.eng.cap.burstCnt * s.params.wordBytes + s.params.wordBytes ≤ 2 ^ 64 →
    ∃ t, exec i s = .next t ∧
      t.port.cap = { s.port.cap with pending := s.port.cap.pending ++
        [⟨i.desc.bufferAddress.toNat + s.eng.cap.burstCnt * s.params.wordBytes, s.params.wordBytes,
          pack g (s.fifo.cap.mem.getD (s.fifo.cap.rd % s.params.capacity) []),
          decide (s.eng.cap.burstCnt + 1 = s.eng.cap.reqBytes / s.params.wordBytes ∨
            s.eng.cap.burstCnt + 1 = s.params.burstBytes / s.params.wordBytes)⟩] } ∧
      t.fifo.cap = { s.fifo.cap with rd := (s.fifo.cap.rd + 1) % (2 * s.params.capacity) } ∧
      t.eng.cap = { s.eng.cap with
        burstCnt := s.eng.cap.burstCnt + 1
        completeSig := false
        st := if s.eng.cap.burstCnt + 1 = s.eng.cap.reqBytes / s.params.wordBytes ∨
            s.eng.cap.burstCnt + 1 = s.params.burstBytes / s.params.wordBytes then .updateDescriptor else .moveData } ∧
      t.ring = s.ring ∧ t.mem = s.mem ∧ KeepsOthers .cap s t

/-- R147, R152: `XFER` completes its slot, moves the cursor to the slot that `nextAddress` names and goes to `Idle`; where
`nextAddress` names no slot the step is refused (R97). The burst's writes are performed by this step at the latest (log 8). -/
def Obligations.XferCompletes : Prop :=
  ∀ (buf : BitVec 64) (len : BitVec 32) (irq : Bool) (rsv : BitVec 28) (own : Bool) (nxt : BitVec 64) (s : State) (m : Memory),
    (s.eng.get s.turn).st = .updateDescriptor → performAll s.mem (s.port.get s.turn).pending = some m →
    fetchAddress s s.turn + 24 ≤ 2 ^ 64 →
    (∀ k, k < ringCount s s.turn → nxt.toNat = ringBase s s.turn + k * 24 →
      ∃ t, exec (.xfer buf len irq rsv own nxt) s = .next t ∧
        Completed s.turn (flagsOf irq false false rsv own) m k .idle irq s t) ∧
    ((∀ k, k < ringCount s s.turn → nxt.toNat ≠ ringBase s s.turn + k * 24) →
      exec (.xfer buf len irq rsv own nxt) s = .refused .invalidRing)

/-- R147, R153: `XFER.W` completes its slot, moves the cursor to slot 0 and goes to `Idle`, whatever `nextAddress` holds. -/
def Obligations.XferWCompletes : Prop :=
  ∀ (buf : BitVec 64) (len : BitVec 32) (irq : Bool) (rsv : BitVec 28) (own : Bool) (nxt : BitVec 64) (s : State) (m : Memory),
    (s.eng.get s.turn).st = .updateDescriptor → performAll s.mem (s.port.get s.turn).pending = some m →
    fetchAddress s s.turn + 24 ≤ 2 ^ 64 →
    ∃ t, exec (.xferW buf len irq rsv own nxt) s = .next t ∧
      Completed s.turn (flagsOf irq false true rsv own) m 0 .idle irq s t

/-- R147, R154: `XFER.L` completes its slot, moves the cursor to slot 0 and goes to `Complete`, whatever `nextAddress` and
`wrap` hold. -/
def Obligations.XferLCompletes : Prop :=
  ∀ (buf : BitVec 64) (len : BitVec 32) (irq wrap : Bool) (rsv : BitVec 28) (own : Bool) (nxt : BitVec 64) (s : State) (m : Memory),
    (s.eng.get s.turn).st = .updateDescriptor → performAll s.mem (s.port.get s.turn).pending = some m →
    fetchAddress s s.turn + 24 ≤ 2 ^ 64 →
    ∃ t, exec (.xferL buf len irq wrap rsv own nxt) s = .next t ∧
      Completed s.turn (flagsOf irq true wrap rsv own) m 0 .complete irq s t

/-- R148: `Complete` holds the signal at 1 and is left only where the direction is not enabled; no ring state is written. What the
pass used goes when `Complete` is left, which is the model's own bookkeeping (log 11). -/
def Obligations.CompleteStateHolds : Prop :=
  ∀ (d : Dir) (s : State), (s.eng.get d).st = .complete →
    engineStep d s = .next ((s.withEng d { s.eng.get d with
      st := if s.host.enable.get d then .complete else .idle
      completeSig := true
      completeEdges := (s.eng.get d).completeEdges + if (s.eng.get d).completeSig then 0 else 1 }).withUsed
      d (if s.host.enable.get d then s.used.get d else []))

/-- R140, R155: where the awaited input is absent the engine stays as it is, but for the signal, which is 0. -/
def Obligations.AbsentInputWaits : Prop :=
  ∀ (d : Dir) (s : State), let quiet := s.withEng d { s.eng.get d with completeSig := false }
    ((s.eng.get d).st = .fetchDescriptor → currentComplete s d = false → (s.eng.get d).curValid = false →
      (s.bus.get d).descData = none → engineStep d s = .next quiet) ∧
    (∀ i : Instr, s.turn = d → (s.eng.get d).st = .fetchDescriptor → currentComplete s d = false →
      (s.eng.get d).curValid = true → (s.bus.get d).reqAccept = false → exec i s = .next quiet) ∧
    (∀ i : Instr, s.turn = d → d = .pb → (s.eng.get d).st = .moveData → (s.bus.get d).rdWord = none →
      exec i s = .next quiet) ∧
    (∀ i : Instr, s.turn = d → d = .cap → (s.eng.get d).st = .moveData → (s.bus.get d).wrReady = false →
      exec i s = .next quiet)

/-- R149: what every transport tick writes to the complete signal, and the count of its rising edges. -/
def Obligations.CompleteSignalEveryTick : Prop :=
  ∀ (d : Dir) (s t : State), (s.eng.get d).dmaErr = false → engineTick d s = .next t →
    (t.eng.get d).completeSig =
      (match (s.eng.get d).st with
      | .complete => true
      | .updateDescriptor => (s.eng.get d).cur.flags.getLsbD 0
      | _ => false) ∧
    (t.eng.get d).completeEdges = (s.eng.get d).completeEdges +
      if (t.eng.get d).completeSig = true ∧ (s.eng.get d).completeSig = false then 1 else 0

/-- R156: in `FetchDescriptor`, `MoveData` and `UpdateDescriptor` the enable of the direction is not read: with either level the
instruction does the same. -/
def Obligations.EnableIgnoredInFlight : Prop :=
  ∀ (i : Instr) (s : State) (v : Bool),
    (s.eng.get s.turn).st = .fetchDescriptor ∨ (s.eng.get s.turn).st = .moveData ∨ (s.eng.get s.turn).st = .updateDescriptor →
    exec i (setEnable s.turn v s) = mapNext (exec i s) (setEnable s.turn v)

/-- R98, R99: once the record is in the latch, and where the flags word is not written back, an instruction does the same
whatever its reserved bits and its `hwOwned` bit are. -/
def Obligations.ReservedAndOwnedBitsIgnored : Prop :=
  ∀ (s : State) (buf : BitVec 64) (len : BitVec 32) (irq wrap : Bool) (rsv rsv' : BitVec 28) (own own' : Bool) (nxt : BitVec 64),
    s.params.writeBack = .none → ((s.eng.get s.turn).st = .fetchDescriptor → (s.eng.get s.turn).curValid = true) →
    exec (.xfer buf len irq rsv own nxt) s = exec (.xfer buf len irq rsv' own' nxt) s ∧
    exec (.xferW buf len irq rsv own nxt) s = exec (.xferW buf len irq rsv' own' nxt) s ∧
    exec (.xferL buf len irq wrap rsv own nxt) s = exec (.xferL buf len irq wrap rsv' own' nxt) s

/-! ## Frames -/

/-- R20, R284: an instruction of any kind, in any state of its engine, changes nothing that its engine does not own: not the
other direction, not the far side of its buffer, no other slot, no input, no synchronizer, nothing of the processor. -/
def Obligations.ExecKeepsWhatItDoesNotOwn : Prop :=
  ∀ (i : Instr) (s t : State), exec i s = .next t →
    KeepsOthers s.turn s t ∧ KeepsFarSide s.turn s t ∧ (t.eng.get s.turn).dmaErr = (s.eng.get s.turn).dmaErr ∧
    (∀ k, k ≠ (s.ring.get s.turn).currentIndex →
      (t.ring.get s.turn).complete.getD k false = (s.ring.get s.turn).complete.getD k false) ∧
    ((s.eng.get s.turn).st ≠ .updateDescriptor → (t.ring.get s.turn).complete = (s.ring.get s.turn).complete ∧
      (t.ring.get s.turn).currentIndex = (s.ring.get s.turn).currentIndex ∧
      (t.ring.get s.turn).bytesProcessed = (s.ring.get s.turn).bytesProcessed)

/-- R63, R71: an instruction of any kind leaves host memory as it is but in `UpdateDescriptor`, and there it changes no byte
outside the words its burst handed over (log 8) and, under `clear_own`, the flags word of its slot. R65, R66, R71: and what the
transport's own moves between ticks do: one field of an awaited record is read once, as memory holds it; the next word of the
playback burst in flight is read; the oldest write in hand is performed; nothing else changes. A write in hand that reaches past
address 2^64 faults: R51 ends the address space there and gives no outcome, so the stop is the model's choice (log 19). That the
transport's moves do the same for an engine after a DMA error, where R279 (e) promises nothing, is the model's choice (log 9). -/
def Obligations.ExecMemoryFrame : Prop :=
  (∀ (s : State) (d : Dir) (f : DescField), let p := s.port.get d
    let span : Nat × Nat := match f with
      | .bufferAddress => (0, 8)
      | .length => (8, 4)
      | .flags => (12, 4)
      | .nextAddress => (16, 8)
    let reads : Prop := (s.eng.get d).st = .fetchDescriptor ∧ currentComplete s d = false ∧ (s.eng.get d).curValid = false ∧
      p.fields.get f = none ∧ fetchAddress s d + 24 ≤ 2 ^ 64
    (reads → applyEvent (.readField d f) s =
      .next (s.withPort d { p with fields := p.fields.put f (loadBytes s.mem (fetchAddress s d + span.1) span.2) })) ∧
    (¬reads → applyEvent (.readField d f) s = .next s)) ∧
  (∀ s : State, let p := s.port.pb
    let k := s.eng.pb.burstCnt + p.rdAhead.length
    let a := s.eng.pb.cur.bufferAddress.toNat + k * s.params.wordBytes
    let reads : Prop := s.eng.pb.st = .moveData ∧ k < s.eng.pb.reqBytes / s.params.wordBytes ∧ a + s.params.wordBytes ≤ 2 ^ 64
    (reads → ∃ w, memRead s.mem a s.params.wordBytes = some w ∧
      applyEvent .readAhead s = .next (s.withPort .pb { p with rdAhead := p.rdAhead ++ [w] })) ∧
    (¬reads → applyEvent .readAhead s = .next s)) ∧
  (∀ (s : State) (d : Dir), let p := s.port.get d
    (p.pending = [] → applyEvent (.performWrite d) s = .next s) ∧
    (∀ w rest, p.pending = w :: rest →
      (∀ m, memWrite s.mem w.addr w.size w.value = some m →
        applyEvent (.performWrite d) s = .next ((s.withMem m).withPort d { p with pending := rest })) ∧
      (2 ^ 64 < w.addr + w.size → applyEvent (.performWrite d) s = .fault .outsideAddressSpace))) ∧
  ∀ (i : Instr) (s t : State), exec i s = .next t →
    ((s.eng.get s.turn).st ≠ .updateDescriptor → t.mem = s.mem) ∧
    (memWf s.mem = true → ∀ a : Nat, (∀ w ∈ (s.port.get s.turn).pending, a < w.addr ∨ w.addr + w.size ≤ a) →
      (s.params.writeBack = .clearOwn → a < fetchAddress s s.turn + 12 ∨ fetchAddress s s.turn + 16 ≤ a) →
      memByte t.mem a = memByte s.mem a)

/-! ## The step relation -/

/-- A step whose move is a transport tick runs, for each direction whose engine waits for a record that its transport presents from
memory, the instruction that this record decodes to: of each of the four fields what the transport has read already (R65), else what
memory holds in this tick. So where nothing was read early they are the 24 bytes at `base + 24 * currentIndex`. Around it stand the
DMA-error latch, the other engine and the domain's cells. The capture engine's part is said of the state that the playback engine's
part leaves (log 18). -/
def Obligations.StepRunsFetchedInstruction : Prop :=
  ∀ (s u : State) (pb cap : PortIn) (rest : List Event) (d : Dir) (i : Instr),
    s.inputs = .transportTick pb cap :: rest → resetAsserted s = false →
    (match d with
      | .pb => u = (takeEvent s).withBus ⟨pb, cap⟩
      | .cap => engineTick .pb ((takeEvent s).withBus ⟨pb, cap⟩) = .next u) →
    (u.eng.get d).dmaErr = false → (u.eng.get d).st = .fetchDescriptor → currentComplete u d = false →
    (u.eng.get d).curValid = false → (u.bus.get d).descData = some .memory →
    let a := (u.host.ring.get d).base.toNat + (u.ring.get d).currentIndex * 24
    let early := (u.port.get d).fields
    let record := early.bufferAddress.getD (loadBytes u.mem a 8) ++ early.length.getD (loadBytes u.mem (a + 8) 4) ++
      early.flags.getD (loadBytes u.mem (a + 12) 4) ++ early.nextAddress.getD (loadBytes u.mem (a + 16) 8)
    a + 24 ≤ 2 ^ 64 →
    (early = ⟨none, none, none, none⟩ → record = loadBytes u.mem a 24) ∧
    (decode record = .ok (i, []) →
      step s = mapNext (andThen (mapNext (exec i (u.withTurn d)) (latchDmaError d))
        (match d with
          | .pb => engineTick .cap
          | .cap => fun v => .next v)) (fun v => (stepTransportCells v).drawn))

/-- In a transport tick an engine with a record in its latch, or in `MoveData` or `UpdateDescriptor`, executes the instruction
that the latch holds (R140, R145 to R147); around it stands the DMA-error latch. A step whose move is a transport tick is the two
engines' parts and then the domain's cells (R284, log 18). -/
def Obligations.TickRunsLatchedInstruction : Prop :=
  (∀ (s : State) (pb cap : PortIn) (rest : List Event), s.inputs = .transportTick pb cap :: rest → resetAsserted s = false →
    step s = mapNext (andThen (engineTick .pb { s with inputs := rest, bus := ⟨pb, cap⟩ }) (engineTick .cap))
      (fun v => (stepTransportCells v).drawn)) ∧
  ∀ (d : Dir) (s : State), (s.eng.get d).dmaErr = false →
    ((s.eng.get d).st = .fetchDescriptor ∧ currentComplete s d = false ∧ (s.eng.get d).curValid = true) ∨
      (s.eng.get d).st = .moveData ∨ (s.eng.get d).st = .updateDescriptor →
    engineTick d s = mapNext (exec (instrOfDesc (s.eng.get d).cur) (s.withTurn d)) (latchDmaError d) ∧
    (instrOfDesc (s.eng.get d).cur).desc = (s.eng.get d).cur

/-! ## Ring and engine control -/

/-- R97, R121 (f): `nextIndex` is defined exactly for the address of a slot of the ring, and is that slot. -/
def Obligations.NextIndexIsTheSlot : Prop :=
  ∀ (base n k : Nat) (a : BitVec 64), nextIndex base n a = some k ↔ k < n ∧ a.toNat = base + k * 24

/-- The control invariant of the engines (R23, R25, R28, R123, R125, R356) is kept by every step, whatever the environment does. -/
def Obligations.EngineControlKept : Prop := ∀ s t : State, EnginesInv s → step s = .next t → EnginesInv t

/-- It holds right after reset, for every parameter record that meets R8. -/
def Obligations.EngineControlAtReset : Prop := ∀ p : Params, p.ok = true → EnginesInv (State.resetWith p)

/-- R125: between two resets no slot is executed twice: a step that is no reset (a move between ticks while a reset input is 1 is
none) never clears a complete flag of an engine
without a DMA error; an activation begins on a slot that is not complete; the slot of an engine in `UpdateDescriptor` is not
complete before its tick, and is complete after it. -/
def Obligations.NoStaleReplay : Prop :=
  ∀ (s t : State) (d : Dir) (k : Nat), EnginesInv s → step s = .next t → ¬resetTickNext s →
    (s.eng.get d).dmaErr = false →
    (slotComplete s d k = true → slotComplete t d k = true) ∧
    ((s.eng.get d).st ≠ .moveData → (t.eng.get d).st = .moveData → slotComplete s d (s.ring.get d).currentIndex = false) ∧
    ((s.eng.get d).st = .updateDescriptor → slotComplete s d (s.ring.get d).currentIndex = false) ∧
    ((s.eng.get d).st = .updateDescriptor → (∃ pb cap, nextEvent s = .transportTick pb cap) →
      slotComplete t d (s.ring.get d).currentIndex = true)

/-! ## The Elastic Buffers -/

/-- R182, R183: a push enters the frame and advances `wr`, or on full is a no-op that is counted and, for the capture buffer,
flagged. -/
def Obligations.PushRule : Prop :=
  ∀ (d : Dir) (fr : Frame) (s : State), let f := s.fifo.get d
    (modSub (2 * s.params.capacity) f.wr (f.rdSync.stages.getLastD 0) < s.params.capacity →
      pushFrame d fr s = s.withFifo d { f with
        mem := f.mem.set (f.wr % s.params.capacity) fr
        wr := (f.wr + 1) % (2 * s.params.capacity) }) ∧
    (s.params.capacity ≤ modSub (2 * s.params.capacity) f.wr (f.rdSync.stages.getLastD 0) →
      pushFrame d fr s =
        (s.withFifo d { f with overrunCnt := (f.overrunCnt + 1) % 2 ^ s.params.cntW }).withAfp
          { s.afp with overrunFlag := s.afp.overrunFlag || d == .cap })

/-- R184, R185: a pop returns the entry at `rd` and advances `rd`, or on empty is a no-op with no frame that is counted and, for
the playback buffer, flagged. -/
def Obligations.PopRule : Prop :=
  ∀ (d : Dir) (s : State), let f := s.fifo.get d
    (0 < modSub (2 * s.params.capacity) (f.wrSync.stages.getLastD 0) f.rd →
      popFrame d s = (some (f.mem.getD (f.rd % s.params.capacity) []),
        s.withFifo d { f with rd := (f.rd + 1) % (2 * s.params.capacity) })) ∧
    (modSub (2 * s.params.capacity) (f.wrSync.stages.getLastD 0) f.rd = 0 →
      popFrame d s = (none,
        (s.withFifo d { f with underrunCnt := (f.underrunCnt + 1) % 2 ^ s.params.cntW }).withAfp
          { s.afp with underrunFlag := s.afp.underrunFlag || d == .pb }))

/-- R189: in a good buffer the consumer never sees more frames than there are and the producer never more room than there is. -/
def Obligations.BufferViewsConservative : Prop :=
  ∀ (p : Params) (f : Fifo), p.ok = true → BufferInv p f → occC p f ≤ occ p f ∧ occ p f ≤ occP p f ∧ occP p f ≤ p.capacity

/-- R189: both buffers stay good in every step, whatever the environment does and in every interleaving. Of an engine after a DMA
error, which R306 leaves unspecified, this rests on the model's choice that it touches its buffer only through one push or pop a
tick (log 9). -/
def Obligations.BuffersKept : Prop := ∀ s t : State, BuffersInv s → step s = .next t → BuffersInv t

/-- Both buffers are good right after reset, for every parameter record that meets R8. -/
def Obligations.BuffersAtReset : Prop := ∀ p : Params, p.ok = true → BuffersInv (State.resetWith p)

/-- R190: no push or pop of a burst ever fails: the engines' own failure counters stay 0 in every step, whatever the environment
does, for an engine without a DMA error. -/
def Obligations.BurstsNeverFail : Prop := ∀ s t : State, ReservesInv s → step s = .next t → ReservesInv t

/-- The engines' reserves hold right after reset, for every parameter record that meets R8. -/
def Obligations.ReservesAtReset : Prop := ∀ p : Params, p.ok = true → ReservesInv (State.resetWith p)

/-! ## The CDC Bridge -/

/-- R201, R202: a value that the source takes and keeps is at the output after as many destination ticks as the cell has stages,
and before that the output is what the earlier stages held. R203: a tick of either domain steps its own cells, each under its own
source, and nothing else; without the glitch model every capture is of the whole value. -/
def Obligations.SynchronizerLatency : Prop :=
  (∀ (c : Sync) (v n : Nat), c.stages ≠ [] →
    (c.stages.length ≤ n → (Sync.held v n c).out = v) ∧
    (n < c.stages.length → (Sync.held v n c).out = c.stages.getD (c.stages.length - 1 - n) 0)) ∧
  (∀ (p : Params) (src : Nat) (c c' : Sync), p.glitch = .none → Captures p src c c' → c' = c.stepWhole src) ∧
  (∀ s : State, let t := stepTransportCells s
    Captures s.params s.line.lockedIn.toNat s.status.locked t.status.locked ∧
    Captures s.params s.line.rateIn s.status.rate t.status.rate ∧
    Captures s.params s.afp.underrunFlag.toNat s.status.underrun t.status.underrun ∧
    Captures s.params s.afp.overrunFlag.toNat s.status.overrun t.status.overrun ∧
    t = { s with
      status := t.status
      fifo := ⟨{ s.fifo.pb with rdSync := s.fifo.pb.rdSync.stepWhole s.fifo.pb.rd },
        { s.fifo.cap with wrSync := s.fifo.cap.wrSync.stepWhole s.fifo.cap.wr }⟩ }) ∧
  (∀ s : State, let t := stepAudioCells s
    Captures s.params s.host.cfg.format.toNat s.control.format t.control.format ∧
    Captures s.params s.host.cfg.family s.control.family t.control.family ∧
    Captures s.params s.host.cfg.mult s.control.mult t.control.mult ∧
    Captures s.params s.host.cfg.dsdMode.toNat s.control.dsdMode t.control.dsdMode ∧
    Captures s.params s.host.cfg.master.toNat s.control.master t.control.master ∧
    Captures s.params s.host.enable.pb.toNat s.control.pbEn t.control.pbEn ∧
    Captures s.params s.host.enable.cap.toNat s.control.capEn t.control.capEn ∧
    t = { s with
      control := t.control
      fifo := ⟨{ s.fifo.pb with wrSync := s.fifo.pb.wrSync.stepWhole s.fifo.pb.wr },
        { s.fifo.cap with rdSync := s.fifo.cap.rdSync.stepWhole s.fifo.cap.rd }⟩ })

/-- R204, R205: without the glitch model a cell captures its source; with it every captured bit is the bit of the old or of the
new value, and a source that did not change is captured as it is. -/
def Obligations.CapturedBits : Prop :=
  ∀ prev src mask k : Nat, captured .none prev src mask = src ∧ captured .bitmix src src mask = src ∧
    ((captured .bitmix prev src mask).testBit k = prev.testBit k ∨ (captured .bitmix prev src mask).testBit k = src.testBit k)

/-! ## Slicing and packing -/

/-- R151: the two layouts bit by bit, their two round trips, and the refusal of a frame wider than a transport word: by name, at
the data word of either engine, for an instruction of any kind. That it is refused at the data word is the model's choice (log 30):
R151 does not say at which step. -/
def Obligations.SliceAndPack : Prop :=
  (∀ (p : Params) (g : Geom) (w c k : Nat), g.channels ≤ p.maxC → c < p.maxC →
    ((slice p g w).getD c 0).testBit k = (decide (c < g.channels ∧ k < g.width) && w.testBit (c * g.width + k))) ∧
  (∀ (g : Geom) (f : Frame) (c k : Nat), c < g.channels → k < g.width →
    (pack g f).testBit (c * g.width + k) = (f.getD c 0).testBit k) ∧
  (∀ (g : Geom) (f : Frame), pack g f < 2 ^ (g.channels * g.width)) ∧
  (∀ (p : Params) (g : Geom) (w : Nat), g.channels ≤ p.maxC → pack g (slice p g w) = w % 2 ^ (g.channels * g.width)) ∧
  (∀ (p : Params) (g : Geom) (f : Frame), g.channels ≤ p.maxC → f.length = p.maxC → (∀ c, c < g.channels → f.getD c 0 < 2 ^ g.width) →
    (∀ c, g.channels ≤ c → f.getD c 0 = 0) → slice p g (pack g f) = f) ∧
  (∀ (s : State) (f : Format), legalFormat s.host.cfg.format.toNat s.host.cfg.dsdMode.toNat = some f →
    8 * s.params.wordBytes < (geometry s.params f s.host.cfg.dsdMode.toNat).channels * (geometry s.params f s.host.cfg.dsdMode.toNat).width →
    transportGeometry s = .error .frameWiderThanWord) ∧
  (∀ (i : Instr) (s : State) (last : Bool), transportGeometry s = .error .frameWiderThanWord →
    (s.turn = .pb → s.eng.pb.st = .moveData → s.bus.pb.rdWord = some (.memory, last) →
      i.desc.bufferAddress.toNat + s.eng.pb.burstCnt * s.params.wordBytes + s.params.wordBytes ≤ 2 ^ 64 →
      exec i s = .refused .frameWiderThanWord) ∧
    (s.turn = .cap → s.eng.cap.st = .moveData → s.bus.cap.wrReady = true → exec i s = .refused .frameWiderThanWord))

/-! ## The Audio Frame Processor -/

/-- R228, R229, R242: the configuration is taken at a frame boundary alone, from the five control cells; a reserved format or
slave mode is refused there, and between boundaries the cells are not looked at. Where the cells show both at one boundary the
rules give no order: that the reserved format is the one named is the model's choice (log 10); so is that a geometry wider than a
transport word is latched (log 30). -/
def Obligations.ConfigurationLatch : Prop :=
  ∀ (inp : LineIn) (s : State), let c := s.control
    let reserved : Prop := 3 ≤ c.format.out ∨ (c.format.out = 2 ∧ 3 ≤ c.dsdMode.out)
    let boundary : Prop := s.afp.bitCnt = 0 ∧ s.afp.chCnt = 0
    (boundary → ¬reserved → c.master.out ≠ 0 → ∃ t f, bitEvent inp s = .next t ∧ formatOfCode c.format.out = some f ∧
      t.afp.act = ⟨f, c.family.out, c.mult.out, c.dsdMode.out, true⟩) ∧
    (boundary → reserved → bitEvent inp s = .refused .reservedFormat) ∧
    (boundary → ¬reserved → c.master.out = 0 → bitEvent inp s = .refused .slaveMode) ∧
    (¬boundary → ∃ t, bitEvent inp s = .next t ∧ t.afp.act = s.afp.act ∧ t.afp.txFrame = s.afp.txFrame)

/-- R231 to R234: what a bit event drives: in I2S and TDM bit `W-1-bitCnt` of channel `chCnt` on line 0 and 0 elsewhere, in DSD
that bit of every channel on its own line; the word select, the frame-sync pulse and the slot number. -/
def Obligations.LineOutputs : Prop :=
  ∀ (inp : LineIn) (s t : State), bitEvent inp s = .next t →
    let a := t.afp.act
    let g := geometry s.params a.format a.dsdMode
    (∀ c, c < s.params.maxC → t.afp.sdOut.getD c false =
      (match a.format with
        | .dsd => decide (c < g.channels) && (t.afp.txFrame.getD c 0).testBit (g.width - 1 - s.afp.bitCnt)
        | _ => decide (c = 0) && (t.afp.txFrame.getD s.afp.chCnt 0).testBit (g.width - 1 - s.afp.bitCnt))) ∧
    t.afp.frameSig =
      (match a.format with
        | .i2s => decide (s.afp.chCnt % 2 = 1)
        | .tdm => decide (s.afp.bitCnt = 0 ∧ s.afp.chCnt = 0)
        | .dsd => false) ∧
    t.afp.slotNum =
      (match a.format with
        | .tdm => s.afp.chCnt
        | _ => 0)

/-- R225, R226: the counters after a bit event, from those before it and the geometry in force. -/
def Obligations.BitAndChannelCounters : Prop :=
  ∀ (inp : LineIn) (s t : State), bitEvent inp s = .next t →
    let g := geometry s.params t.afp.act.format t.afp.act.dsdMode
    (s.afp.bitCnt < g.width - 1 → t.afp.bitCnt = s.afp.bitCnt + 1 ∧ t.afp.chCnt = s.afp.chCnt) ∧
    (g.width - 1 ≤ s.afp.bitCnt → t.afp.bitCnt = 0 ∧
      t.afp.chCnt = if t.afp.act.format ≠ .dsd ∧ s.afp.chCnt < g.channels - 1 then s.afp.chCnt + 1 else 0)

/-- R47, R242: the processor's counters stay in their ranges, and it stays in master mode, in every step. -/
def Obligations.ProcessorCountersKept : Prop := ∀ s t : State, CountersInv s → step s = .next t → CountersInv t

/-- They hold right after reset, for every parameter record that meets R8. -/
def Obligations.ProcessorCountersAtReset : Prop := ∀ p : Params, p.ok = true → CountersInv (State.resetWith p)

/-- R26, R43, R48, R49: the wrapping numbers stay inside their widths and the lines and shift registers keep their number, in
every step. -/
def Obligations.WidthsKept : Prop := ∀ s t : State, WidthsInv s → step s = .next t → WidthsInv t

/-- R230, R302: at a boundary with playback streaming and the buffer seen empty, one underrun is counted and flagged, nothing is
popped and the processor goes on; a streaming boundary with a frame serializes it; with playback off it serializes zeros and
neither pops nor counts. That this holds under a geometry wider than a transport word too is the model's choice (log 30). -/
def Obligations.LoadAtBoundary : Prop :=
  ∀ (inp : LineIn) (s : State) (act : ActiveConfig), s.afp.bitCnt = 0 → s.afp.chCnt = 0 → latchConfig s = .ok act →
    ∃ t, bitEvent inp s = .next t ∧
    (s.control.pbEn.out = 0 → t.fifo.pb = s.fifo.pb ∧ t.afp.underrunFlag = s.afp.underrunFlag ∧
      t.afp.txFrame = List.replicate s.params.maxC 0) ∧
    (s.control.pbEn.out ≠ 0 → 0 < occC s.params s.fifo.pb →
      t.fifo.pb = { s.fifo.pb with rd := (s.fifo.pb.rd + 1) % (2 * s.params.capacity) } ∧
      t.afp.underrunFlag = s.afp.underrunFlag ∧
      t.afp.txFrame = s.fifo.pb.mem.getD (s.fifo.pb.rd % s.params.capacity) []) ∧
    (s.control.pbEn.out ≠ 0 → occC s.params s.fifo.pb = 0 →
      t.fifo.pb = { s.fifo.pb with underrunCnt := (s.fifo.pb.underrunCnt + 1) % 2 ^ s.params.cntW } ∧
      t.afp.underrunFlag = true ∧
      (s.params.underrunOutput = .lastValue → t.afp.txFrame = s.afp.txFrame))

/-- R236, R303: at the last bit of a frame the received frame is pushed while capture streams; on a buffer seen full it is
dropped, counted and flagged; with capture off it is discarded and nothing is counted; at any other bit the capture buffer is
not touched. -/
def Obligations.PublishAtFrameEnd : Prop :=
  ∀ (inp : LineIn) (s t : State), bitEvent inp s = .next t →
    let g := geometry s.params t.afp.act.format t.afp.act.dsdMode
    let frameEnd : Prop := g.width - 1 ≤ s.afp.bitCnt ∧ (t.afp.act.format = .dsd ∨ g.channels - 1 ≤ s.afp.chCnt)
    let received : Frame :=
      (List.range s.params.maxC).map (fun c => if c < g.channels then t.afp.rxShift.getD c 0 % 2 ^ g.width else 0)
    (¬frameEnd → t.fifo.cap = s.fifo.cap ∧ t.afp.overrunFlag = s.afp.overrunFlag) ∧
    (s.control.capEn.out = 0 → t.fifo.cap = s.fifo.cap ∧ t.afp.overrunFlag = s.afp.overrunFlag) ∧
    (frameEnd → s.control.capEn.out ≠ 0 → occP s.params s.fifo.cap < s.params.capacity →
      t.afp.overrunFlag = s.afp.overrunFlag ∧
      t.fifo.cap = { s.fifo.cap with
        mem := s.fifo.cap.mem.set (s.fifo.cap.wr % s.params.capacity) received
        wr := (s.fifo.cap.wr + 1) % (2 * s.params.capacity) }) ∧
    (frameEnd → s.control.capEn.out ≠ 0 → s.params.capacity ≤ occP s.params s.fifo.cap →
      t.afp.overrunFlag = true ∧
      t.fifo.cap = { s.fifo.cap with overrunCnt := (s.fifo.cap.overrunCnt + 1) % 2 ^ s.params.cntW })

/-- R235: what a bit event shifts in: in I2S and TDM the bit of line 0 into the register of the channel in turn, in DSD the bit
of every line into its channel's register; every other register keeps its value. -/
def Obligations.SampleShiftsIn : Prop :=
  ∀ (l : List Bool) (s t : State), s.afp.rxShift.length = s.params.maxC → bitEvent (.bits l) s = .next t →
    let a := t.afp.act
    let g := geometry s.params a.format a.dsdMode
    ∀ c, c < s.params.maxC → t.afp.rxShift.getD c 0 =
      (match a.format with
        | .dsd => if c < g.channels then ((s.afp.rxShift.getD c 0) * 2 + (l.getD c false).toNat) % 2 ^ g.width else s.afp.rxShift.getD c 0
        | _ => if c = s.afp.chCnt then ((s.afp.rxShift.getD c 0) * 2 + (l.getD 0 false).toNat) % 2 ^ g.width else s.afp.rxShift.getD c 0)

/-- R237: serialize, then deserialize: with the line looped back through every bit event of a frame, the frame that its last bit
event publishes is the frame that its boundary loaded, in its channels and its width. That this holds under a geometry wider than
a transport word too is the model's choice (log 30). -/
def Obligations.LoopbackRoundTrip : Prop :=
  ∀ (s : State) (act : ActiveConfig), s.params.ok = true → s.afp.rxShift.length = s.params.maxC →
    s.afp.bitCnt = 0 → s.afp.chCnt = 0 → latchConfig s = .ok act → s.control.capEn.out ≠ 0 →
    let g := geometry s.params act.format act.dsdMode
    let tx := (loadFrame s).1
    ∃ t, runBits .loopback (frameBits act.format g) s = .next t ∧
      t.fifo.cap = (pushFrame .cap
        ((List.range s.params.maxC).map (fun c => if c < g.channels then tx.getD c 0 % 2 ^ g.width else 0)) s).fifo.cap ∧
      t.afp.bitCnt = 0 ∧ t.afp.chCnt = 0 ∧ t.afp.txFrame = tx ∧ t.afp.act = act

/-- R223, R224: what a step whose move is an audio tick does: below `DIV - 1`, of the active configuration before the tick, the
divider counts up and no bit event happens, else the tick is the bit event; then the domain's cells step (log 18). R239: it goes
on, buffers empty or full, but at a frame boundary that latches a configuration with no meaning. That a geometry wider than a
transport word stops no audio tick is the model's choice (log 30). -/
def Obligations.AudioNeverWaits : Prop :=
  ∀ (a : AudioIn) (s : State), let act := s.afp.act
    let div := bclkDiv s.params act.format act.family act.mult act.dsdMode
    let line : LineLevels := ⟨a.lockedIn, a.rateIn % 2 ^ s.params.rateW⟩
    (∀ rest, s.inputs = .audioTick a :: rest → resetAsserted s = false → step s = audioStep a { s with inputs := rest }) ∧
    (s.afp.divCnt < div - 1 → audioStep a s = .next
      (stepAudioCells { s with line := line, afp := { s.afp with divCnt := s.afp.divCnt + 1, bitTick := false } }).drawn) ∧
    (div - 1 ≤ s.afp.divCnt → audioStep a s = mapNext
      (bitEvent a.sdIn { s with line := line, afp := { s.afp with divCnt := 0, bitTick := true } })
      (fun t => (stepAudioCells t).drawn)) ∧
    (∀ t, bitEvent a.sdIn s = .next t → t.afp.divCnt = s.afp.divCnt ∧ t.afp.bitTick = s.afp.bitTick) ∧
    ((∃ t, audioStep a s = .next t) ∨
      (s.afp.bitCnt = 0 ∧ s.afp.chCnt = 0 ∧
        ((audioStep a s = .refused .reservedFormat ∧
            (3 ≤ s.control.format.out ∨ (s.control.format.out = 2 ∧ 3 ≤ s.control.dsdMode.out))) ∨
          (audioStep a s = .refused .slaveMode ∧ s.control.master.out = 0))))

/-! ## Conditions, reset and host commands -/

/-- R32, R306: a signalled DMA error is latched besides the engine's own step, and only a reset clears it: no other move does, also
none between ticks while a reset input is 1. -/
def Obligations.DmaErrorIsSticky : Prop :=
  (∀ (d : Dir) (s t : State), (s.eng.get d).dmaErr = false → (s.bus.get d).dmaErrorIn = true → engineStep d s = .next t →
    engineTick d s = .next (t.withEng d { t.eng.get d with dmaErr := true })) ∧
  (∀ (d : Dir) (s t : State), (s.eng.get d).dmaErr = true → step s = .next t → ¬resetTickNext s → (t.eng.get d).dmaErr = true)

/-- R52, R340, R341: a tick of either domain while a reset input is 1 puts every element of the core to its reset value, and
touches neither the inputs nor host memory. The premise is the model's `requestOutstanding`, and where it goes further than R343's
words the reset is taken by the model's choice: after a DMA error in `FetchDescriptor` or `MoveData`, which R343 read literally
refuses and R315 recovers from by a reset (log 9), and in `UpdateDescriptor` with nothing left to perform (log 24). That host memory
stays as it is after a DMA error too, the capture writes still in hand dropped, is the model's choice (log 31). -/
def Obligations.ResetTakesTheTick : Prop :=
  ∀ s : State, resetTickNext s → requestOutstanding s .pb = false → requestOutstanding s .cap = false →
    ∃ t, step s = .next t ∧ CoreAtReset t ∧ t.host = s.host ∧ t.mem = s.mem ∧ t.params = s.params ∧ t.inputs = s.inputs.tail

/-- R52, R346: the machine right after reset, for every parameter record. -/
def Obligations.ResetStateIsR52 : Prop :=
  ∀ p : Params, CoreAtReset (State.resetWith p) ∧ (State.resetWith p).params = p ∧
    (State.resetWith p).host.enable = ⟨false, false⟩ ∧ (State.resetWith p).host.softReset = false

/-- R343: a reset with a transport request outstanding has no meaning: it is refused by name. That the read of the record is
outstanding from the entry into `FetchDescriptor` on is the model's reading (log 24). -/
def Obligations.ResetInFlightRefused : Prop :=
  ∀ (s : State) (d : Dir), resetTickNext s → (s.eng.get d).dmaErr = false →
    ((s.eng.get d).st = .fetchDescriptor ∧ currentComplete s d = false) ∨ (s.eng.get d).st = .moveData →
    step s = .refused .resetInFlight

/-- R270 to R276, R340: a host command, the hardware-reset input and a write of host memory change the inputs or the bytes they
name, or the host's own view, and nothing of the core. R38, R188: what the view shows. A host write that reaches past address
2^64 faults: R51 ends the address space there and gives no outcome, so the stop is the model's choice (log 19). -/
def Obligations.HostCommandsChangeInputsOnly : Prop :=
  ∀ (s : State) (d : Dir) (v : Bool) (size thr : Nat) (f : FormatRegs), let r := s.host.ring.get d
    let inputs := { s.host with ring := s.host.ring.set d { r with bufferSize := size, interruptEnable := v, threshold := thr } }
    let shown : Status :=
      { locked := s.status.locked.stages.getLastD 0 != 0
        rate := s.status.rate.stages.getLastD 0
        underrun := s.status.underrun.stages.getLastD 0 != 0
        overrun := s.status.overrun.stages.getLastD 0 != 0
        dmaError := s.eng.pb.dmaErr || s.eng.cap.dmaErr
        activeCount := ⟨s.ring.pb.activeCount, s.ring.cap.activeCount⟩
        bytesProcessed := ⟨s.ring.pb.bytesProcessed, s.ring.cap.bytesProcessed⟩
        level := ⟨modSub (2 * s.params.capacity) s.fifo.pb.wr (s.fifo.pb.rdSync.stages.getLastD 0),
          modSub (2 * s.params.capacity) (s.fifo.cap.wrSync.stages.getLastD 0) s.fifo.cap.rd⟩
        currentIndex := ⟨s.ring.pb.currentIndex, s.ring.cap.currentIndex⟩
        completeSig := ⟨s.eng.pb.completeSig, s.eng.cap.completeSig⟩ }
    applyEvent (.enable d) s = .next { s with host := { s.host with enable := s.host.enable.set d true } } ∧
    applyEvent (.disable d) s = .next { s with host := { s.host with enable := s.host.enable.set d false } } ∧
    applyEvent (.softReset v) s = .next { s with host := { s.host with softReset := v } } ∧
    applyEvent (.formatWrite f) s = .next { s with host := { s.host with cfg := { f with
      family := f.family % 2 ^ s.params.familyW, mult := f.mult % 2 ^ s.params.multW } } } ∧
    applyEvent (.ringInputs d size v thr) s = .next { s with host := inputs } ∧
    applyEvent (.hwReset v) s = .next { s with host := { s.host with hwReset := v } } ∧
    (∀ (a : Nat) (bs : List Byte),
      (2 ^ 64 < a + bs.length → applyEvent (.writeMemory a bs) s = .fault .outsideAddressSpace) ∧
      (a + bs.length ≤ 2 ^ 64 → memWf s.mem = true → ∃ m, applyEvent (.writeMemory a bs) s = .next { s with mem := m } ∧
        (∀ k, k < bs.length → memByte m (a + k) = bs.getD k 0) ∧
        ∀ x, x < a ∨ a + bs.length ≤ x → memByte m x = memByte s.mem x)) ∧
    applyEvent .statusRead s = .next { s with hostView := some shown }

/-- R274, R356: a ring may be set up while its engine rests, and a change of one whose descriptor is in flight is refused. That
RING_SETUP takes effect in `Complete`, and in `Idle` with the direction enabled, is the model's choice (log 23): the rules allow
it to the host only in `Idle` with the enable 0. So is that an engine after a DMA error, whose state R306 leaves unspecified, is
judged by the state drawn for it (log 23). -/
def Obligations.RingSetupRule : Prop :=
  ∀ (s : State) (d : Dir) (base : BitVec 64) (count : Nat), let r := s.host.ring.get d
    let moved := { s.host with ring := s.host.ring.set d { r with base := base, descCount := count } }
    ((s.eng.get d).st = .idle ∨ (s.eng.get d).st = .complete →
      applyEvent (.ringSetup d base count) s = .next { s with host := moved }) ∧
    ((s.eng.get d).st = .fetchDescriptor ∨ (s.eng.get d).st = .moveData ∨ (s.eng.get d).st = .updateDescriptor →
      r.base ≠ base ∨ r.descCount ≠ count → applyEvent (.ringSetup d base count) s = .refused .ringMovedInFlight)

/-! ## A whole activation -/

/-- R152 to R154, playback: against an eager transport, from a record that the engine waits for, `n + 3` steps of the engine (one
latch, one request, `n` words, one update) run the whole activation of the descriptor, whatever its kind: its `n` words are in
the buffer in ascending order, the slot is complete, the bytes are counted, the cursor and the state are as the kind says. -/
def Obligations.PlaybackActivation : Prop :=
  ∀ (s : State) (g : Geom) (desc : Desc), desc = recordAt s .pb s.ring.pb.currentIndex →
    let n := min s.params.burstBytes desc.length.toNat / s.params.wordBytes
    s.params.ok = true → s.eng.pb.dmaErr = false → s.eng.pb.st = .fetchDescriptor → currentComplete s .pb = false →
    s.eng.pb.curValid = false → s.port.pb = portReset → fetchAddress s .pb + 24 ≤ 2 ^ 64 →
    latchRefusal s .pb desc = none → transportGeometry s = .ok g → n + occP s.params s.fifo.pb ≤ s.params.capacity →
    ∃ t k, runEngine .pb (n + 3) s = .next t ∧
      (if desc.lastInChain = true ∨ desc.wrap = true then k = 0
        else k < ringCount s .pb ∧ desc.nextAddress.toNat = ringBase s .pb + k * 24) ∧
      t.fifo.pb = pushAll s.params s.fifo.pb (burstFrames s desc g n) ∧
      t.ring.pb =
        { complete := s.ring.pb.complete.set s.ring.pb.currentIndex true
          currentIndex := k
          activeCount := 0
          bytesProcessed := (s.ring.pb.bytesProcessed + n * s.params.wordBytes) % 2 ^ s.params.bytesW } ∧
      t.eng.pb.st = (if desc.lastInChain then .complete else .idle) ∧ t.eng.pb.curValid = false ∧
      t.eng.pb.completeSig = desc.interrupt ∧ t.mem = writtenBack s .pb desc.flags s.mem ∧
      t.ring.cap = s.ring.cap ∧ t.eng.cap = s.eng.cap ∧ t.fifo.cap = s.fifo.cap ∧ t.afp = s.afp

/-- R152 to R154, capture: the same, with the `n` oldest frames of the buffer packed and written to memory in ascending order. -/
def Obligations.CaptureActivation : Prop :=
  ∀ (s : State) (g : Geom) (desc : Desc), desc = recordAt s .cap s.ring.cap.currentIndex →
    let n := min s.params.burstBytes desc.length.toNat / s.params.wordBytes
    s.params.ok = true → s.eng.cap.dmaErr = false → s.eng.cap.st = .fetchDescriptor → currentComplete s .cap = false →
    s.eng.cap.curValid = false → s.port.cap = portReset → fetchAddress s .cap + 24 ≤ 2 ^ 64 →
    latchRefusal s .cap desc = none → transportGeometry s = .ok g → n ≤ occC s.params s.fifo.cap →
    ∃ t k, runEngine .cap (n + 3) s = .next t ∧
      (if desc.lastInChain = true ∨ desc.wrap = true then k = 0
        else k < ringCount s .cap ∧ desc.nextAddress.toNat = ringBase s .cap + k * 24) ∧
      t.mem = writtenBack s .cap desc.flags (writeFrames s.params g n desc.bufferAddress.toNat s.fifo.cap s.mem) ∧
      t.fifo.cap = popMany s.params n s.fifo.cap ∧
      t.ring.cap =
        { complete := s.ring.cap.complete.set s.ring.cap.currentIndex true
          currentIndex := k
          activeCount := 0
          bytesProcessed := (s.ring.cap.bytesProcessed + n * s.params.wordBytes) % 2 ^ s.params.bytesW } ∧
      t.eng.cap.st = (if desc.lastInChain then .complete else .idle) ∧ t.eng.cap.curValid = false ∧
      t.eng.cap.completeSig = desc.interrupt ∧
      t.ring.pb = s.ring.pb ∧ t.eng.pb = s.eng.pb ∧ t.fifo.pb = s.fifo.pb ∧ t.afp = s.afp
end

