-- ==== Sys2Proof/Laws/State.lean ====
section
/-! SUPPORT. Laws/State.lean: reading a part of the state after an update of a part, one lemma per field per update, all by
definition; no later proof unfolds a record update. -/

namespace Sys2Proof

@[simp] theorem PerDir.get_set_same {α : Type} (v : PerDir α) (d : Dir) (x : α) : (v.set d x).get d = x := by cases d <;> rfl
@[simp] theorem PerDir.get_set_other {α : Type} (v : PerDir α) (d : Dir) (x : α) : (v.set d x).get d.other = v.get d.other := by
  cases d <;> rfl
@[simp] theorem PerDir.get_other_set {α : Type} (v : PerDir α) (d : Dir) (x : α) : (v.set d.other x).get d = v.get d := by
  cases d <;> rfl
@[simp] theorem PerDir.get_pb {α : Type} (v : PerDir α) : v.get .pb = v.pb := rfl
@[simp] theorem PerDir.get_cap {α : Type} (v : PerDir α) : v.get .cap = v.cap := rfl
@[simp] theorem PerDir.set_pb {α : Type} (v : PerDir α) (x : α) : v.set .pb x = ⟨x, v.cap⟩ := rfl
@[simp] theorem PerDir.set_cap {α : Type} (v : PerDir α) (x : α) : v.set .cap x = ⟨v.pb, x⟩ := rfl
@[simp] theorem PerDir.set_get {α : Type} (v : PerDir α) (d : Dir) : v.set d (v.get d) = v := by cases d <;> rfl
@[simp] theorem PerDir.set_set {α : Type} (v : PerDir α) (d : Dir) (x y : α) : (v.set d x).set d y = v.set d y := by cases d <;> rfl
@[simp] theorem Dir.other_other (d : Dir) : d.other.other = d := by cases d <;> rfl
@[simp] theorem Dir.other_pb : Dir.pb.other = .cap := rfl
@[simp] theorem Dir.other_cap : Dir.cap.other = .pb := rfl

namespace Machine

variable (s : State) (d : Dir)

/-! ## After `withRing` -/

@[simp] theorem State.withRing_params (r : Ring) : (s.withRing d r).params = s.params := rfl
@[simp] theorem State.withRing_host (r : Ring) : (s.withRing d r).host = s.host := rfl
@[simp] theorem State.withRing_mem (r : Ring) : (s.withRing d r).mem = s.mem := rfl
@[simp] theorem State.withRing_ring (r : Ring) : (s.withRing d r).ring = s.ring.set d r := rfl
@[simp] theorem State.withRing_eng (r : Ring) : (s.withRing d r).eng = s.eng := rfl
@[simp] theorem State.withRing_port (r : Ring) : (s.withRing d r).port = s.port := rfl
@[simp] theorem State.withRing_fifo (r : Ring) : (s.withRing d r).fifo = s.fifo := rfl
@[simp] theorem State.withRing_control (r : Ring) : (s.withRing d r).control = s.control := rfl
@[simp] theorem State.withRing_status (r : Ring) : (s.withRing d r).status = s.status := rfl
@[simp] theorem State.withRing_afp (r : Ring) : (s.withRing d r).afp = s.afp := rfl
@[simp] theorem State.withRing_turn (r : Ring) : (s.withRing d r).turn = s.turn := rfl
@[simp] theorem State.withRing_bus (r : Ring) : (s.withRing d r).bus = s.bus := rfl
@[simp] theorem State.withRing_line (r : Ring) : (s.withRing d r).line = s.line := rfl
@[simp] theorem State.withRing_freeIx (r : Ring) : (s.withRing d r).freeIx = s.freeIx := rfl
@[simp] theorem State.withRing_inputs (r : Ring) : (s.withRing d r).inputs = s.inputs := rfl
@[simp] theorem State.withRing_envIx (r : Ring) : (s.withRing d r).envIx = s.envIx := rfl
@[simp] theorem State.withRing_hostView (r : Ring) : (s.withRing d r).hostView = s.hostView := rfl
@[simp] theorem State.withRing_used (r : Ring) : (s.withRing d r).used = s.used := rfl

/-! ## After `withEng` -/

@[simp] theorem State.withEng_params (e : Eng) : (s.withEng d e).params = s.params := rfl
@[simp] theorem State.withEng_host (e : Eng) : (s.withEng d e).host = s.host := rfl
@[simp] theorem State.withEng_mem (e : Eng) : (s.withEng d e).mem = s.mem := rfl
@[simp] theorem State.withEng_ring (e : Eng) : (s.withEng d e).ring = s.ring := rfl
@[simp] theorem State.withEng_eng (e : Eng) : (s.withEng d e).eng = s.eng.set d e := rfl
@[simp] theorem State.withEng_port (e : Eng) : (s.withEng d e).port = s.port := rfl
@[simp] theorem State.withEng_fifo (e : Eng) : (s.withEng d e).fifo = s.fifo := rfl
@[simp] theorem State.withEng_control (e : Eng) : (s.withEng d e).control = s.control := rfl
@[simp] theorem State.withEng_status (e : Eng) : (s.withEng d e).status = s.status := rfl
@[simp] theorem State.withEng_afp (e : Eng) : (s.withEng d e).afp = s.afp := rfl
@[simp] theorem State.withEng_turn (e : Eng) : (s.withEng d e).turn = s.turn := rfl
@[simp] theorem State.withEng_bus (e : Eng) : (s.withEng d e).bus = s.bus := rfl
@[simp] theorem State.withEng_line (e : Eng) : (s.withEng d e).line = s.line := rfl
@[simp] theorem State.withEng_freeIx (e : Eng) : (s.withEng d e).freeIx = s.freeIx := rfl
@[simp] theorem State.withEng_inputs (e : Eng) : (s.withEng d e).inputs = s.inputs := rfl
@[simp] theorem State.withEng_envIx (e : Eng) : (s.withEng d e).envIx = s.envIx := rfl
@[simp] theorem State.withEng_hostView (e : Eng) : (s.withEng d e).hostView = s.hostView := rfl
@[simp] theorem State.withEng_used (e : Eng) : (s.withEng d e).used = s.used := rfl

/-! ## After `withPort` -/

@[simp] theorem State.withPort_params (p : Port) : (s.withPort d p).params = s.params := rfl
@[simp] theorem State.withPort_host (p : Port) : (s.withPort d p).host = s.host := rfl
@[simp] theorem State.withPort_mem (p : Port) : (s.withPort d p).mem = s.mem := rfl
@[simp] theorem State.withPort_ring (p : Port) : (s.withPort d p).ring = s.ring := rfl
@[simp] theorem State.withPort_eng (p : Port) : (s.withPort d p).eng = s.eng := rfl
@[simp] theorem State.withPort_port (p : Port) : (s.withPort d p).port = s.port.set d p := rfl
@[simp] theorem State.withPort_fifo (p : Port) : (s.withPort d p).fifo = s.fifo := rfl
@[simp] theorem State.withPort_control (p : Port) : (s.withPort d p).control = s.control := rfl
@[simp] theorem State.withPort_status (p : Port) : (s.withPort d p).status = s.status := rfl
@[simp] theorem State.withPort_afp (p : Port) : (s.withPort d p).afp = s.afp := rfl
@[simp] theorem State.withPort_turn (p : Port) : (s.withPort d p).turn = s.turn := rfl
@[simp] theorem State.withPort_bus (p : Port) : (s.withPort d p).bus = s.bus := rfl
@[simp] theorem State.withPort_line (p : Port) : (s.withPort d p).line = s.line := rfl
@[simp] theorem State.withPort_freeIx (p : Port) : (s.withPort d p).freeIx = s.freeIx := rfl
@[simp] theorem State.withPort_inputs (p : Port) : (s.withPort d p).inputs = s.inputs := rfl
@[simp] theorem State.withPort_envIx (p : Port) : (s.withPort d p).envIx = s.envIx := rfl
@[simp] theorem State.withPort_hostView (p : Port) : (s.withPort d p).hostView = s.hostView := rfl
@[simp] theorem State.withPort_used (p : Port) : (s.withPort d p).used = s.used := rfl

/-! ## After `withFifo` -/

@[simp] theorem State.withFifo_params (f : Fifo) : (s.withFifo d f).params = s.params := rfl
@[simp] theorem State.withFifo_host (f : Fifo) : (s.withFifo d f).host = s.host := rfl
@[simp] theorem State.withFifo_mem (f : Fifo) : (s.withFifo d f).mem = s.mem := rfl
@[simp] theorem State.withFifo_ring (f : Fifo) : (s.withFifo d f).ring = s.ring := rfl
@[simp] theorem State.withFifo_eng (f : Fifo) : (s.withFifo d f).eng = s.eng := rfl
@[simp] theorem State.withFifo_port (f : Fifo) : (s.withFifo d f).port = s.port := rfl
@[simp] theorem State.withFifo_fifo (f : Fifo) : (s.withFifo d f).fifo = s.fifo.set d f := rfl
@[simp] theorem State.withFifo_control (f : Fifo) : (s.withFifo d f).control = s.control := rfl
@[simp] theorem State.withFifo_status (f : Fifo) : (s.withFifo d f).status = s.status := rfl
@[simp] theorem State.withFifo_afp (f : Fifo) : (s.withFifo d f).afp = s.afp := rfl
@[simp] theorem State.withFifo_turn (f : Fifo) : (s.withFifo d f).turn = s.turn := rfl
@[simp] theorem State.withFifo_bus (f : Fifo) : (s.withFifo d f).bus = s.bus := rfl
@[simp] theorem State.withFifo_line (f : Fifo) : (s.withFifo d f).line = s.line := rfl
@[simp] theorem State.withFifo_freeIx (f : Fifo) : (s.withFifo d f).freeIx = s.freeIx := rfl
@[simp] theorem State.withFifo_inputs (f : Fifo) : (s.withFifo d f).inputs = s.inputs := rfl
@[simp] theorem State.withFifo_envIx (f : Fifo) : (s.withFifo d f).envIx = s.envIx := rfl
@[simp] theorem State.withFifo_hostView (f : Fifo) : (s.withFifo d f).hostView = s.hostView := rfl
@[simp] theorem State.withFifo_used (f : Fifo) : (s.withFifo d f).used = s.used := rfl

/-! ## After `withMem` -/

@[simp] theorem State.withMem_params (m : Memory) : (s.withMem m).params = s.params := rfl
@[simp] theorem State.withMem_host (m : Memory) : (s.withMem m).host = s.host := rfl
@[simp] theorem State.withMem_mem (m : Memory) : (s.withMem m).mem = m := rfl
@[simp] theorem State.withMem_ring (m : Memory) : (s.withMem m).ring = s.ring := rfl
@[simp] theorem State.withMem_eng (m : Memory) : (s.withMem m).eng = s.eng := rfl
@[simp] theorem State.withMem_port (m : Memory) : (s.withMem m).port = s.port := rfl
@[simp] theorem State.withMem_fifo (m : Memory) : (s.withMem m).fifo = s.fifo := rfl
@[simp] theorem State.withMem_control (m : Memory) : (s.withMem m).control = s.control := rfl
@[simp] theorem State.withMem_status (m : Memory) : (s.withMem m).status = s.status := rfl
@[simp] theorem State.withMem_afp (m : Memory) : (s.withMem m).afp = s.afp := rfl
@[simp] theorem State.withMem_turn (m : Memory) : (s.withMem m).turn = s.turn := rfl
@[simp] theorem State.withMem_bus (m : Memory) : (s.withMem m).bus = s.bus := rfl
@[simp] theorem State.withMem_line (m : Memory) : (s.withMem m).line = s.line := rfl
@[simp] theorem State.withMem_freeIx (m : Memory) : (s.withMem m).freeIx = s.freeIx := rfl
@[simp] theorem State.withMem_inputs (m : Memory) : (s.withMem m).inputs = s.inputs := rfl
@[simp] theorem State.withMem_envIx (m : Memory) : (s.withMem m).envIx = s.envIx := rfl
@[simp] theorem State.withMem_hostView (m : Memory) : (s.withMem m).hostView = s.hostView := rfl
@[simp] theorem State.withMem_used (m : Memory) : (s.withMem m).used = s.used := rfl

/-! ## After `withAfp` -/

@[simp] theorem State.withAfp_params (a : Afp) : (s.withAfp a).params = s.params := rfl
@[simp] theorem State.withAfp_host (a : Afp) : (s.withAfp a).host = s.host := rfl
@[simp] theorem State.withAfp_mem (a : Afp) : (s.withAfp a).mem = s.mem := rfl
@[simp] theorem State.withAfp_ring (a : Afp) : (s.withAfp a).ring = s.ring := rfl
@[simp] theorem State.withAfp_eng (a : Afp) : (s.withAfp a).eng = s.eng := rfl
@[simp] theorem State.withAfp_port (a : Afp) : (s.withAfp a).port = s.port := rfl
@[simp] theorem State.withAfp_fifo (a : Afp) : (s.withAfp a).fifo = s.fifo := rfl
@[simp] theorem State.withAfp_control (a : Afp) : (s.withAfp a).control = s.control := rfl
@[simp] theorem State.withAfp_status (a : Afp) : (s.withAfp a).status = s.status := rfl
@[simp] theorem State.withAfp_afp (a : Afp) : (s.withAfp a).afp = a := rfl
@[simp] theorem State.withAfp_turn (a : Afp) : (s.withAfp a).turn = s.turn := rfl
@[simp] theorem State.withAfp_bus (a : Afp) : (s.withAfp a).bus = s.bus := rfl
@[simp] theorem State.withAfp_line (a : Afp) : (s.withAfp a).line = s.line := rfl
@[simp] theorem State.withAfp_freeIx (a : Afp) : (s.withAfp a).freeIx = s.freeIx := rfl
@[simp] theorem State.withAfp_inputs (a : Afp) : (s.withAfp a).inputs = s.inputs := rfl
@[simp] theorem State.withAfp_envIx (a : Afp) : (s.withAfp a).envIx = s.envIx := rfl
@[simp] theorem State.withAfp_hostView (a : Afp) : (s.withAfp a).hostView = s.hostView := rfl
@[simp] theorem State.withAfp_used (a : Afp) : (s.withAfp a).used = s.used := rfl

/-! ## After `withHost` -/

@[simp] theorem State.withHost_params (h : HostRegs) : (s.withHost h).params = s.params := rfl
@[simp] theorem State.withHost_host (h : HostRegs) : (s.withHost h).host = h := rfl
@[simp] theorem State.withHost_mem (h : HostRegs) : (s.withHost h).mem = s.mem := rfl
@[simp] theorem State.withHost_ring (h : HostRegs) : (s.withHost h).ring = s.ring := rfl
@[simp] theorem State.withHost_eng (h : HostRegs) : (s.withHost h).eng = s.eng := rfl
@[simp] theorem State.withHost_port (h : HostRegs) : (s.withHost h).port = s.port := rfl
@[simp] theorem State.withHost_fifo (h : HostRegs) : (s.withHost h).fifo = s.fifo := rfl
@[simp] theorem State.withHost_control (h : HostRegs) : (s.withHost h).control = s.control := rfl
@[simp] theorem State.withHost_status (h : HostRegs) : (s.withHost h).status = s.status := rfl
@[simp] theorem State.withHost_afp (h : HostRegs) : (s.withHost h).afp = s.afp := rfl
@[simp] theorem State.withHost_turn (h : HostRegs) : (s.withHost h).turn = s.turn := rfl
@[simp] theorem State.withHost_bus (h : HostRegs) : (s.withHost h).bus = s.bus := rfl
@[simp] theorem State.withHost_line (h : HostRegs) : (s.withHost h).line = s.line := rfl
@[simp] theorem State.withHost_freeIx (h : HostRegs) : (s.withHost h).freeIx = s.freeIx := rfl
@[simp] theorem State.withHost_inputs (h : HostRegs) : (s.withHost h).inputs = s.inputs := rfl
@[simp] theorem State.withHost_envIx (h : HostRegs) : (s.withHost h).envIx = s.envIx := rfl
@[simp] theorem State.withHost_hostView (h : HostRegs) : (s.withHost h).hostView = s.hostView := rfl
@[simp] theorem State.withHost_used (h : HostRegs) : (s.withHost h).used = s.used := rfl

/-! ## After `withTurn` -/

@[simp] theorem State.withTurn_params : (s.withTurn d).params = s.params := rfl
@[simp] theorem State.withTurn_host : (s.withTurn d).host = s.host := rfl
@[simp] theorem State.withTurn_mem : (s.withTurn d).mem = s.mem := rfl
@[simp] theorem State.withTurn_ring : (s.withTurn d).ring = s.ring := rfl
@[simp] theorem State.withTurn_eng : (s.withTurn d).eng = s.eng := rfl
@[simp] theorem State.withTurn_port : (s.withTurn d).port = s.port := rfl
@[simp] theorem State.withTurn_fifo : (s.withTurn d).fifo = s.fifo := rfl
@[simp] theorem State.withTurn_control : (s.withTurn d).control = s.control := rfl
@[simp] theorem State.withTurn_status : (s.withTurn d).status = s.status := rfl
@[simp] theorem State.withTurn_afp : (s.withTurn d).afp = s.afp := rfl
@[simp] theorem State.withTurn_turn : (s.withTurn d).turn = d := rfl
@[simp] theorem State.withTurn_bus : (s.withTurn d).bus = s.bus := rfl
@[simp] theorem State.withTurn_line : (s.withTurn d).line = s.line := rfl
@[simp] theorem State.withTurn_freeIx : (s.withTurn d).freeIx = s.freeIx := rfl
@[simp] theorem State.withTurn_inputs : (s.withTurn d).inputs = s.inputs := rfl
@[simp] theorem State.withTurn_envIx : (s.withTurn d).envIx = s.envIx := rfl
@[simp] theorem State.withTurn_hostView : (s.withTurn d).hostView = s.hostView := rfl
@[simp] theorem State.withTurn_used : (s.withTurn d).used = s.used := rfl

/-! ## After `withBus` -/

@[simp] theorem State.withBus_params (b : PerDir PortIn) : (s.withBus b).params = s.params := rfl
@[simp] theorem State.withBus_host (b : PerDir PortIn) : (s.withBus b).host = s.host := rfl
@[simp] theorem State.withBus_mem (b : PerDir PortIn) : (s.withBus b).mem = s.mem := rfl
@[simp] theorem State.withBus_ring (b : PerDir PortIn) : (s.withBus b).ring = s.ring := rfl
@[simp] theorem State.withBus_eng (b : PerDir PortIn) : (s.withBus b).eng = s.eng := rfl
@[simp] theorem State.withBus_port (b : PerDir PortIn) : (s.withBus b).port = s.port := rfl
@[simp] theorem State.withBus_fifo (b : PerDir PortIn) : (s.withBus b).fifo = s.fifo := rfl
@[simp] theorem State.withBus_control (b : PerDir PortIn) : (s.withBus b).control = s.control := rfl
@[simp] theorem State.withBus_status (b : PerDir PortIn) : (s.withBus b).status = s.status := rfl
@[simp] theorem State.withBus_afp (b : PerDir PortIn) : (s.withBus b).afp = s.afp := rfl
@[simp] theorem State.withBus_turn (b : PerDir PortIn) : (s.withBus b).turn = s.turn := rfl
@[simp] theorem State.withBus_bus (b : PerDir PortIn) : (s.withBus b).bus = b := rfl
@[simp] theorem State.withBus_line (b : PerDir PortIn) : (s.withBus b).line = s.line := rfl
@[simp] theorem State.withBus_freeIx (b : PerDir PortIn) : (s.withBus b).freeIx = s.freeIx := rfl
@[simp] theorem State.withBus_inputs (b : PerDir PortIn) : (s.withBus b).inputs = s.inputs := rfl
@[simp] theorem State.withBus_envIx (b : PerDir PortIn) : (s.withBus b).envIx = s.envIx := rfl
@[simp] theorem State.withBus_hostView (b : PerDir PortIn) : (s.withBus b).hostView = s.hostView := rfl
@[simp] theorem State.withBus_used (b : PerDir PortIn) : (s.withBus b).used = s.used := rfl

/-! ## After `withUsed` -/

@[simp] theorem State.withUsed_params (u : List Footprint) : (s.withUsed d u).params = s.params := rfl
@[simp] theorem State.withUsed_host (u : List Footprint) : (s.withUsed d u).host = s.host := rfl
@[simp] theorem State.withUsed_mem (u : List Footprint) : (s.withUsed d u).mem = s.mem := rfl
@[simp] theorem State.withUsed_ring (u : List Footprint) : (s.withUsed d u).ring = s.ring := rfl
@[simp] theorem State.withUsed_eng (u : List Footprint) : (s.withUsed d u).eng = s.eng := rfl
@[simp] theorem State.withUsed_port (u : List Footprint) : (s.withUsed d u).port = s.port := rfl
@[simp] theorem State.withUsed_fifo (u : List Footprint) : (s.withUsed d u).fifo = s.fifo := rfl
@[simp] theorem State.withUsed_control (u : List Footprint) : (s.withUsed d u).control = s.control := rfl
@[simp] theorem State.withUsed_status (u : List Footprint) : (s.withUsed d u).status = s.status := rfl
@[simp] theorem State.withUsed_afp (u : List Footprint) : (s.withUsed d u).afp = s.afp := rfl
@[simp] theorem State.withUsed_turn (u : List Footprint) : (s.withUsed d u).turn = s.turn := rfl
@[simp] theorem State.withUsed_bus (u : List Footprint) : (s.withUsed d u).bus = s.bus := rfl
@[simp] theorem State.withUsed_line (u : List Footprint) : (s.withUsed d u).line = s.line := rfl
@[simp] theorem State.withUsed_freeIx (u : List Footprint) : (s.withUsed d u).freeIx = s.freeIx := rfl
@[simp] theorem State.withUsed_inputs (u : List Footprint) : (s.withUsed d u).inputs = s.inputs := rfl
@[simp] theorem State.withUsed_envIx (u : List Footprint) : (s.withUsed d u).envIx = s.envIx := rfl
@[simp] theorem State.withUsed_hostView (u : List Footprint) : (s.withUsed d u).hostView = s.hostView := rfl
@[simp] theorem State.withUsed_used (u : List Footprint) : (s.withUsed d u).used = s.used.set d u := rfl

/-! ## After `drawn` -/

@[simp] theorem State.drawn_params : s.drawn.params = s.params := rfl
@[simp] theorem State.drawn_host : s.drawn.host = s.host := rfl
@[simp] theorem State.drawn_mem : s.drawn.mem = s.mem := rfl
@[simp] theorem State.drawn_ring : s.drawn.ring = s.ring := rfl
@[simp] theorem State.drawn_eng : s.drawn.eng = s.eng := rfl
@[simp] theorem State.drawn_port : s.drawn.port = s.port := rfl
@[simp] theorem State.drawn_fifo : s.drawn.fifo = s.fifo := rfl
@[simp] theorem State.drawn_control : s.drawn.control = s.control := rfl
@[simp] theorem State.drawn_status : s.drawn.status = s.status := rfl
@[simp] theorem State.drawn_afp : s.drawn.afp = s.afp := rfl
@[simp] theorem State.drawn_turn : s.drawn.turn = s.turn := rfl
@[simp] theorem State.drawn_bus : s.drawn.bus = s.bus := rfl
@[simp] theorem State.drawn_line : s.drawn.line = s.line := rfl
@[simp] theorem State.drawn_freeIx : s.drawn.freeIx = s.freeIx + 1 := rfl
@[simp] theorem State.drawn_inputs : s.drawn.inputs = s.inputs := rfl
@[simp] theorem State.drawn_envIx : s.drawn.envIx = s.envIx := rfl
@[simp] theorem State.drawn_hostView : s.drawn.hostView = s.hostView := rfl
@[simp] theorem State.drawn_used : s.drawn.used = s.used := rfl

/-! ## The named updates -/

@[simp] theorem setState_params (st : EngState) : (setState d st s).params = s.params := rfl
@[simp] theorem setState_host (st : EngState) : (setState d st s).host = s.host := rfl
@[simp] theorem setState_mem (st : EngState) : (setState d st s).mem = s.mem := rfl
@[simp] theorem setState_ring (st : EngState) : (setState d st s).ring = s.ring := rfl
@[simp] theorem setState_eng (st : EngState) : (setState d st s).eng = s.eng.set d { s.eng.get d with st := st } := rfl
@[simp] theorem setState_port (st : EngState) : (setState d st s).port = s.port := rfl
@[simp] theorem setState_fifo (st : EngState) : (setState d st s).fifo = s.fifo := rfl
@[simp] theorem setState_control (st : EngState) : (setState d st s).control = s.control := rfl
@[simp] theorem setState_status (st : EngState) : (setState d st s).status = s.status := rfl
@[simp] theorem setState_afp (st : EngState) : (setState d st s).afp = s.afp := rfl
@[simp] theorem setState_turn (st : EngState) : (setState d st s).turn = s.turn := rfl
@[simp] theorem setState_bus (st : EngState) : (setState d st s).bus = s.bus := rfl
@[simp] theorem setState_line (st : EngState) : (setState d st s).line = s.line := rfl
@[simp] theorem setState_freeIx (st : EngState) : (setState d st s).freeIx = s.freeIx := rfl
@[simp] theorem setState_inputs (st : EngState) : (setState d st s).inputs = s.inputs := rfl
@[simp] theorem setState_envIx (st : EngState) : (setState d st s).envIx = s.envIx := rfl
@[simp] theorem setState_hostView (st : EngState) : (setState d st s).hostView = s.hostView := rfl
@[simp] theorem setState_used (st : EngState) : (setState d st s).used = s.used := rfl

end Machine

end Sys2Proof
end

