-- ==== Sys2Proof/Laws/Ops.lean ====
section
/-! SUPPORT. Laws/Ops.lean: what each shared operation over the state writes, and that it writes nothing else. -/

namespace Sys2Proof.Machine

variable (s : State) (d : Dir)

/-! ## `writeSig` -/

@[simp] theorem writeSig_params (v : Bool) : (writeSig d v s).params = s.params := rfl
@[simp] theorem writeSig_host (v : Bool) : (writeSig d v s).host = s.host := rfl
@[simp] theorem writeSig_mem (v : Bool) : (writeSig d v s).mem = s.mem := rfl
@[simp] theorem writeSig_ring (v : Bool) : (writeSig d v s).ring = s.ring := rfl
@[simp] theorem writeSig_eng (v : Bool) : (writeSig d v s).eng = s.eng.set d { s.eng.get d with
    completeSig := v, completeEdges := (s.eng.get d).completeEdges + edgeOf (s.eng.get d).completeSig v } := rfl
@[simp] theorem writeSig_port (v : Bool) : (writeSig d v s).port = s.port := rfl
@[simp] theorem writeSig_fifo (v : Bool) : (writeSig d v s).fifo = s.fifo := rfl
@[simp] theorem writeSig_control (v : Bool) : (writeSig d v s).control = s.control := rfl
@[simp] theorem writeSig_status (v : Bool) : (writeSig d v s).status = s.status := rfl
@[simp] theorem writeSig_afp (v : Bool) : (writeSig d v s).afp = s.afp := rfl
@[simp] theorem writeSig_turn (v : Bool) : (writeSig d v s).turn = s.turn := rfl
@[simp] theorem writeSig_bus (v : Bool) : (writeSig d v s).bus = s.bus := rfl
@[simp] theorem writeSig_line (v : Bool) : (writeSig d v s).line = s.line := rfl
@[simp] theorem writeSig_freeIx (v : Bool) : (writeSig d v s).freeIx = s.freeIx := rfl
@[simp] theorem writeSig_inputs (v : Bool) : (writeSig d v s).inputs = s.inputs := rfl
@[simp] theorem writeSig_envIx (v : Bool) : (writeSig d v s).envIx = s.envIx := rfl
@[simp] theorem writeSig_hostView (v : Bool) : (writeSig d v s).hostView = s.hostView := rfl
@[simp] theorem writeSig_used (v : Bool) : (writeSig d v s).used = s.used := rfl

/-! ## `countWord` -/

@[simp] theorem countWord_params (b : Bool) : (countWord d b s).params = s.params := rfl
@[simp] theorem countWord_host (b : Bool) : (countWord d b s).host = s.host := rfl
@[simp] theorem countWord_mem (b : Bool) : (countWord d b s).mem = s.mem := rfl
@[simp] theorem countWord_ring (b : Bool) : (countWord d b s).ring = s.ring := rfl
@[simp] theorem countWord_eng (b : Bool) : (countWord d b s).eng = s.eng.set d { s.eng.get d with
    burstCnt := (s.eng.get d).burstCnt + 1, st := if b then .updateDescriptor else (s.eng.get d).st } := rfl
@[simp] theorem countWord_port (b : Bool) : (countWord d b s).port = s.port := rfl
@[simp] theorem countWord_fifo (b : Bool) : (countWord d b s).fifo = s.fifo := rfl
@[simp] theorem countWord_control (b : Bool) : (countWord d b s).control = s.control := rfl
@[simp] theorem countWord_status (b : Bool) : (countWord d b s).status = s.status := rfl
@[simp] theorem countWord_afp (b : Bool) : (countWord d b s).afp = s.afp := rfl
@[simp] theorem countWord_turn (b : Bool) : (countWord d b s).turn = s.turn := rfl
@[simp] theorem countWord_bus (b : Bool) : (countWord d b s).bus = s.bus := rfl
@[simp] theorem countWord_line (b : Bool) : (countWord d b s).line = s.line := rfl
@[simp] theorem countWord_freeIx (b : Bool) : (countWord d b s).freeIx = s.freeIx := rfl
@[simp] theorem countWord_inputs (b : Bool) : (countWord d b s).inputs = s.inputs := rfl
@[simp] theorem countWord_envIx (b : Bool) : (countWord d b s).envIx = s.envIx := rfl
@[simp] theorem countWord_hostView (b : Bool) : (countWord d b s).hostView = s.hostView := rfl
@[simp] theorem countWord_used (b : Bool) : (countWord d b s).used = s.used := rfl

/-! ## `setIndex` -/

@[simp] theorem setIndex_params (i : Nat) : (setIndex d i s).params = s.params := rfl
@[simp] theorem setIndex_host (i : Nat) : (setIndex d i s).host = s.host := rfl
@[simp] theorem setIndex_mem (i : Nat) : (setIndex d i s).mem = s.mem := rfl
@[simp] theorem setIndex_ring (i : Nat) : (setIndex d i s).ring = s.ring.set d { s.ring.get d with currentIndex := i } := rfl
@[simp] theorem setIndex_eng (i : Nat) : (setIndex d i s).eng = s.eng := rfl
@[simp] theorem setIndex_port (i : Nat) : (setIndex d i s).port = s.port := rfl
@[simp] theorem setIndex_fifo (i : Nat) : (setIndex d i s).fifo = s.fifo := rfl
@[simp] theorem setIndex_control (i : Nat) : (setIndex d i s).control = s.control := rfl
@[simp] theorem setIndex_status (i : Nat) : (setIndex d i s).status = s.status := rfl
@[simp] theorem setIndex_afp (i : Nat) : (setIndex d i s).afp = s.afp := rfl
@[simp] theorem setIndex_turn (i : Nat) : (setIndex d i s).turn = s.turn := rfl
@[simp] theorem setIndex_bus (i : Nat) : (setIndex d i s).bus = s.bus := rfl
@[simp] theorem setIndex_line (i : Nat) : (setIndex d i s).line = s.line := rfl
@[simp] theorem setIndex_freeIx (i : Nat) : (setIndex d i s).freeIx = s.freeIx := rfl
@[simp] theorem setIndex_inputs (i : Nat) : (setIndex d i s).inputs = s.inputs := rfl
@[simp] theorem setIndex_envIx (i : Nat) : (setIndex d i s).envIx = s.envIx := rfl
@[simp] theorem setIndex_hostView (i : Nat) : (setIndex d i s).hostView = s.hostView := rfl
@[simp] theorem setIndex_used (i : Nat) : (setIndex d i s).used = s.used := rfl

/-! ## `setActive` -/

@[simp] theorem setActive_params (n : Nat) : (setActive d n s).params = s.params := rfl
@[simp] theorem setActive_host (n : Nat) : (setActive d n s).host = s.host := rfl
@[simp] theorem setActive_mem (n : Nat) : (setActive d n s).mem = s.mem := rfl
@[simp] theorem setActive_ring (n : Nat) : (setActive d n s).ring = s.ring.set d { s.ring.get d with activeCount := n } := rfl
@[simp] theorem setActive_eng (n : Nat) : (setActive d n s).eng = s.eng := rfl
@[simp] theorem setActive_port (n : Nat) : (setActive d n s).port = s.port := rfl
@[simp] theorem setActive_fifo (n : Nat) : (setActive d n s).fifo = s.fifo := rfl
@[simp] theorem setActive_control (n : Nat) : (setActive d n s).control = s.control := rfl
@[simp] theorem setActive_status (n : Nat) : (setActive d n s).status = s.status := rfl
@[simp] theorem setActive_afp (n : Nat) : (setActive d n s).afp = s.afp := rfl
@[simp] theorem setActive_turn (n : Nat) : (setActive d n s).turn = s.turn := rfl
@[simp] theorem setActive_bus (n : Nat) : (setActive d n s).bus = s.bus := rfl
@[simp] theorem setActive_line (n : Nat) : (setActive d n s).line = s.line := rfl
@[simp] theorem setActive_freeIx (n : Nat) : (setActive d n s).freeIx = s.freeIx := rfl
@[simp] theorem setActive_inputs (n : Nat) : (setActive d n s).inputs = s.inputs := rfl
@[simp] theorem setActive_envIx (n : Nat) : (setActive d n s).envIx = s.envIx := rfl
@[simp] theorem setActive_hostView (n : Nat) : (setActive d n s).hostView = s.hostView := rfl
@[simp] theorem setActive_used (n : Nat) : (setActive d n s).used = s.used := rfl

/-! ## `markComplete` -/

@[simp] theorem markComplete_params (n : Nat) : (markComplete d n s).params = s.params := rfl
@[simp] theorem markComplete_host (n : Nat) : (markComplete d n s).host = s.host := rfl
@[simp] theorem markComplete_mem (n : Nat) : (markComplete d n s).mem = s.mem := rfl
@[simp] theorem markComplete_ring (n : Nat) : (markComplete d n s).ring = s.ring.set d { s.ring.get d with
    complete := (s.ring.get d).complete.set (s.ring.get d).currentIndex true
    bytesProcessed := ((s.ring.get d).bytesProcessed + n) % 2 ^ s.params.bytesW } := rfl
@[simp] theorem markComplete_eng (n : Nat) : (markComplete d n s).eng = s.eng := rfl
@[simp] theorem markComplete_port (n : Nat) : (markComplete d n s).port = s.port := rfl
@[simp] theorem markComplete_fifo (n : Nat) : (markComplete d n s).fifo = s.fifo := rfl
@[simp] theorem markComplete_control (n : Nat) : (markComplete d n s).control = s.control := rfl
@[simp] theorem markComplete_status (n : Nat) : (markComplete d n s).status = s.status := rfl
@[simp] theorem markComplete_afp (n : Nat) : (markComplete d n s).afp = s.afp := rfl
@[simp] theorem markComplete_turn (n : Nat) : (markComplete d n s).turn = s.turn := rfl
@[simp] theorem markComplete_bus (n : Nat) : (markComplete d n s).bus = s.bus := rfl
@[simp] theorem markComplete_line (n : Nat) : (markComplete d n s).line = s.line := rfl
@[simp] theorem markComplete_freeIx (n : Nat) : (markComplete d n s).freeIx = s.freeIx := rfl
@[simp] theorem markComplete_inputs (n : Nat) : (markComplete d n s).inputs = s.inputs := rfl
@[simp] theorem markComplete_envIx (n : Nat) : (markComplete d n s).envIx = s.envIx := rfl
@[simp] theorem markComplete_hostView (n : Nat) : (markComplete d n s).hostView = s.hostView := rfl
@[simp] theorem markComplete_used (n : Nat) : (markComplete d n s).used = s.used := rfl

/-! ## `recordUse` -/

@[simp] theorem recordUse_params (desc : Desc) : (recordUse d desc s).params = s.params := rfl
@[simp] theorem recordUse_host (desc : Desc) : (recordUse d desc s).host = s.host := rfl
@[simp] theorem recordUse_mem (desc : Desc) : (recordUse d desc s).mem = s.mem := rfl
@[simp] theorem recordUse_ring (desc : Desc) : (recordUse d desc s).ring = s.ring := rfl
@[simp] theorem recordUse_eng (desc : Desc) : (recordUse d desc s).eng = s.eng := rfl
@[simp] theorem recordUse_port (desc : Desc) : (recordUse d desc s).port = s.port := rfl
@[simp] theorem recordUse_fifo (desc : Desc) : (recordUse d desc s).fifo = s.fifo := rfl
@[simp] theorem recordUse_control (desc : Desc) : (recordUse d desc s).control = s.control := rfl
@[simp] theorem recordUse_status (desc : Desc) : (recordUse d desc s).status = s.status := rfl
@[simp] theorem recordUse_afp (desc : Desc) : (recordUse d desc s).afp = s.afp := rfl
@[simp] theorem recordUse_turn (desc : Desc) : (recordUse d desc s).turn = s.turn := rfl
@[simp] theorem recordUse_bus (desc : Desc) : (recordUse d desc s).bus = s.bus := rfl
@[simp] theorem recordUse_line (desc : Desc) : (recordUse d desc s).line = s.line := rfl
@[simp] theorem recordUse_freeIx (desc : Desc) : (recordUse d desc s).freeIx = s.freeIx := rfl
@[simp] theorem recordUse_inputs (desc : Desc) : (recordUse d desc s).inputs = s.inputs := rfl
@[simp] theorem recordUse_envIx (desc : Desc) : (recordUse d desc s).envIx = s.envIx := rfl
@[simp] theorem recordUse_hostView (desc : Desc) : (recordUse d desc s).hostView = s.hostView := rfl
@[simp] theorem recordUse_used (desc : Desc) : (recordUse d desc s).used =
    s.used.set d (s.used.get d ++ [footprint s d (s.ring.get d).currentIndex desc]) := rfl

/-! ## `dropAhead` -/

@[simp] theorem dropAhead_params : (dropAhead s).params = s.params := rfl
@[simp] theorem dropAhead_host : (dropAhead s).host = s.host := rfl
@[simp] theorem dropAhead_mem : (dropAhead s).mem = s.mem := rfl
@[simp] theorem dropAhead_ring : (dropAhead s).ring = s.ring := rfl
@[simp] theorem dropAhead_eng : (dropAhead s).eng = s.eng := rfl
@[simp] theorem dropAhead_port : (dropAhead s).port = s.port.set .pb { s.port.pb with rdAhead := s.port.pb.rdAhead.tail } := rfl
@[simp] theorem dropAhead_fifo : (dropAhead s).fifo = s.fifo := rfl
@[simp] theorem dropAhead_control : (dropAhead s).control = s.control := rfl
@[simp] theorem dropAhead_status : (dropAhead s).status = s.status := rfl
@[simp] theorem dropAhead_afp : (dropAhead s).afp = s.afp := rfl
@[simp] theorem dropAhead_turn : (dropAhead s).turn = s.turn := rfl
@[simp] theorem dropAhead_bus : (dropAhead s).bus = s.bus := rfl
@[simp] theorem dropAhead_line : (dropAhead s).line = s.line := rfl
@[simp] theorem dropAhead_freeIx : (dropAhead s).freeIx = s.freeIx := rfl
@[simp] theorem dropAhead_inputs : (dropAhead s).inputs = s.inputs := rfl
@[simp] theorem dropAhead_envIx : (dropAhead s).envIx = s.envIx := rfl
@[simp] theorem dropAhead_hostView : (dropAhead s).hostView = s.hostView := rfl
@[simp] theorem dropAhead_used : (dropAhead s).used = s.used := rfl

/-! ## `handWrite` -/

@[simp] theorem handWrite_params (w : PendingWrite) : (handWrite w s).params = s.params := rfl
@[simp] theorem handWrite_host (w : PendingWrite) : (handWrite w s).host = s.host := rfl
@[simp] theorem handWrite_mem (w : PendingWrite) : (handWrite w s).mem = s.mem := rfl
@[simp] theorem handWrite_ring (w : PendingWrite) : (handWrite w s).ring = s.ring := rfl
@[simp] theorem handWrite_eng (w : PendingWrite) : (handWrite w s).eng = s.eng := rfl
@[simp] theorem handWrite_port (w : PendingWrite) : (handWrite w s).port = s.port.set .cap { s.port.cap with pending := s.port.cap.pending ++ [w] } := rfl
@[simp] theorem handWrite_fifo (w : PendingWrite) : (handWrite w s).fifo = s.fifo := rfl
@[simp] theorem handWrite_control (w : PendingWrite) : (handWrite w s).control = s.control := rfl
@[simp] theorem handWrite_status (w : PendingWrite) : (handWrite w s).status = s.status := rfl
@[simp] theorem handWrite_afp (w : PendingWrite) : (handWrite w s).afp = s.afp := rfl
@[simp] theorem handWrite_turn (w : PendingWrite) : (handWrite w s).turn = s.turn := rfl
@[simp] theorem handWrite_bus (w : PendingWrite) : (handWrite w s).bus = s.bus := rfl
@[simp] theorem handWrite_line (w : PendingWrite) : (handWrite w s).line = s.line := rfl
@[simp] theorem handWrite_freeIx (w : PendingWrite) : (handWrite w s).freeIx = s.freeIx := rfl
@[simp] theorem handWrite_inputs (w : PendingWrite) : (handWrite w s).inputs = s.inputs := rfl
@[simp] theorem handWrite_envIx (w : PendingWrite) : (handWrite w s).envIx = s.envIx := rfl
@[simp] theorem handWrite_hostView (w : PendingWrite) : (handWrite w s).hostView = s.hostView := rfl
@[simp] theorem handWrite_used (w : PendingWrite) : (handWrite w s).used = s.used := rfl

/-! ## `pushFrame .pb fr s` -/

@[simp] theorem pushFrame_pb_params (fr : Frame) : (pushFrame .pb fr s).params = s.params := by unfold pushFrame; dsimp only; split <;> rfl
@[simp] theorem pushFrame_pb_host (fr : Frame) : (pushFrame .pb fr s).host = s.host := by unfold pushFrame; dsimp only; split <;> rfl
@[simp] theorem pushFrame_pb_mem (fr : Frame) : (pushFrame .pb fr s).mem = s.mem := by unfold pushFrame; dsimp only; split <;> rfl
@[simp] theorem pushFrame_pb_ring (fr : Frame) : (pushFrame .pb fr s).ring = s.ring := by unfold pushFrame; dsimp only; split <;> rfl
@[simp] theorem pushFrame_pb_eng (fr : Frame) : (pushFrame .pb fr s).eng = s.eng := by unfold pushFrame; dsimp only; split <;> rfl
@[simp] theorem pushFrame_pb_port (fr : Frame) : (pushFrame .pb fr s).port = s.port := by unfold pushFrame; dsimp only; split <;> rfl
@[simp] theorem pushFrame_pb_control (fr : Frame) : (pushFrame .pb fr s).control = s.control := by unfold pushFrame; dsimp only; split <;> rfl
@[simp] theorem pushFrame_pb_status (fr : Frame) : (pushFrame .pb fr s).status = s.status := by unfold pushFrame; dsimp only; split <;> rfl
@[simp] theorem pushFrame_pb_afp (fr : Frame) : (pushFrame .pb fr s).afp = s.afp := by unfold pushFrame; dsimp only; split <;> rfl
@[simp] theorem pushFrame_pb_turn (fr : Frame) : (pushFrame .pb fr s).turn = s.turn := by unfold pushFrame; dsimp only; split <;> rfl
@[simp] theorem pushFrame_pb_bus (fr : Frame) : (pushFrame .pb fr s).bus = s.bus := by unfold pushFrame; dsimp only; split <;> rfl
@[simp] theorem pushFrame_pb_line (fr : Frame) : (pushFrame .pb fr s).line = s.line := by unfold pushFrame; dsimp only; split <;> rfl
@[simp] theorem pushFrame_pb_freeIx (fr : Frame) : (pushFrame .pb fr s).freeIx = s.freeIx := by unfold pushFrame; dsimp only; split <;> rfl
@[simp] theorem pushFrame_pb_inputs (fr : Frame) : (pushFrame .pb fr s).inputs = s.inputs := by unfold pushFrame; dsimp only; split <;> rfl
@[simp] theorem pushFrame_pb_envIx (fr : Frame) : (pushFrame .pb fr s).envIx = s.envIx := by unfold pushFrame; dsimp only; split <;> rfl
@[simp] theorem pushFrame_pb_hostView (fr : Frame) : (pushFrame .pb fr s).hostView = s.hostView := by unfold pushFrame; dsimp only; split <;> rfl
@[simp] theorem pushFrame_pb_used (fr : Frame) : (pushFrame .pb fr s).used = s.used := by unfold pushFrame; dsimp only; split <;> rfl

/-! ## `pushFrame .cap fr s` -/

@[simp] theorem pushFrame_cap_params (fr : Frame) : (pushFrame .cap fr s).params = s.params := by unfold pushFrame; dsimp only; split <;> rfl
@[simp] theorem pushFrame_cap_host (fr : Frame) : (pushFrame .cap fr s).host = s.host := by unfold pushFrame; dsimp only; split <;> rfl
@[simp] theorem pushFrame_cap_mem (fr : Frame) : (pushFrame .cap fr s).mem = s.mem := by unfold pushFrame; dsimp only; split <;> rfl
@[simp] theorem pushFrame_cap_ring (fr : Frame) : (pushFrame .cap fr s).ring = s.ring := by unfold pushFrame; dsimp only; split <;> rfl
@[simp] theorem pushFrame_cap_eng (fr : Frame) : (pushFrame .cap fr s).eng = s.eng := by unfold pushFrame; dsimp only; split <;> rfl
@[simp] theorem pushFrame_cap_port (fr : Frame) : (pushFrame .cap fr s).port = s.port := by unfold pushFrame; dsimp only; split <;> rfl
@[simp] theorem pushFrame_cap_control (fr : Frame) : (pushFrame .cap fr s).control = s.control := by unfold pushFrame; dsimp only; split <;> rfl
@[simp] theorem pushFrame_cap_status (fr : Frame) : (pushFrame .cap fr s).status = s.status := by unfold pushFrame; dsimp only; split <;> rfl
@[simp] theorem pushFrame_cap_turn (fr : Frame) : (pushFrame .cap fr s).turn = s.turn := by unfold pushFrame; dsimp only; split <;> rfl
@[simp] theorem pushFrame_cap_bus (fr : Frame) : (pushFrame .cap fr s).bus = s.bus := by unfold pushFrame; dsimp only; split <;> rfl
@[simp] theorem pushFrame_cap_line (fr : Frame) : (pushFrame .cap fr s).line = s.line := by unfold pushFrame; dsimp only; split <;> rfl
@[simp] theorem pushFrame_cap_freeIx (fr : Frame) : (pushFrame .cap fr s).freeIx = s.freeIx := by unfold pushFrame; dsimp only; split <;> rfl
@[simp] theorem pushFrame_cap_inputs (fr : Frame) : (pushFrame .cap fr s).inputs = s.inputs := by unfold pushFrame; dsimp only; split <;> rfl
@[simp] theorem pushFrame_cap_envIx (fr : Frame) : (pushFrame .cap fr s).envIx = s.envIx := by unfold pushFrame; dsimp only; split <;> rfl
@[simp] theorem pushFrame_cap_hostView (fr : Frame) : (pushFrame .cap fr s).hostView = s.hostView := by unfold pushFrame; dsimp only; split <;> rfl
@[simp] theorem pushFrame_cap_used (fr : Frame) : (pushFrame .cap fr s).used = s.used := by unfold pushFrame; dsimp only; split <;> rfl

/-! ## `(popFrame .cap s).2` -/

@[simp] theorem popFrame_cap_params : ((popFrame .cap s).2).params = s.params := by unfold popFrame; dsimp only; split <;> rfl
@[simp] theorem popFrame_cap_host : ((popFrame .cap s).2).host = s.host := by unfold popFrame; dsimp only; split <;> rfl
@[simp] theorem popFrame_cap_mem : ((popFrame .cap s).2).mem = s.mem := by unfold popFrame; dsimp only; split <;> rfl
@[simp] theorem popFrame_cap_ring : ((popFrame .cap s).2).ring = s.ring := by unfold popFrame; dsimp only; split <;> rfl
@[simp] theorem popFrame_cap_eng : ((popFrame .cap s).2).eng = s.eng := by unfold popFrame; dsimp only; split <;> rfl
@[simp] theorem popFrame_cap_port : ((popFrame .cap s).2).port = s.port := by unfold popFrame; dsimp only; split <;> rfl
@[simp] theorem popFrame_cap_control : ((popFrame .cap s).2).control = s.control := by unfold popFrame; dsimp only; split <;> rfl
@[simp] theorem popFrame_cap_status : ((popFrame .cap s).2).status = s.status := by unfold popFrame; dsimp only; split <;> rfl
@[simp] theorem popFrame_cap_afp : ((popFrame .cap s).2).afp = s.afp := by unfold popFrame; dsimp only; split <;> rfl
@[simp] theorem popFrame_cap_turn : ((popFrame .cap s).2).turn = s.turn := by unfold popFrame; dsimp only; split <;> rfl
@[simp] theorem popFrame_cap_bus : ((popFrame .cap s).2).bus = s.bus := by unfold popFrame; dsimp only; split <;> rfl
@[simp] theorem popFrame_cap_line : ((popFrame .cap s).2).line = s.line := by unfold popFrame; dsimp only; split <;> rfl
@[simp] theorem popFrame_cap_freeIx : ((popFrame .cap s).2).freeIx = s.freeIx := by unfold popFrame; dsimp only; split <;> rfl
@[simp] theorem popFrame_cap_inputs : ((popFrame .cap s).2).inputs = s.inputs := by unfold popFrame; dsimp only; split <;> rfl
@[simp] theorem popFrame_cap_envIx : ((popFrame .cap s).2).envIx = s.envIx := by unfold popFrame; dsimp only; split <;> rfl
@[simp] theorem popFrame_cap_hostView : ((popFrame .cap s).2).hostView = s.hostView := by unfold popFrame; dsimp only; split <;> rfl
@[simp] theorem popFrame_cap_used : ((popFrame .cap s).2).used = s.used := by unfold popFrame; dsimp only; split <;> rfl

/-! ## `(popFrame .pb s).2` -/

@[simp] theorem popFrame_pb_params : ((popFrame .pb s).2).params = s.params := by unfold popFrame; dsimp only; split <;> rfl
@[simp] theorem popFrame_pb_host : ((popFrame .pb s).2).host = s.host := by unfold popFrame; dsimp only; split <;> rfl
@[simp] theorem popFrame_pb_mem : ((popFrame .pb s).2).mem = s.mem := by unfold popFrame; dsimp only; split <;> rfl
@[simp] theorem popFrame_pb_ring : ((popFrame .pb s).2).ring = s.ring := by unfold popFrame; dsimp only; split <;> rfl
@[simp] theorem popFrame_pb_eng : ((popFrame .pb s).2).eng = s.eng := by unfold popFrame; dsimp only; split <;> rfl
@[simp] theorem popFrame_pb_port : ((popFrame .pb s).2).port = s.port := by unfold popFrame; dsimp only; split <;> rfl
@[simp] theorem popFrame_pb_control : ((popFrame .pb s).2).control = s.control := by unfold popFrame; dsimp only; split <;> rfl
@[simp] theorem popFrame_pb_status : ((popFrame .pb s).2).status = s.status := by unfold popFrame; dsimp only; split <;> rfl
@[simp] theorem popFrame_pb_turn : ((popFrame .pb s).2).turn = s.turn := by unfold popFrame; dsimp only; split <;> rfl
@[simp] theorem popFrame_pb_bus : ((popFrame .pb s).2).bus = s.bus := by unfold popFrame; dsimp only; split <;> rfl
@[simp] theorem popFrame_pb_line : ((popFrame .pb s).2).line = s.line := by unfold popFrame; dsimp only; split <;> rfl
@[simp] theorem popFrame_pb_freeIx : ((popFrame .pb s).2).freeIx = s.freeIx := by unfold popFrame; dsimp only; split <;> rfl
@[simp] theorem popFrame_pb_inputs : ((popFrame .pb s).2).inputs = s.inputs := by unfold popFrame; dsimp only; split <;> rfl
@[simp] theorem popFrame_pb_envIx : ((popFrame .pb s).2).envIx = s.envIx := by unfold popFrame; dsimp only; split <;> rfl
@[simp] theorem popFrame_pb_hostView : ((popFrame .pb s).2).hostView = s.hostView := by unfold popFrame; dsimp only; split <;> rfl
@[simp] theorem popFrame_pb_used : ((popFrame .pb s).2).used = s.used := by unfold popFrame; dsimp only; split <;> rfl

/-! ## The complete signal (R149) -/

@[simp] theorem edgeOf_false (old : Bool) : edgeOf old false = 0 := by simp [edgeOf]

/-- Writing 0 to the signal counts no edge. -/
theorem writeSig_false : writeSig d false s = s.withEng d { s.eng.get d with completeSig := false } := by
  simp [writeSig]

/-! ## What a push and a pop do to the buffers (R182 to R185) -/

/-- The buffer after a push: entered, or refused and counted. -/
def pushResult (p : Params) (f : Fifo) (fr : Frame) : Fifo :=
  if occP p f < p.capacity then f.pushed p fr else { f with overrunCnt := (f.overrunCnt + 1) % 2 ^ p.cntW }

/-- The buffer after a pop: taken, or refused and counted. -/
def popResult (p : Params) (f : Fifo) : Fifo :=
  if 0 < occC p f then f.popped p else { f with underrunCnt := (f.underrunCnt + 1) % 2 ^ p.cntW }

@[simp] theorem pushFrame_fifo (fr : Frame) :
    (pushFrame d fr s).fifo = s.fifo.set d (pushResult s.params (s.fifo.get d) fr) := by
  unfold pushFrame pushResult
  cases d <;> (dsimp only; split <;> rfl)

@[simp] theorem popFrame_fifo : (popFrame d s).2.fifo = s.fifo.set d (popResult s.params (s.fifo.get d)) := by
  unfold popFrame popResult
  cases d <;> (dsimp only; split <;> rfl)

theorem popFrame_fst : (popFrame d s).1 =
    if 0 < occC s.params (s.fifo.get d) then some ((s.fifo.get d).front s.params) else none := by
  unfold popFrame
  dsimp only
  split <;> rfl

/-- The overrun flag after a push of the capture buffer (R183, R303). -/
theorem pushFrame_cap_afp (fr : Frame) : (pushFrame .cap fr s).afp =
    if occP s.params s.fifo.cap < s.params.capacity then s.afp else { s.afp with overrunFlag := true } := by
  unfold pushFrame
  dsimp only [PerDir.get]
  split <;> rfl

/-- The underrun flag after a pop of the playback buffer (R185, R302). -/
theorem popFrame_pb_afp : (popFrame .pb s).2.afp =
    if 0 < occC s.params s.fifo.pb then s.afp else { s.afp with underrunFlag := true } := by
  unfold popFrame
  dsimp only [PerDir.get]
  split <;> rfl

/-! ## The outcome combinators -/

@[simp] theorem andThen_next (f : State → Result) : andThen (.next s) f = f s := rfl
@[simp] theorem mapNext_next (f : State → State) : mapNext (.next s) f = .next (f s) := rfl

theorem andThen_eq_next {r : Result} {f : State → Result} {t : State} (h : andThen r f = .next t) :
    ∃ u, r = .next u ∧ f u = .next t := by
  cases r with
  | next u => exact ⟨u, rfl, h⟩
  | fault e => exact absurd h (by simp [andThen])
  | refused e => exact absurd h (by simp [andThen])

theorem mapNext_eq_next {r : Result} {f : State → State} {t : State} (h : mapNext r f = .next t) : ∃ u, r = .next u ∧ f u = t := by
  obtain ⟨u, hu, ht⟩ := andThen_eq_next h
  exact ⟨u, hu, Host.Outcome.next.inj ht⟩

end Sys2Proof.Machine
end

