-- ==== Sys2Proof/Laws/Audio.lean ====
section
/-! SUPPORT. Laws/Audio.lean: everything that an audio tick's divider step can do to the parts it touches: the processor's own
state, one pop of the playback buffer, one push of the capture buffer (R223, R284). -/

namespace Sys2Proof.Machine

variable {s t : State}

/-- `t` is `s` but for the processor and the buffers. -/
def AudioOnly (s t : State) : Prop := t = { s with afp := t.afp, fifo := t.fifo }

theorem AudioOnly.trans {u : State} (h : AudioOnly s t) (h' : AudioOnly t u) : AudioOnly s u := by
  unfold AudioOnly at *
  rw [h'.trans (by rw [h])]

theorem pushFrame_cap_audioOnly (fr : Frame) : AudioOnly s (pushFrame .cap fr s) := by
  unfold pushFrame
  dsimp only
  split <;> rfl

theorem popFrame_pb_audioOnly : AudioOnly s (popFrame .pb s).2 := by
  unfold popFrame
  dsimp only
  split <;> rfl

/-- `publish` (R236): nothing, or one push. -/
theorem publishFrame_effect (g : Geom) (rx : List Nat) :
    (s.control.capEn.out = 0 ∧ publishFrame g rx s = s) ∨
    (s.control.capEn.out ≠ 0 ∧ publishFrame g rx s = pushFrame .cap (receivedFrame s.params g rx) s) := by
  unfold publishFrame
  split
  · next h => exact .inl ⟨h, rfl⟩
  · next h => exact .inr ⟨h, rfl⟩

/-- `load` (R230): zeros and no pop, or one pop. -/
theorem loadFrame_effect :
    (s.control.pbEn.out = 0 ∧ loadFrame s = (zeroFrame s.params, s)) ∨
    (s.control.pbEn.out ≠ 0 ∧ loadFrame s = ((popFrame .pb s).1.getD (underrunFrame s), (popFrame .pb s).2)) := by
  unfold loadFrame
  split
  · next h => exact .inl ⟨h, rfl⟩
  · next h => exact .inr ⟨h, rfl⟩

/-- The processor's registers that a bit event writes (R225, R227, R231 to R235), before the publish. -/
def eventAfp (inp : LineIn) (boundary : Bool) (act : ActiveConfig) (tx : Frame) (s : State) : Afp :=
  let a := s.afp
  let g := activeGeometry s.params act
  let sd := driveData s.params act.format g tx a.bitCnt a.chCnt
  let next := advanceCounters act.format g a.bitCnt a.chCnt
  { a with
    act := act
    txFrame := tx
    rxShift := sampleLine act.format g (lineIn inp sd) a.chCnt a.rxShift
    sdOut := sd
    frameSig := driveFrameSig act.format boundary a.chCnt
    slotNum := driveSlot act.format a.chCnt
    bitCnt := next.1
    chCnt := next.2.1 }

/-- A bit event is those registers and, at a frame end, the publish. -/
theorem driveAndSample_eq (inp : LineIn) (boundary : Bool) (act : ActiveConfig) (tx : Frame) :
    driveAndSample inp boundary act tx s =
      (let u := s.withAfp (eventAfp inp boundary act tx s)
       if (advanceCounters act.format (activeGeometry s.params act) s.afp.bitCnt s.afp.chCnt).2.2 then
         publishFrame (activeGeometry s.params act) (eventAfp inp boundary act tx s).rxShift u
       else u) := rfl

/-- What a bit event does to the buffers: at most one pop of the playback buffer, at most one push of the capture buffer. -/
structure BuffersByAudio (s t : State) : Prop where
  only : AudioOnly s t
  pb : t.fifo.pb = s.fifo.pb ∨ t.fifo.pb = popResult s.params s.fifo.pb
  cap : t.fifo.cap = s.fifo.cap ∨ ∃ fr, t.fifo.cap = pushResult s.params s.fifo.cap fr

theorem driveAndSample_effect (inp : LineIn) (boundary : Bool) (act : ActiveConfig) (tx : Frame) :
    let t := driveAndSample inp boundary act tx s
    AudioOnly s t ∧ t.fifo.pb = s.fifo.pb ∧ (t.fifo.cap = s.fifo.cap ∨ ∃ fr, t.fifo.cap = pushResult s.params s.fifo.cap fr) := by
  rw [driveAndSample_eq]
  dsimp only
  split
  · rcases publishFrame_effect (s := s.withAfp (eventAfp inp boundary act tx s)) (activeGeometry s.params act)
      (eventAfp inp boundary act tx s).rxShift with ⟨_, h⟩ | ⟨_, h⟩ <;> rw [h]
    · exact ⟨rfl, rfl, .inl rfl⟩
    · exact ⟨AudioOnly.trans (t := s.withAfp (eventAfp inp boundary act tx s)) rfl (pushFrame_cap_audioOnly _), by simp,
        .inr ⟨_, by simp; rfl⟩⟩
  · exact ⟨rfl, rfl, .inl rfl⟩

theorem loadFrame_buffers : AudioOnly s (loadFrame s).2 ∧ (loadFrame s).2.fifo.cap = s.fifo.cap ∧
    ((loadFrame s).2.fifo.pb = s.fifo.pb ∨ (loadFrame s).2.fifo.pb = popResult s.params s.fifo.pb) := by
  rcases loadFrame_effect (s := s) with ⟨_, h⟩ | ⟨_, h⟩ <;> rw [h]
  · exact ⟨rfl, rfl, .inl rfl⟩
  · exact ⟨popFrame_pb_audioOnly, by simp, .inr (by simp)⟩

/-- A bit event that goes on, at a boundary and between boundaries (R227). -/
theorem bitEvent_next {inp : LineIn} (h : bitEvent inp s = .next t) :
    (atBoundary s.afp = true ∧ ∃ act, latchConfig s = .ok act ∧
      t = driveAndSample inp true act (loadFrame s).1 (loadFrame s).2) ∨
    (atBoundary s.afp = false ∧ t = driveAndSample inp false s.afp.act s.afp.txFrame s) := by
  unfold bitEvent at h
  split at h
  · next hb =>
    split at h
    · cases h
    · next act ha => exact .inl ⟨hb, act, ha, (Host.Outcome.next.inj h).symm⟩
  · next hb => exact .inr ⟨by simpa using hb, (Host.Outcome.next.inj h).symm⟩

theorem bitEvent_buffers {inp : LineIn} (h : bitEvent inp s = .next t) : BuffersByAudio s t := by
  rcases bitEvent_next h with ⟨_, act, _, rfl⟩ | ⟨_, rfl⟩
  · obtain ⟨h1, h2, h3⟩ := loadFrame_buffers (s := s)
    obtain ⟨h4, h5, h6⟩ := driveAndSample_effect (s := (loadFrame s).2) inp true act (loadFrame s).1
    have hp : (loadFrame s).2.params = s.params := by rw [h1]
    rw [hp, h2] at h6
    refine ⟨h1.trans h4, ?_, h6⟩
    rw [h5]
    exact h3
  · obtain ⟨h4, h5, h6⟩ := driveAndSample_effect (s := s) inp false s.afp.act s.afp.txFrame
    exact ⟨h4, .inl h5, h6⟩

/-- The divider step that goes on (R224): it counts, or makes a bit event. -/
theorem dividerStep_next {inp : LineIn} (h : dividerStep inp s = .next t) :
    (s.afp.divCnt < activeDivider s.params s.afp.act - 1 ∧
      t = s.withAfp { s.afp with divCnt := s.afp.divCnt + 1, bitTick := false }) ∨
    (activeDivider s.params s.afp.act - 1 ≤ s.afp.divCnt ∧
      bitEvent inp (s.withAfp { s.afp with divCnt := 0, bitTick := true }) = .next t) := by
  unfold dividerStep at h
  split at h
  · next hd => exact .inl ⟨hd, (Host.Outcome.next.inj h).symm⟩
  · next hd => exact .inr ⟨Nat.le_of_not_lt hd, h⟩

theorem dividerStep_buffers {inp : LineIn} (h : dividerStep inp s = .next t) : BuffersByAudio s t := by
  rcases dividerStep_next h with ⟨_, rfl⟩ | ⟨_, h⟩
  · exact ⟨rfl, .inl rfl, .inl rfl⟩
  · obtain ⟨h1, h2, h3⟩ := bitEvent_buffers h
    exact ⟨AudioOnly.trans (t := s.withAfp _) rfl h1, h2, h3⟩

end Sys2Proof.Machine
end

