-- ==== Sys2Proof/Laws/Decode.lean ====
section
/-! SUPPORT. Laws/Decode.lean: the bits of an assembled flags word (R93), and byte strings as numbers (R61). -/

namespace Sys2Proof

variable (irq last wrap own : Bool) (rsv : BitVec 28)

@[simp] theorem flagsOf_interrupt : (flagsOf irq last wrap rsv own).getLsbD 0 = irq := by
  simp only [flagsOf, BitVec.getLsbD_append]; simp

@[simp] theorem flagsOf_lastInChain : (flagsOf irq last wrap rsv own).getLsbD 1 = last := by
  simp only [flagsOf, BitVec.getLsbD_append]; simp

@[simp] theorem flagsOf_wrap : (flagsOf irq last wrap rsv own).getLsbD 2 = wrap := by
  simp only [flagsOf, BitVec.getLsbD_append]; simp

@[simp] theorem flagsOf_hwOwned : (flagsOf irq last wrap rsv own).getLsbD 31 = own := by
  simp only [flagsOf, BitVec.getLsbD_append]; simp

/-- What the interrupt bit of an instruction's descriptor is, whatever its kind. -/
def Instr.interrupt : Instr → Bool
  | .xfer _ _ irq _ _ _ => irq
  | .xferW _ _ irq _ _ _ => irq
  | .xferL _ _ irq _ _ _ _ => irq

@[simp] theorem Instr.desc_interrupt (i : Instr) : i.desc.interrupt = i.interrupt := by
  cases i <;> simp only [Instr.desc, Instr.interrupt, Desc.interrupt, flagsOf_interrupt]

/-- A flags word is assembled of its own parts. -/
theorem flagsOf_parts (f : BitVec 32) :
    flagsOf (f.getLsbD 0) (f.getLsbD 1) (f.getLsbD 2) (f.extractLsb' 3 28) (f.getLsbD 31) = f := by
  apply BitVec.eq_of_getLsbD_eq
  intro i hi
  simp only [flagsOf, BitVec.getLsbD_append, BitVec.getLsbD_extractLsb', BitVec.getLsbD_ofBool]
  interval_cases i <;> simp

/-- The instruction of a descriptor stands for that descriptor: no bit of the record is lost (R96). -/
theorem instrOfDesc_desc (d : Desc) : (instrOfDesc d).desc = d := by
  obtain ⟨buf, len, f, nxt⟩ := d
  have hf := flagsOf_parts f
  unfold instrOfDesc
  split
  · next h1 =>
    simp only [Instr.desc, Desc.lastInChain, Desc.wrap, Desc.interrupt, Desc.reserved, Desc.hwOwned] at h1 ⊢
    rw [← h1, hf]
  · next h1 =>
    rw [Bool.not_eq_true] at h1
    split
    · next h2 =>
      simp only [Instr.desc, Desc.lastInChain, Desc.wrap, Desc.interrupt, Desc.reserved, Desc.hwOwned] at h1 h2 ⊢
      rw [← h1, ← h2, hf]
    · next h2 =>
      rw [Bool.not_eq_true] at h2
      simp only [Instr.desc, Desc.lastInChain, Desc.wrap, Desc.interrupt, Desc.reserved, Desc.hwOwned] at h1 h2 ⊢
      rw [h1, h2] at hf
      rw [hf]

theorem natOfBytes_lt (bs : List Byte) : natOfBytes bs < 256 ^ bs.length := by
  induction bs with
  | nil => simp [natOfBytes]
  | cons b rest ih =>
    have hb := b.isLt
    simp only [natOfBytes, List.length_cons, pow_succ]
    omega

theorem natOfBytes_bytesOfNat (n v : Nat) : natOfBytes (bytesOfNat n v) = v % 256 ^ n := by
  induction n generalizing v with
  | zero => simp [bytesOfNat, natOfBytes, Nat.mod_one]
  | succ n ih =>
    rw [bytesOfNat, natOfBytes, ih, BitVec.toNat_ofNat, show 256 ^ (n + 1) = 256 * 256 ^ n from Nat.pow_succ', Nat.mod_mul]

end Sys2Proof
end

