-- ==== Sys2Proof/Laws/Memory.lean ====
section
/-! SUPPORT. Laws/Memory.lean: the laws of host memory: a byte read after a write, and the canonical form that every memory
operation keeps. -/

namespace Sys2Proof.Machine

/-! ## Reading after writing one byte -/

/-- R68: an access lies in the address space exactly where it ends at or below 2^64. -/
theorem inSpace_iff (a n : Nat) : inSpace a n = true ↔ a + n ≤ 2 ^ 64 := by
  unfold inSpace addrSpace
  rw [decide_eq_true_eq]

theorem memByte_insertByte (m : Memory) (a x : Nat) (b : Byte) :
    memByte (insertByte m a b) x = if x = a then b else memByte m x := by
  induction m with
  | nil => by_cases h : x = a <;> simp [insertByte, memByte, h]
  | cons c rest ih =>
    obtain ⟨k, v⟩ := c
    unfold insertByte
    split
    · simp only [memByte]
    · split
      · next _ h => subst h; simp only [memByte]; split <;> rfl
      · next h1 h2 =>
        simp only [memByte, ih]
        by_cases hk : x = k
        · have : x ≠ a := fun h => h2 (h ▸ hk)
          rw [if_pos hk, if_neg this, if_pos hk]
        · rw [if_neg hk, if_neg hk]

/-- Addresses rise strictly and every address of `m` is above `lo`. -/
theorem memByte_of_lt (m : Memory) (x : Nat) (h : ∀ c ∈ m, x < c.1) : memByte m x = unlistedByte := by
  induction m with
  | nil => rfl
  | cons c rest ih =>
    obtain ⟨k, v⟩ := c
    have hk : x ≠ k := by have := h (k, v) (by simp); simp at this; omega
    simp only [memByte, if_neg hk]
    exact ih (fun c hc => h c (List.mem_cons_of_mem _ hc))

theorem memByte_eraseByte (m : Memory) (a x : Nat) (hm : m.Pairwise (fun c d => c.1 < d.1)) :
    memByte (eraseByte m a) x = if x = a then unlistedByte else memByte m x := by
  induction m with
  | nil => simp [eraseByte, memByte]
  | cons c rest ih =>
    obtain ⟨k, v⟩ := c
    rw [List.pairwise_cons] at hm
    unfold eraseByte
    split
    · next h =>
      subst h
      by_cases hx : x = a
      · subst hx; rw [if_pos rfl]; exact memByte_of_lt rest x (fun c hc => hm.1 c hc)
      · simp [memByte, hx]
    · next h =>
      simp only [memByte, ih hm.2]
      by_cases hx : x = k
      · rw [if_pos hx, if_neg (fun e : x = a => h (e.symm.trans hx)), if_pos hx]
      · rw [if_neg hx, if_neg hx]

/-- `memWf` as its clauses. -/
theorem memWf_iff (m : Memory) :
    memWf m = true ↔ (∀ c ∈ m, c.1 < addrSpace ∧ c.2 ≠ unlistedByte) ∧ m.Pairwise (fun a b => a.1 < b.1) := by
  simp [memWf, List.all_eq_true]

theorem memByte_setByte (m : Memory) (a x : Nat) (b : Byte) (hm : memWf m = true) :
    memByte (setByte m a b) x = if x = a then b else memByte m x := by
  unfold setByte
  split
  · next h => subst h; exact memByte_eraseByte m a x ((memWf_iff m).1 hm).2
  · exact memByte_insertByte m a x b

/-! ## The canonical form is kept -/

theorem mem_insertByte {m : Memory} {a : Nat} {b : Byte} {c : Host.Cell} (h : c ∈ insertByte m a b) : c = (a, b) ∨ c ∈ m := by
  induction m with
  | nil => simpa [insertByte] using h
  | cons e rest ih =>
    obtain ⟨k, v⟩ := e
    unfold insertByte at h
    split at h
    · simpa using h
    · split at h
      · rcases List.mem_cons.1 h with h | h
        · exact .inl h
        · exact .inr (List.mem_cons_of_mem _ h)
      · rcases List.mem_cons.1 h with h | h
        · exact .inr (h ▸ List.mem_cons_self ..)
        · exact (ih h).imp id (List.mem_cons_of_mem _)

theorem mem_eraseByte {m : Memory} {a : Nat} {c : Host.Cell} (h : c ∈ eraseByte m a) : c ∈ m := by
  induction m with
  | nil => exact h
  | cons e rest ih =>
    obtain ⟨k, v⟩ := e
    unfold eraseByte at h
    split at h
    · exact List.mem_cons_of_mem _ h
    · rcases List.mem_cons.1 h with h | h
      · exact h ▸ List.mem_cons_self ..
      · exact List.mem_cons_of_mem _ (ih h)

theorem insertByte_sorted (m : Memory) (a : Nat) (b : Byte) (hm : m.Pairwise (fun c d => c.1 < d.1)) :
    (insertByte m a b).Pairwise (fun c d => c.1 < d.1) := by
  induction m with
  | nil => simp [insertByte]
  | cons e rest ih =>
    obtain ⟨k, v⟩ := e
    have hm' := List.pairwise_cons.1 hm
    unfold insertByte
    split
    · next h =>
      refine List.pairwise_cons.2 ⟨fun c hc => ?_, hm⟩
      rcases List.mem_cons.1 hc with rfl | hc
      · exact h
      · exact Nat.lt_trans h (hm'.1 c hc)
    · split
      · next h => subst h; exact List.pairwise_cons.2 ⟨hm'.1, hm'.2⟩
      · next h1 h2 =>
        refine List.pairwise_cons.2 ⟨fun c hc => ?_, ih hm'.2⟩
        rcases mem_insertByte hc with rfl | hc
        · show k < a; omega
        · exact hm'.1 c hc

theorem eraseByte_sorted (m : Memory) (a : Nat) (hm : m.Pairwise (fun c d => c.1 < d.1)) :
    (eraseByte m a).Pairwise (fun c d => c.1 < d.1) := by
  induction m with
  | nil => exact hm
  | cons e rest ih =>
    obtain ⟨k, v⟩ := e
    have hm' := List.pairwise_cons.1 hm
    unfold eraseByte
    split
    · exact hm'.2
    · exact List.pairwise_cons.2 ⟨fun c hc => hm'.1 c (mem_eraseByte hc), ih hm'.2⟩

theorem setByte_wf (m : Memory) (a : Nat) (b : Byte) (ha : a < addrSpace) (hm : memWf m = true) : memWf (setByte m a b) = true := by
  obtain ⟨h1, h2⟩ := (memWf_iff m).1 hm
  unfold setByte
  split
  · exact (memWf_iff _).2 ⟨fun c hc => h1 c (mem_eraseByte hc), eraseByte_sorted m a h2⟩
  · next hb =>
    refine (memWf_iff _).2 ⟨fun c hc => ?_, insertByte_sorted m a b h2⟩
    rcases mem_insertByte hc with rfl | hc
    · exact ⟨ha, hb⟩
    · exact h1 c hc

theorem setBytes_wf (bs : List Byte) (m : Memory) (a : Nat) (ha : a + bs.length ≤ addrSpace) (hm : memWf m = true) :
    memWf (setBytes m a bs) = true := by
  induction bs generalizing m a with
  | nil => exact hm
  | cons b rest ih =>
    rw [List.length_cons] at ha
    exact ih _ _ (by omega) (setByte_wf m a b (by omega) hm)

theorem setCells_wf (cs : List (Nat × Byte)) (m : Memory) (hm : memWf m = true) : memWf (setCells m cs) = true := by
  induction cs generalizing m with
  | nil => exact hm
  | cons c rest ih =>
    obtain ⟨a, b⟩ := c
    unfold setCells
    split
    · next h => exact ih _ (setByte_wf m a b h hm)
    · exact ih _ hm

theorem bytesOfNat_length (n v : Nat) : (bytesOfNat n v).length = n := by
  induction n generalizing v with
  | zero => rfl
  | succ n ih => simp [bytesOfNat, ih]

/-- All that a `MemWrite` can do. -/
theorem memWrite_some {m m' : Memory} {a n v : Nat} (h : memWrite m a n v = some m') :
    a + n ≤ addrSpace ∧ m' = setBytes m a (bytesOfNat n v) := by
  unfold memWrite inSpace at h
  split at h
  · next hs => exact ⟨of_decide_eq_true hs, (Option.some.inj h).symm⟩
  · exact absurd h (by simp)

theorem memWrite_wf {m m' : Memory} {a n v : Nat} (h : memWrite m a n v = some m') (hm : memWf m = true) : memWf m' = true := by
  obtain ⟨hs, rfl⟩ := memWrite_some h
  exact setBytes_wf _ m a (by rw [bytesOfNat_length]; exact hs) hm

theorem performAll_wf (ws : List PendingWrite) {m m' : Memory} (h : performAll m ws = some m') (hm : memWf m = true) :
    memWf m' = true := by
  induction ws generalizing m with
  | nil => exact (Option.some.inj h) ▸ hm
  | cons w rest ih =>
    unfold performAll at h
    split at h
    · next hw => exact ih h (memWrite_wf hw hm)
    · exact absurd h (by simp)

/-- The memory right after reset has the canonical form. -/
theorem reset_mem_wf (p : Params) : memWf (State.resetWith p).mem = true := rfl

/-! ## Reading after writing bytes -/

/-- A byte outside the written range reads as before. -/
theorem memByte_setBytes_other (bs : List Byte) (m : Memory) (a x : Nat) (ha : a + bs.length ≤ addrSpace) (hm : memWf m = true)
    (hx : x < a ∨ a + bs.length ≤ x) : memByte (setBytes m a bs) x = memByte m x := by
  induction bs generalizing m a with
  | nil => rfl
  | cons b rest ih =>
    rw [List.length_cons] at ha hx
    unfold setBytes
    rw [ih _ _ (by omega) (setByte_wf m a b (by omega) hm) (by omega), memByte_setByte m a x b hm, if_neg (by omega)]

/-- A byte inside the written range reads as what was written there. -/
theorem memByte_setBytes_inside (bs : List Byte) (m : Memory) (a k : Nat) (ha : a + bs.length ≤ addrSpace) (hm : memWf m = true)
    (hk : k < bs.length) : memByte (setBytes m a bs) (a + k) = bs.getD k 0 := by
  induction bs generalizing m a k with
  | nil => exact absurd hk (by simp)
  | cons b rest ih =>
    rw [List.length_cons] at ha hk
    have hw := setByte_wf m a b (by omega) hm
    unfold setBytes
    cases k with
    | zero =>
      rw [memByte_setBytes_other rest _ _ _ (by omega) hw (by omega), memByte_setByte m a _ b hm]
      simp
    | succ k =>
      have h := ih (setByte m a b) (a + 1) k (by omega) hw (by omega)
      rw [show a + (k + 1) = a + 1 + k by omega, h]
      simp

end Sys2Proof.Machine
end

