-- ==== Sys2Proof/Laws/Engine.lean ====
section
/-! SUPPORT. Laws/Engine.lean: one lemma per transition of the Transfer Engine that says all it can do if it answers a next
state; and that no transition touches what its engine does not own (R20, R284). -/

namespace Sys2Proof.Machine

variable {s t : State} {d : Dir} {desc : Desc}

theorem waitStep_next (h : waitStep d s = .next t) : t = writeSig d false s := (Host.Outcome.next.inj h).symm

theorem idleStep_next (h : idleStep d s = .next t) :
    (s.host.enable.get d = true ∧ spaceOk s d = true ∧ burstDivides s d = true ∧ launchOverlaps s d = false ∧
      t = writeSig d false (setState d .fetchDescriptor s)) ∨
    ((s.host.enable.get d && spaceOk s d) = false ∧ t = writeSig d false s) := by
  unfold idleStep at h
  split at h
  · next he =>
    rw [Bool.and_eq_true] at he
    split at h
    · cases h
    · next hb =>
      split at h
      · cases h
      · next ho => exact .inl ⟨he.1, he.2, by simpa using hb, by simpa using ho, (Host.Outcome.next.inj h).symm⟩
  · next he => exact .inr ⟨by simpa using he, waitStep_next h⟩

theorem alreadyCompleteStep_next (h : alreadyCompleteStep d s = .next t) : t = writeSig d false (setState d .complete s) :=
  (Host.Outcome.next.inj h).symm

theorem completeStep_next (h : completeStep d s = .next t) :
    t = writeSig d true (if s.host.enable.get d then s else (setState d .idle s).withUsed d []) := (Host.Outcome.next.inj h).symm

/-- The state that the latch leaves (R144). -/
def latched (d : Dir) (desc : Desc) (s : State) : State :=
  let s := recordUse d desc (s.withEng d { s.eng.get d with cur := desc, curValid := true })
  writeSig d false (s.withPort d { s.port.get d with fields := ⟨none, none, none, none⟩ })

theorem latchStep_next (h : latchStep d desc s = .next t) : latchRefusal s d desc = none ∧ t = latched d desc s := by
  unfold latchStep at h
  split at h
  · cases h
  · next hr => exact ⟨hr, (Host.Outcome.next.inj h).symm⟩

/-- The state that an accepted request leaves (R145). -/
def requested (d : Dir) (desc : Desc) (s : State) : State :=
  let s := s.withEng d { s.eng.get d with reqBytes := burstSize s.params desc.length, burstCnt := 0, st := .moveData }
  writeSig d false (setActive d 1 s)

theorem requestStep_next (h : requestStep d desc s = .next t) :
    ((s.bus.get d).reqAccept = true ∧ t = requested d desc s) ∨ ((s.bus.get d).reqAccept = false ∧ t = writeSig d false s) := by
  unfold requestStep at h
  split at h
  · next ha => exact .inl ⟨ha, (Host.Outcome.next.inj h).symm⟩
  · next ha => exact .inr ⟨by simpa using ha, waitStep_next h⟩

/-- The state after word `w` of a playback burst (R146). -/
def playedWord (g : Geom) (w : Nat) (last : Bool) (s : State) : State :=
  writeSig .pb false (countWord .pb (playbackDone s last) (dropAhead (pushFrame .pb (slice s.params g w) s)))

theorem movePlayback_next (h : movePlayback desc s = .next t) :
    (s.bus.pb.rdWord = none ∧ t = writeSig .pb false s) ∨
    ∃ src last w g, s.bus.pb.rdWord = some (src, last) ∧ playbackWord desc src s = some w ∧ transportGeometry s = .ok g ∧
      t = playedWord g w last s := by
  unfold movePlayback at h
  split at h
  · next hn => exact .inl ⟨hn, waitStep_next h⟩
  · next src last hw =>
    split at h
    · cases h
    · next w hp =>
      split at h
      · cases h
      · next g hg => exact .inr ⟨src, last, w, g, hw, hp, hg, (Host.Outcome.next.inj h).symm⟩

/-- The write that a capture word hands over (R146). -/
def capturedWrite (desc : Desc) (g : Geom) (s : State) : PendingWrite :=
  ⟨wordAddress s.params desc s.eng.cap.burstCnt, s.params.wordBytes, pack g (capturedFrame s), captureDone s⟩

/-- The state after a word of a capture burst (R146). -/
def capturedWord (desc : Desc) (g : Geom) (s : State) : State :=
  writeSig .cap false (countWord .cap (captureDone s) (handWrite (capturedWrite desc g s) (popFrame .cap s).2))

theorem moveCapture_next (h : moveCapture desc s = .next t) :
    (s.bus.cap.wrReady = false ∧ t = writeSig .cap false s) ∨
    ∃ g, s.bus.cap.wrReady = true ∧ transportGeometry s = .ok g ∧
      inSpace (wordAddress s.params desc s.eng.cap.burstCnt) s.params.wordBytes = true ∧ t = capturedWord desc g s := by
  unfold moveCapture at h
  split at h
  · next hw =>
    split at h
    · cases h
    · next g hg =>
      dsimp only at h
      split at h
      · next hi => exact .inr ⟨g, hw, hg, hi, (Host.Outcome.next.inj h).symm⟩
      · cases h
  · next hw => exact .inl ⟨by simpa using hw, waitStep_next h⟩

/-- The state that the shared part of R147 leaves before the write-back, with memory `m` once the burst's writes are performed. -/
def retired (d : Dir) (m : Memory) (s : State) : State :=
  let u := (s.withMem m).withPort d { s.port.get d with rdAhead := [], pending := [] }
  let v := setActive d 0 (markComplete d ((u.eng.get d).burstCnt * s.params.wordBytes) u)
  v.withEng d { v.eng.get d with curValid := false }

/-- Retiring a slot does not move its record before the cursor moves. -/
theorem retired_fetchAddress (m : Memory) : fetchAddress (retired d m s) d = fetchAddress s d := by
  simp [retired, fetchAddress, slotAddress, ringBase, markComplete, setActive]

theorem retire_some (h : retire d desc s = some t) :
    ∃ m, performAll s.mem (s.port.get d).pending = some m ∧ writeBackFlags d desc.flags (retired d m s) = some t := by
  unfold retire at h
  split at h
  · cases h
  · next m hm => exact ⟨m, hm, h⟩

/-- The write-back changes host memory alone (R150). -/
theorem writeBackFlags_some {f : BitVec 32} (h : writeBackFlags d f s = some t) :
    (s.params.writeBack = .none ∧ t = s) ∨
    (s.params.writeBack = .clearOwn ∧ fetchAddress s d + flagsOffset + 4 ≤ addrSpace ∧
      t = s.withMem (setBytes s.mem (fetchAddress s d + flagsOffset) (bytesOfNat 4 (clearOwned f).toNat))) := by
  unfold writeBackFlags at h
  split at h
  · next hn => exact .inl ⟨hn, (Option.some.inj h).symm⟩
  · next hc =>
    rw [Option.map_eq_some_iff] at h
    obtain ⟨m, hm, rfl⟩ := h
    obtain ⟨hs, rfl⟩ := memWrite_some hm
    exact .inr ⟨hc, hs, rfl⟩

theorem finish_next {i : Nat} {st : EngState} (h : finish d desc i st s = .next t) :
    ∃ u, retire d desc s = some u ∧ t = writeSig d desc.interrupt (setState d st (setIndex d i u)) := by
  unfold finish at h
  split at h
  · cases h
  · next u hu => exact ⟨u, hu, (Host.Outcome.next.inj h).symm⟩

/-! ## Only memory is between `retire` and what it leaves -/

/-- `retire` leaves `retired` but for what the write-back wrote. -/
theorem retire_eq (h : retire d desc s = some t) : ∃ m, t = retired d m s := by
  obtain ⟨m, _, hw⟩ := retire_some h
  rcases writeBackFlags_some hw with ⟨_, rfl⟩ | ⟨_, _, rfl⟩
  · exact ⟨m, rfl⟩
  · exact ⟨_, rfl⟩

end Sys2Proof.Machine
end

