-- ==== Sys2Proof/Laws/Exec.lean ====
section
/-! SUPPORT. Laws/Exec.lean: everything that one step of an engine can do, as one case list, and that `exec` and the engine's
part of a transport tick do nothing else. -/

namespace Sys2Proof.Machine

variable {s t : State} {d : Dir} {desc : Desc}

/-- What a step of engine `d` with descriptor `desc` in its hands can do where it answers `t` (R140). -/
inductive EngineEffect (d : Dir) (desc : Desc) (s t : State) : Prop where
  /-- The awaited input is absent (R155). -/
  | waits (h : t = writeSig d false s)
  /-- R142. -/
  | launches (hst : (s.eng.get d).st = .idle) (he : s.host.enable.get d = true) (hs : spaceOk s d = true)
      (hb : burstDivides s d = true) (ho : launchOverlaps s d = false)
      (h : t = writeSig d false (setState d .fetchDescriptor s))
  /-- R143. -/
  | ends (hst : (s.eng.get d).st = .fetchDescriptor) (hc : currentComplete s d = true)
      (h : t = writeSig d false (setState d .complete s))
  /-- R148. -/
  | rests (hst : (s.eng.get d).st = .complete)
      (h : t = writeSig d true (if s.host.enable.get d then s else (setState d .idle s).withUsed d []))
  /-- R144. -/
  | latches (hst : (s.eng.get d).st = .fetchDescriptor) (hc : currentComplete s d = false)
      (hv : (s.eng.get d).curValid = false) (hr : latchRefusal s d desc = none) (h : t = latched d desc s)
  /-- R145. -/
  | requests (hst : (s.eng.get d).st = .fetchDescriptor) (hc : currentComplete s d = false)
      (hv : (s.eng.get d).curValid = true) (ha : (s.bus.get d).reqAccept = true) (h : t = requested d desc s)
  /-- R146, playback. -/
  | plays (src : Source Nat) (last : Bool) (w : Nat) (g : Geom) (hd : d = .pb) (hst : s.eng.pb.st = .moveData)
      (hw : s.bus.pb.rdWord = some (src, last)) (hp : playbackWord desc src s = some w) (hg : transportGeometry s = .ok g)
      (h : t = playedWord g w last s)
  /-- R146, capture. -/
  | captures (g : Geom) (hd : d = .cap) (hst : s.eng.cap.st = .moveData) (hw : s.bus.cap.wrReady = true)
      (hg : transportGeometry s = .ok g)
      (hi : inSpace (wordAddress s.params desc s.eng.cap.burstCnt) s.params.wordBytes = true) (h : t = capturedWord desc g s)
  /-- R147. -/
  | retires (k : Nat) (st : EngState) (u : State) (hst : (s.eng.get d).st = .updateDescriptor)
      (hk : k = 0 ∨ nextSlot s d desc = some k) (hst' : st = .idle ∨ st = .complete)
      (hu : retire d desc s = some u) (h : t = writeSig d desc.interrupt (setState d st (setIndex d k u)))

/-- A step that ends in `finish` retires its descriptor. -/
theorem finish_effect {k : Nat} {st : EngState} (hst : (s.eng.get d).st = .updateDescriptor)
    (hk : k = 0 ∨ nextSlot s d desc = some k) (hst' : st = .idle ∨ st = .complete) (h : finish d desc k st s = .next t) :
    EngineEffect d desc s t := by
  obtain ⟨u, hu, rfl⟩ := finish_next h
  exact .retires k st u hst hk hst' hu rfl

theorem idleStep_effect (hst : (s.eng.get d).st = .idle) (h : idleStep d s = .next t) : EngineEffect d desc s t := by
  rcases idleStep_next h with ⟨he, hs, hb, ho, rfl⟩ | ⟨_, rfl⟩
  · exact .launches hst he hs hb ho rfl
  · exact .waits rfl

theorem requestStep_effect (hst : (s.eng.get d).st = .fetchDescriptor) (hc : currentComplete s d = false)
    (hv : (s.eng.get d).curValid = true) (h : requestStep d desc s = .next t) : EngineEffect d desc s t := by
  rcases requestStep_next h with ⟨ha, rfl⟩ | ⟨_, rfl⟩
  · exact .requests hst hc hv ha rfl
  · exact .waits rfl

theorem moveStep_effect (hst : (s.eng.get d).st = .moveData) (h : moveStep d desc s = .next t) : EngineEffect d desc s t := by
  cases d with
  | pb =>
    rcases movePlayback_next h with ⟨_, rfl⟩ | ⟨src, last, w, g, hw, hp, hg, rfl⟩
    · exact .waits rfl
    · exact .plays src last w g rfl hst hw hp hg rfl
  | cap =>
    rcases moveCapture_next h with ⟨_, rfl⟩ | ⟨g, hw, hg, hi, rfl⟩
    · exact .waits rfl
    · exact .captures g rfl hst hw hg hi rfl

/-- The shared step does one of the case list, if the kind's own `update` does. -/
theorem activation_effect {update : Dir → Desc → State → Result}
    (hup : (s.eng.get s.turn).st = .updateDescriptor → update s.turn desc s = .next t → EngineEffect s.turn desc s t)
    (h : activation desc update s = .next t) : EngineEffect s.turn desc s t := by
  unfold activation at h
  split at h
  · next hst => exact idleStep_effect hst h
  · next hst =>
    split at h
    · next hc => exact .ends hst hc (alreadyCompleteStep_next h)
    · next hc =>
      split at h
      · next hv => exact requestStep_effect hst (Bool.eq_false_iff.2 hc) hv h
      · next hv =>
        obtain ⟨hr, rfl⟩ := latchStep_next h
        exact .latches hst (Bool.eq_false_iff.2 hc) (Bool.eq_false_iff.2 hv) hr rfl
  · next hst => exact moveStep_effect hst h
  · next hst => exact hup hst h
  · next hst => exact .rests hst (completeStep_next h)

/-- The `UpdateDescriptor` step of an instruction's kind (R152 to R154). -/
def kindUpdate : Instr → Dir → Desc → State → Result
  | .xfer .. => updateXfer
  | .xferW .. => updateXferW
  | .xferL .. => updateXferL

/-- Every kind is the shared activation with its own `UpdateDescriptor` step. -/
theorem exec_eq (i : Instr) (s : State) : exec i s = activation i.desc (kindUpdate i) s := by cases i <;> rfl

theorem updateXfer_effect (hst : (s.eng.get d).st = .updateDescriptor) (h : updateXfer d desc s = .next t) :
    EngineEffect d desc s t := by
  unfold updateXfer at h
  split at h
  · cases h
  · next k hk =>
    refine finish_effect hst ?_ (.inl rfl) h
    unfold advanceTo at hk
    split at hk
    · exact .inl (Option.some.inj hk).symm
    · exact .inr hk

/-- An instruction of any kind does one of the case list. -/
theorem exec_effect {i : Instr} (h : exec i s = .next t) : EngineEffect s.turn i.desc s t := by
  cases i with
  | xfer buf len irq rsv own nxt => exact activation_effect updateXfer_effect h
  | xferW buf len irq rsv own nxt => exact activation_effect (fun hst => finish_effect hst (.inl rfl) (.inl rfl)) h
  | xferL buf len irq wrap rsv own nxt => exact activation_effect (fun hst => finish_effect hst (.inl rfl) (.inr rfl)) h

/-- An engine with nothing in its hands does one of the case list. -/
theorem restStep_effect (hn : inHand s d = .nothing) (h : restStep d s = .next t) : EngineEffect d desc s t := by
  unfold restStep at h
  split at h
  · next hst => exact idleStep_effect hst h
  · next hst => exact .rests hst (completeStep_next h)
  · split at h
    · next hc =>
      cases hst : (s.eng.get d).st with
      | fetchDescriptor => exact .ends hst hc (alreadyCompleteStep_next h)
      | idle => contradiction
      | complete => contradiction
      | moveData => simp [inHand, hst] at hn
      | updateDescriptor => simp [inHand, hst] at hn
    · exact .waits (waitStep_next h)

/-- The engine's part of a transport tick does one of the case list, on `s` or on `s` with the engine's turn set; the descriptor
is the one in the latch, but in `FetchDescriptor` with an empty latch. -/
theorem engineStep_effect (h : engineStep d s = .next t) :
    ∃ (u : State) (desc : Desc), (u = s ∨ u = s.withTurn d) ∧
      ((s.eng.get d).st ≠ .fetchDescriptor ∨ (s.eng.get d).curValid = true → desc = (s.eng.get d).cur) ∧
      EngineEffect d desc u t := by
  unfold engineStep at h
  split at h
  · next hn => exact ⟨s, (s.eng.get d).cur, .inl rfl, fun _ => rfl, restStep_effect hn h⟩
  · cases h
  · next i hi =>
    refine ⟨s.withTurn d, i.desc, .inr rfl, fun hcur => ?_, exec_effect h⟩
    have hlatch : InHand.instr (instrOfDesc (s.eng.get d).cur) = .instr i → i.desc = (s.eng.get d).cur := by
      intro he
      rw [← InHand.instr.inj he, instrOfDesc_desc]
    unfold inHand at hi
    split at hi
    · cases hi
    · cases hi
    · next hst =>
      split at hi
      · cases hi
      · split at hi
        · exact hlatch hi
        · next hv => exact absurd hcur (by simp [hst, hv])
    · exact hlatch hi
    · exact hlatch hi

/-! ## The step relation -/

/-- Engine `d` in a transport tick: the unspecified step after a DMA error, else its step and the DMA-error latch. -/
theorem engineTick_next (h : engineTick d s = .next t) :
    ((s.eng.get d).dmaErr = true ∧ t = unspecifiedStep d s) ∨
    ((s.eng.get d).dmaErr = false ∧ ∃ u, engineStep d s = .next u ∧ t = latchDmaError d u) := by
  unfold engineTick at h
  split at h
  · next he => exact .inl ⟨he, (Host.Outcome.next.inj h).symm⟩
  · next he =>
    obtain ⟨u, hu, ht⟩ := mapNext_eq_next h
    exact .inr ⟨by simpa using he, u, hu, ht.symm⟩

/-- A transport tick: the playback engine, the capture engine, the domain's cells. -/
theorem transportStep_next {pb cap : PortIn} (h : transportStep pb cap s = .next t) :
    ∃ u v, engineTick .pb (s.withBus ⟨pb, cap⟩) = .next u ∧ engineTick .cap u = .next v ∧ t = (stepTransportCells v).drawn := by
  obtain ⟨v, hv, ht⟩ := mapNext_eq_next h
  obtain ⟨u, hu, hv⟩ := andThen_eq_next hv
  exact ⟨u, v, hu, hv, ht.symm⟩

/-- An audio tick: the divider or a bit event, then the domain's cells. -/
theorem audioStep_next {a : AudioIn} (h : audioStep a s = .next t) :
    ∃ u, dividerStep a.sdIn (withLine a s) = .next u ∧ t = (stepAudioCells u).drawn := by
  obtain ⟨u, hu, ht⟩ := mapNext_eq_next h
  exact ⟨u, hu, ht.symm⟩

/-- A reset that is not refused. -/
theorem resetStep_next (h : resetStep s = .next t) :
    requestOutstanding s .pb = false ∧ requestOutstanding s .cap = false ∧ t = (resetCore s).drawn := by
  unfold resetStep at h
  split at h
  · cases h
  · next hr =>
    simp only [Bool.or_eq_true, not_or, Bool.not_eq_true] at hr
    exact ⟨hr.1, hr.2, (Host.Outcome.next.inj h).symm⟩

/-- A tick of either domain is the tick itself, or the reset in its place. -/
theorem tickOrReset_next {tick : State → Result} (h : tickOrReset tick s = .next t) :
    (resetAsserted s = true ∧ resetStep s = .next t) ∨ (resetAsserted s = false ∧ tick s = .next t) := by
  unfold tickOrReset at h
  split at h
  · next hr => exact .inl ⟨hr, h⟩
  · next hr => exact .inr ⟨by simpa using hr, h⟩

end Sys2Proof.Machine
end

