-- ==== Sys2Proof/Laws/HostMoves.lean ====
section
/-! SUPPORT. Laws/HostMoves.lean: everything that a host command, an access of the transport between ticks, and the step of an
engine after a DMA error can do. -/

namespace Sys2Proof.Machine

variable {s t : State} {d : Dir}

/-- Taking a move from the environment changes the environment's bookkeeping alone. -/
theorem takeEvent_eq (s : State) : takeEvent s = { s with inputs := (takeEvent s).inputs, envIx := (takeEvent s).envIx } := by
  unfold takeEvent
  split <;> rfl

/-- R274, R356. -/
theorem ringSetup_next {base : BitVec 64} {count : Nat} (h : ringSetup d base count s = .next t) :
    (betweenFetchAndUpdate s d = false ∨ (s.host.ring.get d).base = base ∧ (s.host.ring.get d).descCount = count) ∧
    t = s.withHost { s.host with ring := s.host.ring.set d { s.host.ring.get d with base := base, descCount := count } } := by
  unfold ringSetup at h
  dsimp only at h
  split at h
  · cases h
  · next hc =>
    refine ⟨?_, (Host.Outcome.next.inj h).symm⟩
    cases hb : betweenFetchAndUpdate s d with
    | false => exact .inl rfl
    | true => exact .inr (by simpa [hb] using hc)

/-- R270. -/
theorem hostWrite_next {addr : Nat} {bytes : List Byte} (h : hostWrite addr bytes s = .next t) :
    addr + bytes.length ≤ 2 ^ 64 ∧ t = s.withMem (setBytes s.mem addr bytes) := by
  unfold hostWrite at h
  split at h
  · next hi => exact ⟨(inSpace_iff _ _).1 hi, (Host.Outcome.next.inj h).symm⟩
  · cases h

/-- R65: the transport has read the field, or there was nothing to read. -/
theorem readField_eq (d : Dir) (f : DescField) (s : State) : readField d f s = s ∨
    (awaitsRecord s d = true ∧
      readField d f s = s.withPort d { s.port.get d with fields := (s.port.get d).fields.put f (fieldNow s d f) }) := by
  unfold readField
  dsimp only
  split
  · next h =>
    simp only [Bool.and_eq_true] at h
    exact .inr ⟨h.1.1, rfl⟩
  · exact .inl rfl

/-- R66: the transport has read one more word of the playback burst, or there was none to read. -/
theorem readAhead_eq (s : State) : readAhead s = s ∨
    ∃ w, s.eng.pb.st = .moveData ∧ s.eng.pb.burstCnt + s.port.pb.rdAhead.length < s.eng.pb.reqBytes / s.params.wordBytes ∧
      memRead s.mem (wordAddress s.params s.eng.pb.cur (s.eng.pb.burstCnt + s.port.pb.rdAhead.length)) s.params.wordBytes = some w ∧
      readAhead s = s.withPort .pb { s.port.pb with rdAhead := s.port.pb.rdAhead ++ [w] } := by
  unfold readAhead
  dsimp only
  split
  · next h =>
    simp only [Bool.and_eq_true, beq_iff_eq, decide_eq_true_eq] at h
    split
    · next w hw => exact .inr ⟨w, h.1, h.2, hw, rfl⟩
    · exact .inl rfl
  · exact .inl rfl

/-- R66, R71. -/
theorem performWrite_next (h : performWrite d s = .next t) : (t = s ∧ (s.port.get d).pending = []) ∨
    ∃ w rest m, (s.port.get d).pending = w :: rest ∧ memWrite s.mem w.addr w.size w.value = some m ∧
      t = (s.withMem m).withPort d { s.port.get d with pending := rest } := by
  unfold performWrite at h
  split at h
  · next hn => exact .inl ⟨(Host.Outcome.next.inj h).symm, hn⟩
  · next w rest hw =>
    split at h
    · next m hm => exact .inr ⟨w, rest, m, hw, hm, (Host.Outcome.next.inj h).symm⟩
    · cases h

/-! ## After a DMA error (R306) -/

/-- The buffer after the unspecified access: untouched, pushed (playback) or popped (capture). -/
theorem drawnAccess_fifo (w : EngineDraw) : (drawnAccess d w s).fifo = s.fifo ∨
    (d = .pb ∧ ∃ fr, (drawnAccess d w s).fifo = s.fifo.set .pb (pushResult s.params s.fifo.pb fr)) ∨
    (d = .cap ∧ (drawnAccess d w s).fifo = s.fifo.set .cap (popResult s.params s.fifo.cap)) := by
  unfold drawnAccess
  split
  · cases d with
    | pb => exact .inr (.inl ⟨rfl, _, by rw [pushFrame_fifo]; rfl⟩)
    | cap => exact .inr (.inr ⟨rfl, by rw [popFrame_fifo]; rfl⟩)
  · exact .inl rfl

/-- The unspecified access leaves all but the buffer as it was. -/
theorem drawnAccess_eq (w : EngineDraw) : drawnAccess d w s = { s with fifo := (drawnAccess d w s).fifo } := by
  unfold drawnAccess
  split
  · cases d with
    | pb => unfold pushFrame; dsimp only; split <;> rfl
    | cap => unfold popFrame; dsimp only; split <;> rfl
  · rfl

/-- The unspecified step writes its engine, its ring, its port, its side of its buffer, and host memory; nothing else. -/
theorem unspecifiedStep_eq (d : Dir) (s : State) : unspecifiedStep d s = { s with
    eng := s.eng.set d ((unspecifiedStep d s).eng.get d)
    ring := s.ring.set d (drawnRing s.params (Config.afterDmaError s.freeIx d))
    port := s.port.set d portReset
    fifo := (drawnAccess d (Config.afterDmaError s.freeIx d) s).fifo
    mem := setCells s.mem (Config.afterDmaError s.freeIx d).stores } := by
  have h := drawnAccess_eq (d := d) (s := s) (Config.afterDmaError s.freeIx d)
  unfold unspecifiedStep
  dsimp only
  generalize drawnAccess d (Config.afterDmaError s.freeIx d) s = u at h ⊢
  rw [h]
  cases d <;> rfl

/-- The sticky bit stays (R32). -/
theorem unspecifiedStep_dmaErr (d : Dir) (s : State) : ((unspecifiedStep d s).eng.get d).dmaErr = (s.eng.get d).dmaErr := by
  have h := drawnAccess_eq (d := d) (s := s) (Config.afterDmaError s.freeIx d)
  unfold unspecifiedStep
  dsimp only
  generalize drawnAccess d (Config.afterDmaError s.freeIx d) s = u at h ⊢
  rw [h]
  cases d <;> rfl

end Sys2Proof.Machine
end

