-- ==== Sys2Proof/Laws/PerInstr.lean ====
section
/-! SUPPORT. Laws/PerInstr.lean: what holds of every descriptor kind, one lemma for each. -/

namespace Sys2Proof.Laws.TableMatch

/-- The `mask` of an instruction's row in spec/opcode_table.json, over the flags word. -/
def mask : Instr → BitVec 32
  | .xfer .. => 0x00000006
  | .xferW .. => 0x00000006
  | .xferL .. => 0x00000002

/-- The `match` of that row. -/
def pattern : Instr → BitVec 32
  | .xfer .. => 0x00000000
  | .xferW .. => 0x00000004
  | .xferL .. => 0x00000002

/-- The flags word of an instruction matches its own row and no row of another kind (R96). -/
def Statement (i : Instr) : Prop :=
  i.desc.flags &&& mask i = pattern i ∧ ∀ j : Instr, i.desc.flags &&& mask j = pattern j → pattern j = pattern i

theorem flags_and (irq last wrap own : Bool) (rsv : BitVec 28) (m : BitVec 32) (hm : m = 2 ∨ m = 6) :
    flagsOf irq last wrap rsv own &&& m =
      (if last then 2 else 0) ||| (if wrap ∧ m = 6 then 4 else 0) := by
  apply BitVec.eq_of_getLsbD_eq
  intro k hk
  rcases hm with rfl | rfl <;> cases last <;> cases wrap <;>
    simp only [flagsOf, BitVec.getLsbD_and, BitVec.getLsbD_append, BitVec.getLsbD_ofBool] <;>
    interval_cases k <;> simp

theorem mask_cases (j : Instr) : mask j = 6 ∧ pattern j = 0 ∨ mask j = 6 ∧ pattern j = 4 ∨ mask j = 2 ∧ pattern j = 2 := by
  cases j <;> simp [mask, pattern]

theorem xfer (buf : BitVec 64) (len : BitVec 32) (irq : Bool) (rsv : BitVec 28) (own : Bool) (nxt : BitVec 64) :
    Statement (.xfer buf len irq rsv own nxt) := by
  refine ⟨flags_and _ _ _ _ _ _ (.inr rfl), fun j hj => ?_⟩
  rcases mask_cases j with ⟨hm, hp⟩ | ⟨hm, hp⟩ | ⟨hm, hp⟩ <;>
    (rw [hp, hm, Instr.desc, flags_and _ _ _ _ _ _ (by decide)] at hj; revert hj; rw [hp]; simp only [pattern]; decide)

theorem xferW (buf : BitVec 64) (len : BitVec 32) (irq : Bool) (rsv : BitVec 28) (own : Bool) (nxt : BitVec 64) :
    Statement (.xferW buf len irq rsv own nxt) := by
  refine ⟨flags_and _ _ _ _ _ _ (.inr rfl), fun j hj => ?_⟩
  rcases mask_cases j with ⟨hm, hp⟩ | ⟨hm, hp⟩ | ⟨hm, hp⟩ <;>
    (rw [hp, hm, Instr.desc, flags_and _ _ _ _ _ _ (by decide)] at hj; revert hj; rw [hp]; simp only [pattern]; decide)

theorem xferL (buf : BitVec 64) (len : BitVec 32) (irq wrap : Bool) (rsv : BitVec 28) (own : Bool) (nxt : BitVec 64) :
    Statement (.xferL buf len irq wrap rsv own nxt) := by
  refine ⟨flags_and _ _ _ _ _ _ (.inl rfl) |>.trans (by cases wrap <;> rfl), fun j hj => ?_⟩
  rcases mask_cases j with ⟨hm, hp⟩ | ⟨hm, hp⟩ | ⟨hm, hp⟩ <;>
    (rw [hp, hm, Instr.desc, flags_and _ _ _ _ _ _ (by decide)] at hj; revert hj; rw [hp]; simp only [pattern]; cases wrap <;> decide)

end Sys2Proof.Laws.TableMatch
end

