-- ==== Sys2Proof/Laws/Step.lean ====
section
/-! SUPPORT. Laws/Step.lean: the induction over the moves of the step relation (R283), once: what every move keeps, `step` keeps; and
that the moves between ticks touch no engine and no ring. -/

namespace Sys2Proof.Machine

/-- What a property must survive to survive every move but the ticks: the environment's bookkeeping, the host's commands and the
accesses that the transport performs between ticks. -/
structure MovesKeep (Inv : State → Prop) : Prop where
  take : ∀ s, Inv s → Inv (takeEvent s)
  enable : ∀ s d v, Inv s → Inv (setEnable d v s)
  softReset : ∀ s v, Inv s → Inv (setSoftReset v s)
  hwReset : ∀ s v, Inv s → Inv (setHwReset v s)
  ringSetup : ∀ s t d base count, Inv s → ringSetup d base count s = .next t → Inv t
  ringInputs : ∀ s d size irq thr, Inv s → Inv (setRingInputs d size irq thr s)
  format : ∀ s f, Inv s → Inv (writeFormat f s)
  hostWrite : ∀ s t addr bytes, Inv s → hostWrite addr bytes s = .next t → Inv t
  status : ∀ s, Inv s → Inv (readStatus s)
  field : ∀ s d f, Inv s → Inv (readField d f s)
  ahead : ∀ s, Inv s → Inv (readAhead s)
  perform : ∀ s t d, Inv s → performWrite d s = .next t → Inv t

/-- What a property must survive to survive the ticks of both domains. -/
structure TicksKeep (Inv : State → Prop) : Prop where
  reset : ∀ s, Inv s → Inv (resetCore s).drawn
  bus : ∀ s b, Inv s → Inv (s.withBus b)
  engine : ∀ s t d, Inv s → engineTick d s = .next t → Inv t
  transportCells : ∀ s, Inv s → Inv (stepTransportCells s).drawn
  line : ∀ s a, Inv s → Inv (withLine a s)
  divider : ∀ s t inp, Inv s → dividerStep inp s = .next t → Inv t
  audioCells : ∀ s, Inv s → Inv (stepAudioCells s).drawn

variable {Inv : State → Prop} {s t : State}

theorem TicksKeep.transport (k : TicksKeep Inv) {pb cap : PortIn} (hs : Inv s)
    (h : tickOrReset (transportStep pb cap) s = .next t) : Inv t := by
  rcases tickOrReset_next h with ⟨_, h⟩ | ⟨_, h⟩
  · obtain ⟨_, _, rfl⟩ := resetStep_next h
    exact k.reset s hs
  · obtain ⟨u, v, hu, hv, rfl⟩ := transportStep_next h
    exact k.transportCells v (k.engine u v .cap (k.engine _ u .pb (k.bus s _ hs) hu) hv)

theorem TicksKeep.audio (k : TicksKeep Inv) {a : AudioIn} (hs : Inv s)
    (h : tickOrReset (audioStep a) s = .next t) : Inv t := by
  rcases tickOrReset_next h with ⟨_, h⟩ | ⟨_, h⟩
  · obtain ⟨_, _, rfl⟩ := resetStep_next h
    exact k.reset s hs
  · obtain ⟨u, hu, rfl⟩ := audioStep_next h
    exact k.audioCells u (k.divider _ u _ (k.line s a hs) hu)

/-- What every move keeps, `step` keeps. -/
theorem step_keeps (m : MovesKeep Inv) (k : TicksKeep Inv) (hs : Inv s) (h : step s = .next t) : Inv t := by
  have hs' := m.take s hs
  unfold step at h
  generalize takeEvent s = u at hs' h
  generalize nextEvent s = e at h
  cases e with
  | transportTick pb cap => exact k.transport hs' h
  | audioTick a => exact k.audio hs' h
  | enable d => exact Host.Outcome.next.inj h ▸ m.enable u d true hs'
  | disable d => exact Host.Outcome.next.inj h ▸ m.enable u d false hs'
  | softReset v => exact Host.Outcome.next.inj h ▸ m.softReset u v hs'
  | hwReset v => exact Host.Outcome.next.inj h ▸ m.hwReset u v hs'
  | ringSetup d base count => exact m.ringSetup u t d base count hs' h
  | ringInputs d size irq thr => exact Host.Outcome.next.inj h ▸ m.ringInputs u d size irq thr hs'
  | formatWrite f => exact Host.Outcome.next.inj h ▸ m.format u f hs'
  | writeMemory addr bytes => exact m.hostWrite u t addr bytes hs' h
  | statusRead => exact Host.Outcome.next.inj h ▸ m.status u hs'
  | readField d f => exact Host.Outcome.next.inj h ▸ m.field u d f hs'
  | readAhead => exact Host.Outcome.next.inj h ▸ m.ahead u hs'
  | performWrite d => exact m.perform u t d hs' h

/-- A move between ticks (R270, R65, R66) changes no register of an engine or of a ring. -/
theorem step_between_ticks (hp : ∀ pb cap, nextEvent s ≠ .transportTick pb cap) (ha : ∀ a, nextEvent s ≠ .audioTick a)
    (h : step s = .next t) : t.eng = s.eng ∧ t.ring = s.ring := by
  have hs : (takeEvent s).eng = s.eng ∧ (takeEvent s).ring = s.ring := by rw [takeEvent_eq]; exact ⟨rfl, rfl⟩
  rw [← hs.1, ← hs.2]
  unfold step at h
  generalize takeEvent s = u at h
  generalize nextEvent s = e at hp ha h
  cases e with
  | transportTick pb cap => exact absurd rfl (hp pb cap)
  | audioTick a => exact absurd rfl (ha a)
  | enable d => exact Host.Outcome.next.inj h ▸ ⟨rfl, rfl⟩
  | disable d => exact Host.Outcome.next.inj h ▸ ⟨rfl, rfl⟩
  | softReset v => exact Host.Outcome.next.inj h ▸ ⟨rfl, rfl⟩
  | hwReset v => exact Host.Outcome.next.inj h ▸ ⟨rfl, rfl⟩
  | ringSetup d base count => exact (ringSetup_next h).2 ▸ ⟨rfl, rfl⟩
  | ringInputs d size irq thr => exact Host.Outcome.next.inj h ▸ ⟨rfl, rfl⟩
  | formatWrite f => exact Host.Outcome.next.inj h ▸ ⟨rfl, rfl⟩
  | writeMemory addr bytes => exact (hostWrite_next h).2 ▸ ⟨rfl, rfl⟩
  | statusRead => exact Host.Outcome.next.inj h ▸ ⟨rfl, rfl⟩
  | readField d f =>
    rw [← Host.Outcome.next.inj h]
    rcases readField_eq d f u with hq | ⟨_, hq⟩ <;> rw [hq] <;> exact ⟨rfl, rfl⟩
  | readAhead =>
    rw [← Host.Outcome.next.inj h]
    rcases readAhead_eq u with hq | ⟨_, _, _, _, hq⟩ <;> rw [hq] <;> exact ⟨rfl, rfl⟩
  | performWrite d =>
    rcases performWrite_next h with ⟨rfl, _⟩ | ⟨_, _, _, _, _, rfl⟩ <;> exact ⟨rfl, rfl⟩

end Sys2Proof.Machine
end

