-- ==== Sys2Proof/Laws/Sync.lean ====
section
/-! SUPPORT. Laws/Sync.lean: what one tick of its destination does to a synchronizer cell (R201, R204, R205). -/

namespace Sys2Proof.Machine

theorem Sync.stepWhole_eq (c : Sync) (src : Nat) : c.stepWhole src = ⟨src :: c.stages.dropLast, src⟩ := rfl

/-- A scalar cell captures its source, under some mask. -/
theorem Sync.stepScalar_captures (p : Params) (n k : Nat) (c : Sync) (src : Nat) : Captures p src c (c.stepScalar p n k src) := ⟨_, rfl⟩

/-- Without the glitch model the two steps of a cell are one. -/
theorem Captures.whole {p : Params} {src : Nat} {c c' : Sync} (h : Captures p src c c') (hg : p.glitch = .none) :
    c' = c.stepWhole src := by
  obtain ⟨_, rfl⟩ := h
  rw [hg]
  rfl

end Sys2Proof.Machine
end

