-- ==== Sys2Proof/Laws/Validity.lean ====
section
/-! SUPPORT. Laws/Validity.lean: the checks of Machine/Validity.lean and the launch condition, each as the proposition it decides. -/

namespace Sys2Proof.Machine

variable (s : State) (d : Dir) (desc : Desc)

/-- R64: the alignment clauses. -/
theorem alignedOk_iff : alignedOk s d desc = true ↔
    ringBase s d % 8 = 0 ∧ desc.bufferAddress.toNat % s.params.wordBytes = 0 ∧ s.params.wordBytes ≤ desc.length.toNat ∧
      desc.length.toNat % s.params.wordBytes = 0 := by
  simp only [alignedOk, Bool.and_eq_true]
  unfold baseAligned addressAligned lengthEnough lengthAligned
  simp only [beq_iff_eq, decide_eq_true_eq, and_assoc]

/-- R121 (a), (b), (e), (f): the clauses about ranges. -/
theorem rangesOk_iff : rangesOk s d desc = true ↔
    1 ≤ ringCount s d ∧ ringCount s d ≤ s.params.ringMax ∧ ringBase s d + ringCount s d * recSize ≤ addrSpace ∧
      desc.bufferAddress.toNat + burstSize s.params desc.length ≤ addrSpace ∧
      (desc.lastInChain = true ∨ desc.wrap = true ∨ (nextSlot s d desc).isSome = true) := by
  simp only [rangesOk, Bool.and_eq_true]
  unfold countOk ringFits burstFits successorOk inSpace
  simp only [Bool.and_eq_true, Bool.or_eq_true, decide_eq_true_eq, and_assoc, or_assoc]

/-- R141 for playback. -/
theorem spaceOk_pb : spaceOk s .pb = true ↔ s.params.burstWords ≤ s.params.capacity - occP s.params s.fifo.pb := by
  unfold spaceOk freeSeen
  rw [decide_eq_true_eq]

/-- R141 for capture. -/
theorem spaceOk_cap : spaceOk s .cap = true ↔ s.params.burstWords ≤ occC s.params s.fifo.cap := by
  unfold spaceOk filledSeen
  rw [decide_eq_true_eq]

/-- R352. -/
theorem burstDivides_iff : burstDivides s d = true ↔ (s.host.ring.get d).bufferSize % s.params.burstBytes = 0 := by
  unfold burstDivides
  rw [beq_iff_eq]

/-- Two regions meet where an address lies in both. -/
theorem regionsMeet_iff (a b : Region) :
    regionsMeet a b = true ↔ ∃ x, (a.base ≤ x ∧ x < a.base + a.size) ∧ (b.base ≤ x ∧ x < b.base + b.size) := by
  unfold regionsMeet
  rw [decide_eq_true_eq]
  exact ⟨fun h => ⟨max a.base b.base, by omega⟩, fun ⟨x, h⟩ => by omega⟩

/-- R67: the ring or the burst has an address in a device region. -/
theorem inDevice_iff : inDevice s d desc = true ↔ ∃ r ∈ s.params.deviceRegions,
    regionsMeet r (ringRegion s d) = true ∨ regionsMeet r (bufferRegion s.params desc) = true := by
  unfold inDevice
  simp only [List.any_eq_true, Bool.or_eq_true]

/-- A direction is in play from its launch until `Complete`, and in `Idle` where it is enabled, unless a DMA error was signalled
to its engine. -/
theorem inPlay_iff : inPlay s d = true ↔ (s.eng.get d).dmaErr = false ∧
    (s.eng.get d).st ≠ .complete ∧ ((s.eng.get d).st = .idle → s.host.enable.get d = true) := by
  unfold inPlay
  cases (s.eng.get d).dmaErr <;> cases (s.eng.get d).st <;> simp

/-- The launch reads a record that the other direction's pass has written or is writing: an address of a region that one of the
activations latched there writes lies in it. -/
theorem launchOverlaps_iff : launchOverlaps s d = true ↔ currentComplete s d = false ∧ inPlay s d.other = true ∧
    ∃ f ∈ s.used.get d.other, ∃ w ∈ f.writes, ∃ x, (w.base ≤ x ∧ x < w.base + w.size) ∧
      (fetchAddress s d ≤ x ∧ x < fetchAddress s d + recSize) := by
  unfold launchOverlaps footprintsClash
  simp only [Bool.and_eq_true, Bool.not_eq_true', List.any_eq_true, Bool.or_eq_true, List.not_mem_nil, false_and, exists_false,
    false_or, List.mem_singleton, exists_eq_left, regionsMeet_iff, and_assoc]
  rfl

/-- The latch goes on exactly where nothing is wrong with the record. -/
theorem latchRefusal_none : latchRefusal s d desc = none ↔
    alignedOk s d desc = true ∧ rangesOk s d desc = true ∧ inDevice s d desc = false ∧ overlaps s d desc = false := by
  unfold latchRefusal
  cases alignedOk s d desc <;> cases rangesOk s d desc <;> cases inDevice s d desc <;> cases overlaps s d desc <;> simp

end Sys2Proof.Machine
end

