-- ==== Sys2Proof/Laws/WellFormed.lean ====
section
/-! SUPPORT. Laws/WellFormed.lean: what the constraints of R8 give, one fact at a time. -/

namespace Sys2Proof

open Sys2Proof.Machine

variable {p : Params}

/-- The constraints of R8 as propositions. -/
theorem Params.ok_clauses (h : p.ok = true) :
    1 ≤ p.wordBytes ∧ 0 < p.burstBytes ∧ p.burstBytes % p.wordBytes = 0 ∧ (∃ k, p.capacity = 2 ^ k) ∧ 1 ≤ p.ringMax ∧
    2 ≤ p.syncStages ∧ 2 ≤ p.maxC ∧ p.geomOk p.geomI2s = true ∧ p.geomOk p.geomTdm = true ∧ p.geomOk p.geomDsd64 = true ∧
    p.geomOk p.geomDsd128 = true ∧ p.geomOk p.geomDsd256 = true ∧ (∀ r ∈ p.divRows, 1 ≤ r.div) ∧ 1 ≤ p.divDefault ∧
    1 ≤ p.divDsd64 ∧ 1 ≤ p.divDsd128 ∧ 1 ≤ p.divDsd256 := by
  simp only [Params.ok, Bool.and_eq_true, decide_eq_true_eq, beq_iff_eq, List.all_eq_true, and_assoc] at h
  obtain ⟨h1, h2, h3, hk, h5, h6, h7, _, _, _, _, _, _, _, _, g1, g2, g3, g4, g5, hd, d1, d2, d3, d4⟩ := h
  exact ⟨h1, h2, h3, ⟨_, hk⟩, h5, h6, h7, g1, g2, g3, g4, g5, hd, d1, d2, d3, d4⟩

/-- `Params.ok` takes every power of two as a capacity (R8). -/
theorem capacity_clause_iff (c : Nat) : c = 2 ^ c.log2 ↔ ∃ k, c = 2 ^ k :=
  ⟨fun h => ⟨_, h⟩, fun ⟨k, h⟩ => by rw [h, Nat.log2_two_pow]⟩

theorem Params.ok_capacity (h : p.ok = true) : 0 < p.capacity := by
  obtain ⟨_, _, _, ⟨k, hk⟩, _⟩ := Params.ok_clauses h
  rw [hk]
  exact Nat.two_pow_pos k

theorem Params.ok_ringMax (h : p.ok = true) : 1 ≤ p.ringMax := (Params.ok_clauses h).2.2.2.2.1

theorem Params.ok_syncStages (h : p.ok = true) : 2 ≤ p.syncStages := (Params.ok_clauses h).2.2.2.2.2.1

theorem Params.ok_wordBytes (h : p.ok = true) : 1 ≤ p.wordBytes := (Params.ok_clauses h).1

theorem Params.ok_burst (h : p.ok = true) : p.burstBytes = p.burstWords * p.wordBytes := by
  obtain ⟨_, _, h3, _⟩ := Params.ok_clauses h
  exact (Nat.div_mul_cancel (Nat.dvd_of_mod_eq_zero h3)).symm

theorem Params.ok_burstWords (h : p.ok = true) : 1 ≤ p.burstWords := by
  have hb := Params.ok_burst h
  have h2 := (Params.ok_clauses h).2.1
  rcases Nat.eq_zero_or_pos p.burstWords with h0 | h0
  · rw [h0, Nat.zero_mul] at hb
    omega
  · exact h0

theorem Params.geomOk_iff (p : Params) (g : Geom) :
    p.geomOk g = true ↔ 1 ≤ g.channels ∧ g.channels ≤ p.maxC ∧ 1 ≤ g.width ∧ g.width ≤ p.maxW := by
  simp only [Params.geomOk, Bool.and_eq_true, decide_eq_true_eq, and_assoc]

/-- Every geometry of the table is in the ranges of R8. -/
theorem Params.ok_geometry (h : p.ok = true) (f : Format) (mode : Nat) : p.geomOk (geometry p f mode) = true := by
  obtain ⟨_, _, _, _, _, _, _, g1, g2, g3, g4, g5, _⟩ := Params.ok_clauses h
  unfold geometry
  cases f with
  | i2s => exact g1
  | tdm => exact g2
  | dsd => dsimp only; split <;> assumption

theorem divLookup_pos {rows : List DivRow} {dflt : Nat} (hr : ∀ r ∈ rows, 1 ≤ r.div) (hd : 1 ≤ dflt) (f : Format)
    (family mult : Nat) : 1 ≤ divLookup rows dflt f family mult := by
  induction rows with
  | nil => exact hd
  | cons r rest ih =>
    unfold divLookup
    split
    · exact hr r (List.mem_cons_self ..)
    · exact ih (fun x hx => hr x (List.mem_cons_of_mem _ hx))

/-- Every divider of the table is at least 1 (R222). -/
theorem Params.ok_divider (h : p.ok = true) (f : Format) (family mult mode : Nat) : 1 ≤ bclkDiv p f family mult mode := by
  obtain ⟨_, _, _, _, _, _, _, _, _, _, _, _, hr, d1, d2, d3, d4⟩ := Params.ok_clauses h
  unfold bclkDiv
  cases f with
  | i2s => exact divLookup_pos hr d1 ..
  | tdm => exact divLookup_pos hr d1 ..
  | dsd => dsimp only; split <;> assumption

end Sys2Proof
end

