-- ==== Sys2Proof/Tests/Slice0.lean ====
section
/-! SUPPORT. Tests/Slice0.lean: the builder's own tests. The expected values are those of 95_test_vectors.md (V numbers) or worked
out by hand from the rule named; and, for every statement with hypotheses, a state and operands that meet them together. -/

namespace Sys2Proof.Tests

open Sys2Proof Sys2Proof.Machine

/-! ## Small parameters and states -/

/-- Two slots, a burst of two 4-byte words, four entries, I2S 2 x 16. -/
def small : Params := { Config.exampleParams with
  wordBytes := 4, burstBytes := 8, capacity := 4, ringMax := 2, maxC := 2, maxW := 16
  geomI2s := ⟨2, 16⟩, geomTdm := ⟨2, 16⟩, geomDsd64 := ⟨2, 8⟩, geomDsd128 := ⟨1, 1⟩, geomDsd256 := ⟨2, 16⟩ }

/-- The same with flags write-back (R150). -/
def smallOwn : Params := { small with writeBack := .clearOwn }

/-- Right after reset, with both rings at 0x100 and 0x200, two slots each. -/
def rings (p : Params) : State :=
  let s := State.resetWith p
  { s with host := { s.host with ring := ⟨⟨0x100, 2, 8, false, 0⟩, ⟨0x200, 2, 8, false, 0⟩⟩ } }

/-- Engine `d` in state `st`, with descriptor `c` in the latch where `v`. -/
def engIn (p : Params) (d : Dir) (st : EngState) (v : Bool) (c : Desc) : State :=
  let s := (rings p).withTurn d
  s.withEng d { s.eng.get d with st := st, curValid := v, cur := c, reqBytes := 8 }

/-- `XFER buf=0x1000 len=8 next=1` of the playback ring. -/
def dX : Desc := ⟨0x1000, 8, 0, 0x118⟩

/-- `XFER.W.I buf=0x1000 len=8`, own, with a `nextAddress` that names no slot. -/
def dW : Desc := ⟨0x1000, 8, 0x80000005, 0xFFFFFFFFFFFFFFFF⟩

/-- `XFER.L buf=0x1000 len=4`. -/
def dL : Desc := ⟨0x1000, 4, 2, 0⟩

/-- A transport that presents everything from memory, `last` on the word. -/
def eager (last : Bool) : PortIn := ⟨some .memory, true, some (.memory, last), true, false⟩

/-- `s` with the same transport inputs for both directions. -/
def onBus (s : State) (p : PortIn) : State := s.withBus ⟨p, p⟩

/-- `s` with the moves `es` next. -/
def withMoves (s : State) (es : List Event) : State := { s with inputs := es }

/-- Whether an outcome is a next state that meets `p`. -/
def nextIs (r : Result) (p : State → Bool) : Bool :=
  match r with
  | .next t => p t
  | _ => false

/-! ## Well-formedness: a term that each check refuses -/

theorem test_address_misaligned_refused : addressAligned small 0x1002 = false := by decide
theorem test_length_zero_refused : lengthEnough small 3 = false := by decide
theorem test_length_misaligned_refused : lengthAligned small 6 = false := by decide
theorem test_burst_past_top_refused : burstFits small 0xFFFFFFFFFFFFFFFC 8 = false := by decide
theorem test_burst_at_top_accepted : burstFits small 0xFFFFFFFFFFFFFFF8 4096 = true := by decide
theorem test_wellFormed_refuses : Instr.wellFormed small (.xfer 0x1002 8 false 0 false 0) = false ∧
    Instr.wellFormed small (.xferW 0x1000 0 false 0 false 0) = false ∧
    Instr.wellFormed small (.xferL 0x1000 6 false false 0 false 0) = false := by decide
theorem test_wellFormed_accepts : (instrOfDesc dX).wellFormed small = true ∧ (instrOfDesc dW).wellFormed small = true ∧
    (instrOfDesc dL).wellFormed small = true := by decide
theorem test_params_accepted : Config.exampleParams.ok = true ∧ small.ok = true ∧ smallOwn.ok = true := by decide
theorem test_capacity_no_power_refused : ({ small with capacity := 3 } : Params).ok = false := by decide
/-- R8: any power of two. -/
theorem test_capacity_large_accepted : ({ small with capacity := 2 ^ 70 } : Params).ok = true := by decide
theorem test_burst_no_multiple_refused : ({ small with burstBytes := 10 } : Params).ok = false := by decide
theorem test_one_stage_refused : ({ small with syncStages := 1 } : Params).ok = false := by decide

/-- V10, V11. -/
theorem test_next_index : nextIndex 0x10000000 4 0x10000048 = some 3 ∧ nextIndex 0x10000000 4 0x10000060 = none ∧
    nextIndex 0x10000000 4 0x10000010 = none ∧ nextIndex 0x10000000 4 0x0FFFFFE8 = none := by decide

/-! ## Decoding: the words written out from R90 and R93 -/

/-- V1. -/
theorem test_decode_xfer :
    decode [0x00, 0x00, 0x00, 0x20, 0, 0, 0, 0, 0x00, 0x02, 0, 0, 0x00, 0, 0, 0, 0x18, 0x00, 0x00, 0x10, 0, 0, 0, 0] =
      .ok (.xfer 0x20000000 512 false 0 false 0x10000018, []) := by decide

/-- V2. -/
theorem test_decode_xfer_i :
    decode [0x00, 0x02, 0x00, 0x20, 0, 0, 0, 0, 0x00, 0x02, 0, 0, 0x01, 0, 0, 0, 0x30, 0x00, 0x00, 0x10, 0, 0, 0, 0] =
      .ok (.xfer 0x20000200 512 true 0 false 0x10000030, []) := by decide

/-- V4. -/
theorem test_decode_xferW :
    decode [0x10, 0x00, 0x00, 0x50, 0, 0, 0, 0, 8, 0, 0, 0, 0x05, 0x00, 0x00, 0x80, 0, 0, 0, 0, 0, 0, 0, 0] =
      .ok (.xferW 0x50000010 8 true 0 true 0, []) := by decide

/-- V3. -/
theorem test_decode_xferL :
    decode [0x00, 0x06, 0x00, 0x20, 0, 0, 0, 0, 0x00, 0x02, 0, 0, 0x03, 0, 0, 0, 0x00, 0x00, 0x00, 0x10, 0, 0, 0, 0] =
      .ok (.xferL 0x20000600 512 true false 0 false 0x10000000, []) := by decide

/-- V5, V8: reserved bits 30:3 all 1, an address above 4 GiB. -/
theorem test_decode_reserved :
    decode [0x90, 0x78, 0x56, 0x34, 0x12, 0, 0, 0, 8, 0, 0, 0, 0xFA, 0xFF, 0xFF, 0x7F, 0, 0, 0, 0, 0, 0, 0, 0] =
      .ok (.xferL 0x1234567890 8 false false 0xFFFFFFF false 0, []) := by decide

/-- V6: both terminal bits. -/
theorem test_decode_both_terminal : instrOfDesc ⟨0, 0, 6, 0⟩ = .xferL 0 0 false true 0 false 0 := by decide

/-- V9. -/
theorem test_decode_all_ones : decode (List.replicate 24 0xFF) =
    .ok (.xferL 0xFFFFFFFFFFFFFFFF 0xFFFFFFFF true true 0xFFFFFFF true 0xFFFFFFFFFFFFFFFF, []) := by decide

/-- V1, the other way. -/
theorem test_encode_xfer : encode (.xfer 0x20000000 512 false 0 false 0x10000018) =
    [0x00, 0x00, 0x00, 0x20, 0, 0, 0, 0, 0x00, 0x02, 0, 0, 0x00, 0, 0, 0, 0x18, 0x00, 0x00, 0x10, 0, 0, 0, 0] := by decide

/-- The rows of spec/opcode_table.json by their flags word and by their record. -/
theorem test_table_words :
    decodeTableWord 32 0 = some (.xfer 0 0 false 0 false 0) ∧ decodeTableWord 8 4 = some (.xferW 0 0 false 0 false 0) ∧
    decodeTableWord 8 2 = some (.xferL 0 0 false false 0 false 0) ∧
    decodeTableWord 192 0x000000000000000000000004000000000000000000000000 = some (.xferW 0 0 false 0 false 0) := by decide

/-! ## One step of each kind -/

/-- V117: `XFER.I` completes slot 0, two words moved. -/
theorem test_xfer_updates :
    nextIs (exec (.xfer 0x1000 8 true 0 false 0x118)
        (let s := engIn small .pb .updateDescriptor true dX; s.withEng .pb { s.eng.pb with burstCnt := 2 }))
      (fun t => t.ring.pb == ⟨[true, false], 1, 0, 8⟩ && t.eng.pb.st == .idle && t.eng.pb.completeSig &&
        t.eng.pb.completeEdges == 1 && !t.eng.pb.curValid) = true := by decide

/-- V109: the request of a descriptor longer than a burst is one burst. -/
theorem test_xfer_requests :
    nextIs (exec (.xfer 0x1000 4096 false 0 false 0x118) (onBus (engIn small .pb .fetchDescriptor true dX) (eager false)))
      (fun t => t.eng.pb.st == .moveData && t.eng.pb.reqBytes == 8 && t.ring.pb.activeCount == 1) = true := by decide

/-- V118, R150: `XFER.W` goes to slot 0, and the word written back has bit 31 clear. -/
theorem test_xferW_updates :
    nextIs (exec (instrOfDesc dW)
        (let s := engIn smallOwn .cap .updateDescriptor true dW; s.withRing .cap { s.ring.cap with currentIndex := 1 }))
      (fun t => t.ring.cap.currentIndex == 0 && t.eng.cap.st == .idle && t.mem == [(0x218 + 12, 5)]) = true := by decide

/-- V34, R146: a playback word is sliced with channel 0 lowest. -/
theorem test_xferW_moves :
    nextIs (exec (instrOfDesc dW)
        (onBus ({ engIn small .pb .moveData true dW with mem := [(0x1001, 0x10), (0x1003, 0x20)] }) (eager false)))
      (fun t => t.fifo.pb.mem.head? == some [0x1000, 0x2000] && t.fifo.pb.wr == 1 && t.eng.pb.burstCnt == 1) = true := by decide

/-- V119: `XFER.L` without `.I`: `Complete`, the signal still 0. -/
theorem test_xferL_updates :
    nextIs (exec (instrOfDesc dL)
        (let s := engIn small .pb .updateDescriptor true dL; s.withRing .pb { s.ring.pb with currentIndex := 1 }))
      (fun t => t.ring.pb.currentIndex == 0 && t.eng.pb.st == .complete && !t.eng.pb.completeSig) = true := by decide

/-- V115: the last capture word is handed over at the next address, marked as the last, and ends the burst by the engine's own count. -/
theorem test_xferL_moves :
    nextIs (exec (instrOfDesc dL)
        (let s := onBus (engIn small .cap .moveData true dL) (eager false)
         let s := s.withEng .cap { s.eng.cap with burstCnt := 1 }
         s.withFifo .cap { s.fifo.cap with mem := [[0x1000, 0x2000], [], [], []], wr := 1, wrSync := ⟨[1, 1], 1⟩ }))
      (fun t => t.port.cap.pending == [⟨0x1004, 4, 0x20001000, true⟩] && t.fifo.cap.rd == 1 && t.eng.cap.st == .updateDescriptor &&
        t.mem == []) = true := by decide

/-! ## Rules of the other units -/

/-- V32: a width that is no whole number of bytes. -/
theorem test_slice_20_bits : slice small ⟨2, 20⟩ 0xFFFFFFABCDE12345 = [0x12345, 0xABCDE] ∧
    pack ⟨2, 20⟩ [0x12345, 0xABCDE] = 0xABCDE12345 := by decide

/-- V46, V47: the indices wrap. -/
theorem test_index_wrap :
    occC small { fifoReset small [] with rd := 7, wrSync := ⟨[1, 1], 1⟩ } = 2 ∧
    occP small { fifoReset small [] with wr := 7, rdSync := ⟨[4, 4], 4⟩ } = 3 := by decide

/-- R357, R286: playback from the buffer that a capture pass fills is refused while that pass runs, and latched once the capture
engine is in `Complete`, its direction still enabled. -/
theorem test_overlap_ends_with_the_pass :
    let s := engIn small .pb .fetchDescriptor false dX
    let s := { s with host := { s.host with enable := ⟨true, true⟩ } }
    let running := s.withEng .cap { s.eng.cap with st := .moveData, curValid := true, cur := ⟨0x1004, 4, 2, 0⟩ }
    let ended := s.withEng .cap { s.eng.cap with st := .complete, cur := ⟨0x1004, 4, 2, 0⟩ }
    latchRefusal running .pb dX = some .overlappingRegions ∧ latchRefusal ended .pb dX = none := by decide

/-- The next state of an outcome, else `s`. -/
def nextOr (r : Result) (s : State) : State :=
  match r with
  | .next t => t
  | _ => s

/-- Both directions enabled. -/
def enabled (s : State) : State := { s with host := { s.host with enable := ⟨true, true⟩ } }

/-- Capture latched a record whose buffer is the record of playback's slot 0, with playback not enabled. -/
def capOverPb : State :=
  let s := engIn small .cap .fetchDescriptor false dX
  nextOr (exec (.xfer 0x100 8 false 0 false 0x218) s) s

/-- The same with both directions enabled and the capture engine further on, in `st`. -/
def capOverPbIn (st : EngState) : State := let s := enabled capOverPb; s.withEng .cap { s.eng.cap with st := st }

/-- R357: playback, enabled only then, is refused at its launch: while the burst writes that record, and once it has; it is not
after the capture pass is over (R286), nor where the burst misses the record. -/
theorem test_launch_over_written_record :
    engineStep .pb (capOverPbIn .moveData) = .refused .overlappingRegions ∧
    engineStep .pb (capOverPbIn .idle) = .refused .overlappingRegions ∧
    nextIs (engineStep .pb (capOverPbIn .complete)) (fun t => t.eng.pb.st == .fetchDescriptor) = true ∧
    nextIs (engineStep .pb ((capOverPbIn .moveData).withRing .pb { (ringReset small) with currentIndex := 1 }))
      (fun t => t.eng.pb.st == .fetchDescriptor) = true :=
  ⟨rfl, rfl, by decide, by decide⟩

/-- R357: a buffer that the pass has filled and completed is not read by playback in the same pass. -/
theorem test_overlap_with_completed_activation :
    let s := let s := enabled (capOverPb.withTurn .pb); s.withRing .cap { s.ring.cap with complete := [true, false], currentIndex := 1 }
    let s := (s.withEng .cap { s.eng.cap with st := .idle, curValid := false }).withEng .pb { s.eng.pb with st := .fetchDescriptor }
    latchRefusal s .pb ⟨0x104, 4, 2, 0⟩ = some .overlappingRegions ∧
    latchRefusal (setEnable .cap false s) .pb ⟨0x104, 4, 2, 0⟩ = none := by decide

/-- V75: every bit of the old or of the new value. -/
theorem test_bitmix : captured .bitmix 1 2 0 = 1 ∧ captured .bitmix 1 2 1 = 0 ∧ captured .bitmix 1 2 2 = 3 ∧
    captured .bitmix 1 2 3 = 2 ∧ captured .none 1 2 0 = 2 := by decide

/-- V54, V55. -/
theorem test_shift : shiftBit ⟨1, 4⟩ 5 true = 11 ∧ shiftBit ⟨1, 4⟩ 0xF false = 0xE := by decide

/-- V53, the first event: two lines, the most significant bits of 0xA5 and 0x3C. -/
theorem test_dsd_lines : driveData small .dsd ⟨2, 8⟩ [0xA5, 0x3C] 0 0 = [true, false] ∧
    driveData small .dsd ⟨2, 8⟩ [0xA5, 0x3C] 2 0 = [true, true] := by decide

/-- The table's word, placed where the next step fetches it, decodes there and is refused: its length is 0 (R64). -/
theorem test_fetch_of_zero_length : step (State.reset.withFetchWord 32 4) = .refused .misaligned := by rfl

/-- A whole record, placed there, is latched (R144). -/
theorem test_fetch_of_record :
    nextIs (step (State.reset.withFetchWord 192 (recOfDesc ⟨0x1000, 32, 4, 0⟩).toNat))
      (fun t => t.eng.pb.curValid && t.eng.pb.cur == ⟨0x1000, 32, 4, 0⟩) = true := by decide

/-! ## Witnesses: for each statement with hypotheses, states and operands that meet them together -/

/-- The two buffers at push and pop indices `w` and `r`, which every synchronizer stage shows. -/
def atIndices (w r : Nat) (s : State) : State :=
  let f : Fifo := { s.fifo.pb with wr := w, rd := r, wrSync := ⟨[w, w], w⟩, rdSync := ⟨[r, r], r⟩ }
  { s with fifo := ⟨f, f⟩ }

/-- `s` with the format, sub-mode and master cells settled on the values given. -/
def settled (f m v : Nat) (s : State) : State :=
  { s with control := { s.control with format := ⟨[f, f], f⟩, dsdMode := ⟨[m, m], m⟩, master := ⟨[v, v], v⟩ } }

/-- `s` with the enable cells settled on 1. -/
def streaming (s : State) : State := { s with control := { s.control with pbEn := ⟨[1, 1], 1⟩, capEn := ⟨[1, 1], 1⟩ } }

/-- `s` with the bit and channel counters at `b` and `c`. -/
def atBit (b c : Nat) (s : State) : State := { s with afp := { s.afp with bitCnt := b, chCnt := c } }

/-- `XFER buf=0x1000 len=8` of the capture ring. -/
def dXc : Desc := ⟨0x1000, 8, 0, 0x218⟩

/-- `XFER.W` whose one-word buffer ends at the top of the address space. -/
def dTop : Desc := ⟨0xFFFFFFFFFFFFFFFC, 4, 4, 0⟩

theorem witness_EncodeOfDecode : (List.replicate 24 (0xFF : Byte)).length = 24 ∧ (List.replicate 23 (0xFF : Byte)).length < 24 := by
  decide

theorem witness_HostMemoryLittleEndian : (∃ v, memRead [] (2 ^ 64 - 4) 4 = some v) ∧ 3 < 4 ∧ memWf [] = true ∧
    (∃ m', memWrite [] (2 ^ 64 - 4) 4 0x01020304 = some m') ∧ 2 ^ 64 - 5 < 2 ^ 64 - 4 ∧ 2 ^ 64 - 4 + 4 ≤ 2 ^ 64 :=
  ⟨⟨_, rfl⟩, by decide, by decide, ⟨_, rfl⟩, by decide, by decide⟩

theorem witness_WriteThenRead : memWf [] = true ∧ ∃ m', memWrite [] (2 ^ 64 - 4) 4 0x01020304 = some m' := ⟨by decide, ⟨_, rfl⟩⟩

theorem witness_MemoryFormKept : let s := withMoves (State.resetWith small) [.writeMemory 0x1000 [1, 0, 2]]
    memWf s.mem = true ∧ ∃ t, step s = .next t := ⟨by decide, ⟨_, rfl⟩⟩

/-- Each clause for each direction, the room exactly one burst, or one frame less than it; the record that the other direction
has written, or one that ends where the written region begins. -/
theorem witness_IdleStep :
    (let s := enabled (atIndices 2 0 (rings small))
     (s.eng.get .pb).st = .idle ∧ s.host.enable.get .pb = true ∧ 2 = s.params.capacity - occP s.params s.fifo.pb ∧
      (s.host.ring.get .pb).bufferSize % s.params.burstBytes = 0 ∧
      (s.eng.get .cap).st = .idle ∧ s.host.enable.get .cap = true ∧ 2 = occC s.params s.fifo.cap ∧
      (s.host.ring.get .cap).bufferSize % s.params.burstBytes = 0 ∧ s.used.get .cap = [] ∧ s.used.get .pb = []) ∧
    (let s := (enabled (atIndices 2 0 (rings small))).withUsed .cap [⟨[], [⟨0x117, 8⟩]⟩]
     (s.eng.get .pb).st = .idle ∧ s.host.enable.get .pb = true ∧ 2 = s.params.capacity - occP s.params s.fifo.pb ∧
      (s.host.ring.get .pb).bufferSize % s.params.burstBytes = 0 ∧
      currentComplete s .pb = false ∧ inPlay s Dir.pb.other = true ∧ ⟨[], [⟨0x117, 8⟩]⟩ ∈ s.used.get Dir.pb.other ∧
      fetchAddress s .pb ≤ 0x117 ∧ 0x117 < fetchAddress s .pb + 24) ∧
    (let s := (enabled (atIndices 2 0 (rings small))).withUsed .cap [⟨[], [⟨0x118, 8⟩]⟩]
     inPlay s Dir.pb.other = true ∧ fetchAddress s .pb + 24 = 0x118) ∧
    (let s := setRingInputs .pb 12 false 0 (enabled (rings small))
     (s.eng.get .pb).st = .idle ∧ s.host.enable.get .pb = true ∧ 2 ≤ s.params.capacity - occP s.params s.fifo.pb ∧
      (s.host.ring.get .pb).bufferSize % s.params.burstBytes ≠ 0) ∧
    (let s := enabled (atIndices 3 0 (rings small))
     (s.eng.get .pb).st = .idle ∧ s.params.capacity - occP s.params s.fifo.pb = 1) ∧
    (let s := enabled (atIndices 1 0 (rings small))
     (s.eng.get .cap).st = .idle ∧ occC s.params s.fifo.cap = 1) := by decide

theorem witness_CompleteSlotEndsPass :
    let s := let s := engIn small .pb .fetchDescriptor false dX; s.withRing .pb { s.ring.pb with complete := [false, true], currentIndex := 1 }
    (s.eng.get .pb).st = .fetchDescriptor ∧ (s.ring.get .pb).complete.getD (s.ring.get .pb).currentIndex false = true := by decide

theorem witness_RecordIsLatched :
    (let s := engIn small .pb .fetchDescriptor false dW
     (s.eng.get s.turn).st = .fetchDescriptor ∧ currentComplete s s.turn = false ∧ (s.eng.get s.turn).curValid = false ∧
      latchRefusal s s.turn (instrOfDesc dX).desc = none ∧ latchRefusal s s.turn (instrOfDesc dL).desc = none ∧
      latchRefusal s s.turn (instrOfDesc dTop).desc = none) ∧
    (let s := engIn smallOwn .cap .fetchDescriptor false dW
     (s.eng.get s.turn).st = .fetchDescriptor ∧ currentComplete s s.turn = false ∧ (s.eng.get s.turn).curValid = false ∧
      latchRefusal s s.turn (instrOfDesc dXc).desc = none ∧ latchRefusal s s.turn (instrOfDesc dL).desc = none ∧
      latchRefusal s s.turn (instrOfDesc dTop).desc = none) := by decide

/-- A capture burst whose last byte is the first of its own record; the two engines' bursts with one byte in common, for either
direction; a burst with one byte of a region that an earlier activation of either pass wrote; a capture engine in `Complete`, at
rest, and after a DMA error. -/
theorem witness_InvalidRecordRefused_overlaps :
    (let s := engIn small .cap .fetchDescriptor false dW
     let desc : Desc := ⟨0x1FC, 8, 0, 0x218⟩
     desc.bufferAddress.toNat ≤ 0x200 ∧ 0x200 < desc.bufferAddress.toNat + min s.params.burstBytes desc.length.toNat ∧
      fetchAddress s .cap ≤ 0x200 ∧ 0x200 < fetchAddress s .cap + 24) ∧
    (∀ d ∈ [Dir.pb, Dir.cap], let s := engIn small d.other .moveData true ⟨0x1004, 8, 4, 0⟩
     let e := s.eng.get d.other
     e.dmaErr = false ∧ e.st = .moveData ∧ e.curValid = true ∧ currentComplete s d.other = false ∧ 1 ≤ ringCount s d.other ∧ 1 ≤ s.params.ringMax ∧
      dX.bufferAddress.toNat ≤ 0x1007 ∧ 0x1007 < dX.bufferAddress.toNat + min s.params.burstBytes dX.length.toNat ∧
      e.cur.bufferAddress.toNat ≤ 0x1007 ∧ 0x1007 < e.cur.bufferAddress.toNat + min s.params.burstBytes e.cur.length.toNat) ∧
    (∀ d ∈ [Dir.pb, Dir.cap], let f : Footprint := ⟨[], [⟨0xFF9, 8⟩]⟩
     let s := (enabled (rings small)).withUsed d [f]
     f ∈ s.used.get d ∧ (s.eng.get d).dmaErr = false ∧ (s.eng.get d).st ≠ .complete ∧
      ((s.eng.get d).st = .idle → s.host.enable.get d = true) ∧ 0x1000 < 0xFF9 + 8 ∧ dX.bufferAddress.toNat = 0x1000 ∧
      0x1000 < dX.bufferAddress.toNat + min s.params.burstBytes dX.length.toNat) ∧
    (let s := rings small; let s := s.withEng .cap { s.eng.cap with dmaErr := true }
     s.params.writeBack = .none ∧ s.used.pb = [] ∧ s.eng.cap.dmaErr = true) ∧
    ((engIn small .cap .complete false dW).used.pb = [] ∧ (rings small).used.pb = []) ∧
    ((engIn small .cap .complete false dW).params.writeBack = .none ∧ (engIn small .cap .complete false dW).eng.cap.st = .complete) ∧
    ((rings small).eng.cap.st = .idle ∧ (rings small).host.enable.cap = false) := by decide

/-- Clause by clause: a length one byte short; a `nextAddress` one slot past the ring's end; the ring's last slot, beside a
device region that ends where the burst starts, and beside one whose last byte is the burst's first; an overlap. -/
theorem witness_InvalidRecordRefused :
    let near : Params := { small with deviceRegions := [⟨0xFF0, 16⟩] }
    let on : Params := { small with deviceRegions := [⟨0xFF1, 16⟩] }
    let s := engIn near .pb .fetchDescriptor false dW
    (s.eng.get s.turn).st = .fetchDescriptor ∧ currentComplete s s.turn = false ∧ (s.eng.get s.turn).curValid = false ∧
    (let i := Instr.xfer 0x1000 3 false 0 false 0x118
     ¬(4 ≤ i.desc.length.toNat)) ∧
    (let i := Instr.xfer 0x1000 4 false 0 false 0x130
     (0x100 % 8 = 0 ∧ i.desc.bufferAddress.toNat % 4 = 0 ∧ 4 ≤ i.desc.length.toNat ∧ i.desc.length.toNat % 4 = 0) ∧
     i.desc.lastInChain = false ∧ i.desc.wrap = false ∧ ∀ k, k < 2 → i.desc.nextAddress.toNat ≠ 0x100 + k * 24) ∧
    (let i := instrOfDesc dX
     (0x100 % 8 = 0 ∧ i.desc.bufferAddress.toNat % 4 = 0 ∧ 4 ≤ i.desc.length.toNat ∧ i.desc.length.toNat % 4 = 0) ∧
     (1 ≤ 2 ∧ 2 ≤ s.params.ringMax) ∧ 0x100 + 2 * 24 ≤ 2 ^ 64 ∧ i.desc.bufferAddress.toNat + min 8 i.desc.length.toNat ≤ 2 ^ 64 ∧
     i.desc.nextAddress.toNat = 0x100 + 1 * 24 ∧ inDevice s s.turn i.desc = false ∧ overlaps s s.turn i.desc = false ∧
     (let u := engIn on .pb .fetchDescriptor false dW
      0xFF1 ≤ 0x1000 ∧ 0x1000 < 0xFF1 + 16 ∧ i.desc.bufferAddress.toNat = 0x1000 ∧ inDevice u u.turn i.desc = true) ∧
     (let u := s.withEng .cap { s.eng.cap with st := .moveData, curValid := true, cur := ⟨0x1004, 4, 2, 0⟩ }
      u.turn = .pb ∧ inDevice u u.turn i.desc = false ∧ overlaps u u.turn i.desc = true)) ∧
    (s.host.ring.get s.turn).base.toNat = 0x100 ∧ (s.host.ring.get s.turn).descCount = 2 ∧ s.params.wordBytes = 4 ∧
    s.params.burstBytes = 8 := by decide

theorem witness_RequestStartsBurst :
    let s := onBus (engIn small .cap .fetchDescriptor true dXc) (eager false)
    (s.eng.get s.turn).st = .fetchDescriptor ∧ currentComplete s s.turn = false ∧ (s.eng.get s.turn).curValid = true ∧
    (s.bus.get s.turn).reqAccept = true := by decide

/-- The last word of the address space, into the last free entry. -/
theorem witness_PlaybackWordMoved : ∃ g,
    let s := onBus (atIndices 3 0 (engIn small .pb .moveData true dTop)) (eager true)
    s.turn = .pb ∧ s.eng.pb.st = .moveData ∧ s.bus.pb.rdWord = some (.memory, true) ∧ transportGeometry s = .ok g ∧
    occP s.params s.fifo.pb < s.params.capacity ∧
    (instrOfDesc dTop).desc.bufferAddress.toNat + s.eng.pb.burstCnt * s.params.wordBytes + s.params.wordBytes = 2 ^ 64 ∧
    s.port.pb.rdAhead = [] ∧ ({ s with port := ⟨⟨⟨none, none, none, none⟩, [5], []⟩, portReset⟩ } : State).port.pb.rdAhead = [5] :=
  ⟨⟨2, 16⟩, by decide, by decide, by decide, rfl, by decide, by decide, by decide, by decide⟩

/-- The last word of the address space, from the last filled entry. -/
theorem witness_CaptureWordMoved : ∃ g,
    let s := onBus (atIndices 1 0 (engIn small .cap .moveData true dTop)) (eager true)
    s.turn = .cap ∧ s.eng.cap.st = .moveData ∧ s.bus.cap.wrReady = true ∧ transportGeometry s = .ok g ∧
    0 < occC s.params s.fifo.cap ∧
    (instrOfDesc dTop).desc.bufferAddress.toNat + s.eng.cap.burstCnt * s.params.wordBytes + s.params.wordBytes = 2 ^ 64 :=
  ⟨⟨2, 16⟩, by decide, by decide, by decide, rfl, by decide, by decide⟩

/-- The ring's last slot, and one slot further. -/
theorem witness_XferCompletes : ∃ m,
    let s := engIn smallOwn .pb .updateDescriptor true dX
    (s.eng.get s.turn).st = .updateDescriptor ∧ performAll s.mem (s.port.get s.turn).pending = some m ∧
    fetchAddress s s.turn + 24 ≤ 2 ^ 64 ∧ 1 < ringCount s s.turn ∧ (0x118#64).toNat = ringBase s s.turn + 1 * 24 ∧
    (∀ k, k < ringCount s s.turn → (0x130#64).toNat ≠ ringBase s s.turn + k * 24) :=
  ⟨[], by decide, rfl, by decide, by decide, by decide, by decide⟩

/-- With a write still in the transport's hands. -/
theorem witness_XferWCompletes : ∃ m,
    let s := (engIn smallOwn .cap .updateDescriptor true dW).withPort .cap ⟨⟨none, none, none, none⟩, [], [⟨0x1000, 4, 7, true⟩]⟩
    (s.eng.get s.turn).st = .updateDescriptor ∧ performAll s.mem (s.port.get s.turn).pending = some m ∧
    fetchAddress s s.turn + 24 ≤ 2 ^ 64 :=
  ⟨[(0x1000, 7)], by decide, rfl, by decide⟩

theorem witness_XferLCompletes : ∃ m,
    let s := engIn small .pb .updateDescriptor true dL
    (s.eng.get s.turn).st = .updateDescriptor ∧ performAll s.mem (s.port.get s.turn).pending = some m ∧
    fetchAddress s s.turn + 24 ≤ 2 ^ 64 :=
  ⟨[], by decide, rfl, by decide⟩

theorem witness_CompleteStateHolds :
    ((engIn small .cap .complete false dX).eng.get .cap).st = .complete ∧
    (enabled (engIn small .cap .complete false dX)).host.enable.get .cap = true := by decide

theorem witness_AbsentInputWaits :
    (let s := engIn small .cap .fetchDescriptor false dX
     (s.eng.get .cap).st = .fetchDescriptor ∧ currentComplete s .cap = false ∧ (s.eng.get .cap).curValid = false ∧
      (s.bus.get .cap).descData = none) ∧
    (let s := engIn small .cap .fetchDescriptor true dX
     s.turn = .cap ∧ (s.eng.get .cap).st = .fetchDescriptor ∧ currentComplete s .cap = false ∧
      (s.eng.get .cap).curValid = true ∧ (s.bus.get .cap).reqAccept = false) ∧
    (let s := engIn small .pb .moveData true dX
     s.turn = .pb ∧ (s.eng.get .pb).st = .moveData ∧ (s.bus.get .pb).rdWord = none) ∧
    (let s := engIn small .cap .moveData true dX
     s.turn = .cap ∧ (s.eng.get .cap).st = .moveData ∧ (s.bus.get .cap).wrReady = false) := by decide

theorem witness_CompleteSignalEveryTick :
    let s := engIn small .pb .updateDescriptor true ⟨0x1000, 8, 1, 0x118⟩
    (s.eng.get .pb).dmaErr = false ∧ ∃ t, engineTick .pb s = .next t := ⟨by decide, ⟨_, rfl⟩⟩

theorem witness_EnableIgnoredInFlight :
    ((engIn small .pb .fetchDescriptor true dX).eng.get .pb).st = .fetchDescriptor ∧
    ((engIn small .cap .moveData true dX).eng.get .cap).st = .moveData ∧
    ((engIn small .cap .updateDescriptor true dX).eng.get .cap).st = .updateDescriptor := by decide

theorem witness_ReservedAndOwnedBitsIgnored :
    let s := engIn small .pb .fetchDescriptor true dX
    s.params.writeBack = .none ∧ (s.eng.get s.turn).st = .fetchDescriptor ∧ (s.eng.get s.turn).curValid = true := by decide

theorem witness_ExecKeepsWhatItDoesNotOwn :
    (let s := onBus (engIn small .cap .fetchDescriptor true dXc) (eager false)
     (∃ t, exec (instrOfDesc dXc) s = .next t) ∧ 1 ≠ (s.ring.get s.turn).currentIndex ∧ (s.eng.get s.turn).st ≠ .updateDescriptor) ∧
    (let s := engIn smallOwn .pb .updateDescriptor true dX
     (∃ t, exec (instrOfDesc dX) s = .next t) ∧ 1 ≠ (s.ring.get s.turn).currentIndex) :=
  ⟨⟨⟨_, rfl⟩, by decide, by decide⟩, ⟨_, rfl⟩, by decide⟩

/-- The bytes just below and just above the written word and the flags word. -/
theorem witness_ExecMemoryFrame :
    (let s := onBus (engIn small .pb .fetchDescriptor true dX) (eager false)
     (∃ t, exec (instrOfDesc dX) s = .next t) ∧ (s.eng.get s.turn).st ≠ .updateDescriptor) ∧
    (let s := (engIn smallOwn .cap .updateDescriptor true dW).withPort .cap ⟨⟨none, none, none, none⟩, [], [⟨0x1000, 4, 7, true⟩]⟩
     (∃ t, exec (instrOfDesc dW) s = .next t) ∧ memWf s.mem = true ∧
      ∀ a ∈ [0xFFF, 0x1004, 0x20B, 0x210], (∀ w ∈ (s.port.get s.turn).pending, a < w.addr ∨ w.addr + w.size ≤ a) ∧
        (a < fetchAddress s s.turn + 12 ∨ fetchAddress s s.turn + 16 ≤ a)) :=
  ⟨⟨⟨_, rfl⟩, by decide⟩, ⟨_, rfl⟩, by decide, by decide⟩

/-- A field not yet read and one read before; the burst's last word and none left; a write that ends at the top of the address
space, none, and one that does not fit. -/
theorem witness_ExecMemoryFrame_transport :
    (let s := engIn small .cap .fetchDescriptor false dW
     (s.eng.get .cap).st = .fetchDescriptor ∧ currentComplete s .cap = false ∧ (s.eng.get .cap).curValid = false ∧
      (s.port.get .cap).fields.get .flags = none ∧ fetchAddress s .cap + 24 ≤ 2 ^ 64 ∧
      ((readField .cap .flags s).port.get .cap).fields.get .flags ≠ none) ∧
    (let s := engIn small .pb .moveData true dX
     let s := s.withEng .pb { s.eng.pb with burstCnt := 1 }
     s.eng.pb.st = .moveData ∧ s.eng.pb.burstCnt + s.port.pb.rdAhead.length < s.eng.pb.reqBytes / s.params.wordBytes ∧
      s.eng.pb.cur.bufferAddress.toNat + 1 * 4 + s.params.wordBytes ≤ 2 ^ 64 ∧
      ¬((readAhead s).eng.pb.burstCnt + (readAhead s).port.pb.rdAhead.length < s.eng.pb.reqBytes / s.params.wordBytes)) ∧
    (memWrite [] (2 ^ 64 - 4) 4 7).isSome = true ∧ (rings small).port.cap.pending = [] ∧ 2 ^ 64 < (2 ^ 64 - 3) + 4 := by decide

/-- The move of the two fetches below: both transports present what memory holds. -/
def bothPresent : PortIn := { PortIn.absent with descData := some .memory }

/-- Both engines wait for a record; slot 0 holds `XFER.W len=8`, of playback from 0x1000, of capture to 0x2000. -/
def twoFetches : State :=
  let s := rings small
  let e : Eng := { s.eng.pb with st := .fetchDescriptor }
  { s with
    eng := ⟨e, e⟩
    mem := setBytes (setBytes [] 0x100 (bytesOfRec (recOfDesc ⟨0x1000, 8, 4, 0⟩))) 0x200 (bytesOfRec (recOfDesc ⟨0x2000, 8, 4, 0⟩))
    inputs := [.transportTick bothPresent bothPresent] }

/-- The bytes that the conclusion of the statement decodes. -/
def recordNow (u : State) (d : Dir) : List Byte :=
  let a := (u.host.ring.get d).base.toNat + (u.ring.get d).currentIndex * 24
  let early := (u.port.get d).fields
  early.bufferAddress.getD (loadBytes u.mem a 8) ++ early.length.getD (loadBytes u.mem (a + 8) 4) ++
    early.flags.getD (loadBytes u.mem (a + 12) 4) ++ early.nextAddress.getD (loadBytes u.mem (a + 16) 8)

/-- Litmus L4: the transport has read playback's `bufferAddress`; then the host rewrites it and the length. -/
def tornFetch : State :=
  let s := readField .pb .bufferAddress twoFetches
  { s with mem := setBytes s.mem 0x100 (bytesOfRec (recOfDesc ⟨0x3000, 4, 4, 0⟩)) }

/-- L4: the old buffer and the new length are latched. -/
theorem test_torn_fetch : nextIs (step tornFetch) (fun t => t.eng.pb.cur == ⟨0x1000, 4, 4, 0⟩ && t.eng.pb.curValid) = true := by
  decide

/-- Nothing read early, and one field. -/
theorem witness_StepRunsFetchedInstruction_pb :
    (∀ s ∈ [twoFetches, tornFetch],
      let u := (takeEvent s).withBus ⟨bothPresent, bothPresent⟩
      s.inputs = .transportTick bothPresent bothPresent :: [] ∧ resetAsserted s = false ∧
      (u.eng.get .pb).dmaErr = false ∧ (u.eng.get .pb).st = .fetchDescriptor ∧ currentComplete u .pb = false ∧
      (u.eng.get .pb).curValid = false ∧ (u.bus.get .pb).descData = some .memory ∧
      (u.host.ring.get .pb).base.toNat + (u.ring.get .pb).currentIndex * 24 + 24 ≤ 2 ^ 64) ∧
    (twoFetches.port.get .pb).fields = ⟨none, none, none, none⟩ ∧
    decode (recordNow twoFetches .pb) = .ok (.xferW 0x1000 8 false 0 false 0, []) ∧
    (tornFetch.port.get .pb).fields ≠ ⟨none, none, none, none⟩ ∧
    decode (recordNow tornFetch .pb) = .ok (.xferW 0x1000 4 false 0 false 0, []) := by decide

theorem witness_StepRunsFetchedInstruction_cap :
    let s := twoFetches
    let v := (takeEvent s).withBus ⟨bothPresent, bothPresent⟩
    let u := nextOr (engineTick .pb v) v
    engineTick .pb v = .next u ∧ (u.eng.get .pb).curValid = true ∧
    (u.eng.get .cap).dmaErr = false ∧ (u.eng.get .cap).st = .fetchDescriptor ∧ currentComplete u .cap = false ∧
    (u.eng.get .cap).curValid = false ∧ (u.bus.get .cap).descData = some .memory ∧
    (u.port.get .cap).fields = ⟨none, none, none, none⟩ ∧
    (u.host.ring.get .cap).base.toNat + (u.ring.get .cap).currentIndex * 24 + 24 ≤ 2 ^ 64 ∧
    decode (recordNow u .cap) = .ok (.xferW 0x2000 8 false 0 false 0, []) :=
  ⟨rfl, by decide, by decide, by decide, by decide, by decide, by decide, by decide, by decide, by decide⟩

theorem witness_TickRunsLatchedInstruction :
    (twoFetches.inputs = [.transportTick bothPresent bothPresent] ∧ resetAsserted twoFetches = false) ∧
    (let s := engIn small .pb .fetchDescriptor true dX
     (s.eng.get .pb).dmaErr = false ∧ (s.eng.get .pb).st = .fetchDescriptor ∧ currentComplete s .pb = false ∧
      (s.eng.get .pb).curValid = true) ∧
    (let s := engIn small .cap .moveData true dX
     (s.eng.get .cap).dmaErr = false ∧ (s.eng.get .cap).st = .moveData) ∧
    (let s := engIn small .cap .updateDescriptor true dX
     (s.eng.get .cap).dmaErr = false ∧ (s.eng.get .cap).st = .updateDescriptor) := by decide

/-! ### Invariants: a state in the middle of a burst that meets them, with a step -/

theorem buffer_small_good (w r : Nat) (h : (w, r) = (2, 0) ∨ (w, r) = (1, 7)) :
    BufferInv small (atIndices w r (rings small)).fifo.pb := by
  rcases h with h | h <;> cases h <;> constructor <;> decide

/-- Playback in `MoveData` with both buffers half full, the next move a transport tick with a word. -/
def inBurst : State :=
  let s := atIndices 2 0 (engIn small .pb .moveData true dX)
  let s := s.withRing .pb { s.ring.pb with activeCount := 1 }
  withMoves s [.transportTick (eager false) (eager false)]

theorem witness_EngineControlKept : EnginesInv inBurst ∧ ∃ t, step inBurst = .next t :=
  ⟨⟨by decide, fun d _ => by cases d <;> constructor <;> decide⟩, ⟨_, rfl⟩⟩

theorem not_resetTickNext_of_low {s : State} (h : resetAsserted s = false) : ¬resetTickNext s := fun r => by simp [r.1] at h

/-- A host move while the soft reset is 1 is no reset. -/
theorem not_resetTickNext_of_enable {s : State} {d : Dir} (h : nextEvent s = .enable d) : ¬resetTickNext s := by
  rintro ⟨-, ⟨_, _, e⟩ | ⟨_, e⟩⟩ <;> simp [e] at h

/-- A tick with no reset input, and a host move between ticks while the soft reset is 1. -/
theorem witness_NoStaleReplay :
    let u := let s := engIn small .pb .updateDescriptor true dX
      s.withRing .pb { s.ring.pb with activeCount := 1, complete := [false, true] }
    (let s := withMoves u [.transportTick PortIn.absent PortIn.absent]
     EnginesInv s ∧ (∃ t, step s = .next t) ∧ ¬resetTickNext s ∧ (s.eng.get .pb).dmaErr = false ∧
      slotComplete s .pb 1 = true ∧ (s.eng.get .pb).st = .updateDescriptor ∧ ∃ pb cap, nextEvent s = .transportTick pb cap) ∧
    (let s := withMoves (setSoftReset true u) [.enable .pb]
     EnginesInv s ∧ (∃ t, step s = .next t) ∧ ¬resetTickNext s ∧ resetAsserted s = true ∧ (s.eng.get .pb).dmaErr = false ∧
      slotComplete s .pb 1 = true ∧ (s.eng.get .pb).st = .updateDescriptor) :=
  ⟨⟨⟨by decide, fun d _ => by cases d <;> constructor <;> decide⟩, ⟨_, rfl⟩, not_resetTickNext_of_low rfl, by decide, by decide,
      by decide, _, _, rfl⟩,
    ⟨by decide, fun d _ => by cases d <;> constructor <;> decide⟩, ⟨_, rfl⟩, not_resetTickNext_of_enable rfl, by decide, by decide,
      by decide, by decide⟩

/-- A step that begins an activation. -/
theorem witness_NoStaleReplay_begins :
    let s := withMoves (engIn small .pb .fetchDescriptor true dX) [.transportTick (eager false) PortIn.absent]
    EnginesInv s ∧ (∃ t, step s = .next t ∧ (t.eng.get .pb).st = .moveData) ∧ ¬resetTickNext s ∧
    (s.eng.get .pb).dmaErr = false ∧ (s.eng.get .pb).st ≠ .moveData :=
  ⟨⟨by decide, fun d _ => by cases d <;> constructor <;> decide⟩, ⟨_, rfl, rfl⟩, not_resetTickNext_of_low rfl, by decide, by decide⟩

/-- Room for one frame, and none. -/
theorem witness_PushRule :
    (let s := atIndices 3 0 (rings small); let f := s.fifo.get .pb
     modSub (2 * s.params.capacity) f.wr (f.rdSync.stages.getLastD 0) < s.params.capacity) ∧
    (let s := atIndices 4 0 (rings small); let f := s.fifo.get .cap
     s.params.capacity ≤ modSub (2 * s.params.capacity) f.wr (f.rdSync.stages.getLastD 0)) := by decide

/-- One frame, and none. -/
theorem witness_PopRule :
    (let s := atIndices 0 7 (rings small); let f := s.fifo.get .pb
     0 < modSub (2 * s.params.capacity) (f.wrSync.stages.getLastD 0) f.rd) ∧
    (let s := atIndices 7 7 (rings small); let f := s.fifo.get .cap
     modSub (2 * s.params.capacity) (f.wrSync.stages.getLastD 0) f.rd = 0) := by decide

theorem witness_BufferViewsConservative : small.ok = true ∧ BufferInv small (atIndices 1 7 (rings small)).fifo.pb :=
  ⟨by decide, buffer_small_good 1 7 (.inr rfl)⟩

theorem witness_BuffersKept : BuffersInv inBurst ∧ ∃ t, step inBurst = .next t :=
  ⟨⟨by decide, by constructor <;> decide, by constructor <;> decide⟩, ⟨_, rfl⟩⟩

theorem witness_BurstsNeverFail : ReservesInv inBurst ∧ ∃ t, step inBurst = .next t :=
  ⟨⟨⟨by decide, by constructor <;> decide, by constructor <;> decide⟩, fun d _ => by cases d <;> constructor <;> decide⟩, ⟨_, rfl⟩⟩

/-- For the five statements about the state right after reset. -/
theorem witness_AtReset : Config.exampleParams.ok = true ∧ small.ok = true := by decide

theorem witness_SynchronizerLatency : ((syncReset small 0).stages ≠ [] ∧ (syncReset small 0).stages.length ≤ 2 ∧
    1 < (syncReset small 0).stages.length) ∧
    small.glitch = .none ∧ Captures small 3 (syncReset small 0) ⟨[3, 0], 3⟩ := ⟨by decide, by decide, ⟨0, by decide⟩⟩

theorem witness_SliceAndPack :
    (small.geomI2s.channels ≤ small.maxC ∧ 1 < small.maxC ∧ 1 < small.geomI2s.channels ∧ 15 < small.geomI2s.width) ∧
    (([0xFFFF, 0x8000] : Frame).length = small.maxC ∧
      (∀ c, c < small.geomI2s.channels → ([0xFFFF, 0x8000] : Frame).getD c 0 < 2 ^ small.geomI2s.width) ∧
      ∀ c, c < 4 → small.geomI2s.channels ≤ c → ([0xFFFF, 0x8000] : Frame).getD c 0 = 0) ∧
    (let s := State.resetWith { small with wordBytes := 3 }
     legalFormat s.host.cfg.format.toNat s.host.cfg.dsdMode.toNat = some .i2s ∧
      8 * s.params.wordBytes < (geometry s.params .i2s s.host.cfg.dsdMode.toNat).channels
        * (geometry s.params .i2s s.host.cfg.dsdMode.toNat).width) := by decide

/-- A data word of either engine under a geometry wider than it. -/
theorem witness_SliceAndPack_refused :
    (let s := onBus (engIn { small with wordBytes := 2 } .pb .moveData true dX) (eager false)
     transportGeometry s = .error .frameWiderThanWord ∧ s.turn = .pb ∧ s.eng.pb.st = .moveData ∧
      s.bus.pb.rdWord = some (.memory, false) ∧
      (instrOfDesc dX).desc.bufferAddress.toNat + s.eng.pb.burstCnt * s.params.wordBytes + s.params.wordBytes ≤ 2 ^ 64) ∧
    (let s := onBus (engIn { small with wordBytes := 2 } .cap .moveData true dX) (eager false)
     transportGeometry s = .error .frameWiderThanWord ∧ s.turn = .cap ∧ s.eng.cap.st = .moveData ∧ s.bus.cap.wrReady = true) :=
  ⟨⟨rfl, by decide, by decide, by decide, by decide⟩, ⟨rfl, by decide, by decide, by decide⟩⟩

/-! ### The processor -/

/-- DSD256, DSD of the reserved sub-mode, slave mode, a reserved format and slave mode both, and a bit event inside a frame. -/
theorem witness_ConfigurationLatch :
    (let s := settled 2 2 1 (rings small)
     (s.afp.bitCnt = 0 ∧ s.afp.chCnt = 0) ∧ ¬(3 ≤ s.control.format.out ∨ (s.control.format.out = 2 ∧ 3 ≤ s.control.dsdMode.out)) ∧
      s.control.master.out ≠ 0) ∧
    (let s := settled 2 3 1 (rings small)
     (s.afp.bitCnt = 0 ∧ s.afp.chCnt = 0) ∧ (3 ≤ s.control.format.out ∨ (s.control.format.out = 2 ∧ 3 ≤ s.control.dsdMode.out))) ∧
    (let s := settled 1 3 0 (rings small)
     (s.afp.bitCnt = 0 ∧ s.afp.chCnt = 0) ∧ ¬(3 ≤ s.control.format.out ∨ (s.control.format.out = 2 ∧ 3 ≤ s.control.dsdMode.out)) ∧
      s.control.master.out = 0) ∧
    (let s := settled 3 0 0 (rings small)
     (s.afp.bitCnt = 0 ∧ s.afp.chCnt = 0) ∧ (3 ≤ s.control.format.out ∨ (s.control.format.out = 2 ∧ 3 ≤ s.control.dsdMode.out)) ∧
      s.control.master.out = 0) ∧
    (let s := atBit 0 1 (rings small)
     ¬(s.afp.bitCnt = 0 ∧ s.afp.chCnt = 0)) := by decide

/-- A bit event in each format. -/
theorem witness_LineOutputs : ∀ f ∈ [0, 1, 2], ∃ t, bitEvent .loopback (settled f 0 1 (rings small)) = .next t := by
  intro f hf
  simp only [List.mem_cons, List.not_mem_nil, or_false] at hf
  rcases hf with h | h | h <;> subst h <;> exact ⟨_, rfl⟩

/-- The last bit but one and the last bit of a 16-bit word. -/
theorem witness_BitAndChannelCounters :
    (∃ t, bitEvent (.bits []) (atBit 14 0 (rings small)) = .next t) ∧ 14 < small.geomI2s.width - 1 ∧
    (∃ t, bitEvent (.bits []) (atBit 15 0 (rings small)) = .next t) ∧ small.geomI2s.width - 1 ≤ 15 :=
  ⟨⟨_, rfl⟩, by decide, ⟨_, rfl⟩, by decide⟩

/-- The last bit event of a frame. -/
def atFrameEnd : State := withMoves (streaming (atBit 15 1 (rings small))) [.audioTick ⟨.loopback, true, 3⟩]

theorem witness_ProcessorCountersKept : CountersInv atFrameEnd ∧ ∃ t, step atFrameEnd = .next t :=
  ⟨by constructor <;> decide, ⟨_, rfl⟩⟩

theorem witness_WidthsKept : WidthsInv atFrameEnd ∧ ∃ t, step atFrameEnd = .next t :=
  ⟨by constructor <;> first | decide | exact fun d => by cases d <;> decide, ⟨_, rfl⟩⟩

/-- Playback off; on with one frame; on with none. -/
theorem witness_LoadAtBoundary :
    (∃ act, latchConfig (rings small) = .ok act) ∧ (rings small).afp.bitCnt = 0 ∧ (rings small).afp.chCnt = 0 ∧
    (rings small).control.pbEn.out = 0 ∧
    (let s := streaming (atIndices 1 0 (rings small))
     s.afp.bitCnt = 0 ∧ s.afp.chCnt = 0 ∧ (∃ act, latchConfig s = .ok act) ∧ s.control.pbEn.out ≠ 0 ∧ 0 < occC s.params s.fifo.pb) ∧
    (let s := streaming (rings { small with underrunOutput := .lastValue })
     s.afp.bitCnt = 0 ∧ s.afp.chCnt = 0 ∧ (∃ act, latchConfig s = .ok act) ∧ s.control.pbEn.out ≠ 0 ∧
      occC s.params s.fifo.pb = 0 ∧ s.params.underrunOutput = .lastValue) :=
  ⟨⟨_, rfl⟩, by decide, by decide, by decide, ⟨by decide, by decide, ⟨_, rfl⟩, by decide, by decide⟩,
    ⟨by decide, by decide, ⟨_, rfl⟩, by decide, by decide, by decide⟩⟩

/-- The last bit of the frame and the bit before it; capture off; on with room for one frame; on with none. -/
theorem witness_PublishAtFrameEnd :
    (∃ t, bitEvent .loopback (atBit 14 1 (rings small)) = .next t) ∧ ¬(small.geomI2s.width - 1 ≤ 14) ∧
    (let s := atBit 15 1 (rings small)
     (∃ t, bitEvent .loopback s = .next t) ∧ s.control.capEn.out = 0) ∧
    (let s := streaming (atIndices 3 0 (atBit 15 1 (rings small)))
     (∃ t, bitEvent .loopback s = .next t) ∧ small.geomI2s.width - 1 ≤ 15 ∧ small.geomI2s.channels - 1 ≤ 1 ∧
      s.control.capEn.out ≠ 0 ∧ occP s.params s.fifo.cap < s.params.capacity) ∧
    (let s := streaming (atIndices 4 0 (atBit 15 1 (rings small)))
     (∃ t, bitEvent .loopback s = .next t) ∧ s.control.capEn.out ≠ 0 ∧ s.params.capacity ≤ occP s.params s.fifo.cap) :=
  ⟨⟨_, rfl⟩, by decide, ⟨⟨_, rfl⟩, by decide⟩, ⟨⟨_, rfl⟩, by decide, by decide, by decide, by decide⟩,
    ⟨⟨_, rfl⟩, by decide, by decide⟩⟩

theorem witness_SampleShiftsIn :
    (rings small).afp.rxShift.length = small.maxC ∧ 1 < small.maxC ∧
    (∃ t, bitEvent (.bits [true, true]) (rings small) = .next t) ∧
    ∃ t, bitEvent (.bits [true, true]) (settled 2 0 1 (rings small)) = .next t :=
  ⟨by decide, by decide, ⟨_, rfl⟩, ⟨_, rfl⟩⟩

theorem witness_LoopbackRoundTrip : ∃ act,
    let s := settled 2 0 1 (streaming (atIndices 1 0 (rings small)))
    s.params.ok = true ∧ s.afp.rxShift.length = s.params.maxC ∧ s.afp.bitCnt = 0 ∧ s.afp.chCnt = 0 ∧
    latchConfig s = .ok act ∧ s.control.capEn.out ≠ 0 :=
  ⟨_, by decide, by decide, by decide, by decide, rfl, by decide⟩

/-- A divider of 3: one tick before its end, and at its end. -/
theorem witness_AudioNeverWaits :
    let s := withMoves (rings { small with divDefault := 3 }) [.audioTick ⟨.loopback, true, 3⟩]
    let act := s.afp.act
    let div := bclkDiv s.params act.format act.family act.mult act.dsdMode
    s.inputs = .audioTick ⟨.loopback, true, 3⟩ :: [] ∧ resetAsserted s = false ∧ 1 < div - 1 ∧ div - 1 ≤ 2 ∧
    ∃ t, bitEvent .loopback s = .next t := ⟨by decide, by decide, by decide, by decide, ⟨_, rfl⟩⟩

/-! ### Conditions, reset and host commands -/

theorem witness_DmaErrorIsSticky :
    (let s := onBus (rings small) ⟨none, false, none, false, true⟩
     (s.eng.get .cap).dmaErr = false ∧ (s.bus.get .cap).dmaErrorIn = true ∧ ∃ t, engineStep .cap s = .next t) ∧
    (let s := rings small
     let s := s.withEng .cap { s.eng.cap with dmaErr := true }
     let ticked := withMoves s [.transportTick PortIn.absent PortIn.absent]
     let moved := withMoves (setSoftReset true s) [.enable .cap]
     ((ticked.eng.get .cap).dmaErr = true ∧ (∃ t, step ticked = .next t) ∧ ¬resetTickNext ticked) ∧
     (moved.eng.get .cap).dmaErr = true ∧ (∃ t, step moved = .next t) ∧ ¬resetTickNext moved ∧ resetAsserted moved = true) :=
  ⟨⟨by decide, by decide, ⟨_, rfl⟩⟩, ⟨by decide, ⟨_, rfl⟩, not_resetTickNext_of_low rfl⟩, by decide, ⟨_, rfl⟩,
    not_resetTickNext_of_enable rfl, by decide⟩

theorem witness_ResetTakesTheTick :
    let s := withMoves (setSoftReset true (engIn small .pb .complete false dX)) [.audioTick ⟨.loopback, true, 3⟩]
    resetTickNext s ∧ requestOutstanding s .pb = false ∧ requestOutstanding s .cap = false :=
  ⟨⟨by decide, .inr ⟨_, rfl⟩⟩, by decide, by decide⟩

theorem witness_ResetInFlightRefused :
    (let s := withMoves (setHwReset true (engIn small .cap .fetchDescriptor true dX)) [.transportTick PortIn.absent PortIn.absent]
     resetTickNext s ∧ (s.eng.get .cap).dmaErr = false ∧ (s.eng.get .cap).st = .fetchDescriptor ∧ currentComplete s .cap = false) ∧
    (let s := withMoves (setSoftReset true (engIn small .pb .moveData true dX)) [.audioTick ⟨.loopback, true, 3⟩]
     resetTickNext s ∧ (s.eng.get .pb).dmaErr = false ∧ (s.eng.get .pb).st = .moveData) :=
  ⟨⟨⟨by decide, .inl ⟨_, _, rfl⟩⟩, by decide, by decide, by decide⟩, ⟨⟨by decide, .inr ⟨_, rfl⟩⟩, by decide, by decide⟩⟩

/-- A host write that ends at the top of the address space, and one that passes it. -/
theorem witness_HostCommandsChangeInputsOnly :
    (2 ^ 64 - 2) + ([1, 2] : List Byte).length ≤ 2 ^ 64 ∧ memWf (rings small).mem = true ∧
    2 ^ 64 < (2 ^ 64 - 1) + ([1, 2] : List Byte).length := by decide

theorem witness_RingSetupRule :
    ((engIn small .pb .complete false dX).eng.get .pb).st = .complete ∧
    (let s := engIn small .pb .updateDescriptor true dX
     (s.eng.get .pb).st = .updateDescriptor ∧ (s.host.ring.get .pb).base = 0x100 ∧ (s.host.ring.get .pb).descCount ≠ 3) := by decide

/-! ### Activations -/

/-- Slot 0 of either ring holds a two-word descriptor, and the two engines wait for it, with room for exactly its burst. -/
def twoActivations : State :=
  let s := atIndices 2 0 twoFetches
  { s with mem := setBytes (setBytes [] 0x100 (bytesOfRec (recOfDesc dX))) 0x200 (bytesOfRec (recOfDesc ⟨0x2000, 8, 3, 0⟩)) }

theorem witness_PlaybackActivation : ∃ g,
    let s := twoActivations
    recordAt s .pb s.ring.pb.currentIndex = dX ∧ s.params.ok = true ∧ s.eng.pb.dmaErr = false ∧
    s.eng.pb.st = .fetchDescriptor ∧ currentComplete s .pb = false ∧ s.eng.pb.curValid = false ∧ s.port.pb = portReset ∧
    fetchAddress s .pb + 24 ≤ 2 ^ 64 ∧ latchRefusal s .pb dX = none ∧ transportGeometry s = .ok g ∧
    min s.params.burstBytes dX.length.toNat / s.params.wordBytes + occP s.params s.fifo.pb = s.params.capacity :=
  ⟨⟨2, 16⟩, by decide, by decide, by decide, by decide, by decide, by decide, by decide, by decide, by decide, rfl, by decide⟩

theorem witness_CaptureActivation : ∃ g,
    let s := twoActivations
    let d : Desc := ⟨0x2000, 8, 3, 0⟩
    recordAt s .cap s.ring.cap.currentIndex = d ∧ s.params.ok = true ∧ s.eng.cap.dmaErr = false ∧
    s.eng.cap.st = .fetchDescriptor ∧ currentComplete s .cap = false ∧ s.eng.cap.curValid = false ∧ s.port.cap = portReset ∧
    fetchAddress s .cap + 24 ≤ 2 ^ 64 ∧ latchRefusal s .cap d = none ∧ transportGeometry s = .ok g ∧
    min s.params.burstBytes d.length.toNat / s.params.wordBytes = occC s.params s.fifo.cap :=
  ⟨⟨2, 16⟩, by decide, by decide, by decide, by decide, by decide, by decide, by decide, by decide, by decide, rfl, by decide⟩

end Sys2Proof.Tests
end

