-- ==== Sys2Proof/Proofs/Scope.lean ====
section
/-! Host memory as an address space (R10, R51, R61, R68), and the state right after reset (R52): the part invariants hold of any
state whose parts are at their reset values, whatever the reset leaves free (R29, R42). -/

namespace Sys2Proof.Machine

/-! ## Access and read-back -/

@[simp] theorem loadBytes_length (m : Memory) (a n : Nat) : (loadBytes m a n).length = n := by
  simp [loadBytes]

theorem loadBytes_getElem (m : Memory) (a n k : Nat) (hk : k < (loadBytes m a n).length) :
    (loadBytes m a n)[k] = memByte m (a + k) := by
  simp [loadBytes]

/-- R61: the bytes loaded from where bytes were written are those bytes. -/
theorem loadBytes_setBytes (m : Memory) (a : Nat) (bs : List Byte) (ha : a + bs.length ≤ addrSpace) (hm : memWf m = true) :
    loadBytes (setBytes m a bs) a bs.length = bs := by
  refine List.ext_getElem (loadBytes_length ..) fun k hk hk' => ?_
  rw [loadBytes_getElem, memByte_setBytes_inside bs m a k ha hm hk', List.getD_eq_getElem _ _ hk']

theorem memRead_isSome_iff (m : Memory) (a n : Nat) : (memRead m a n).isSome = true ↔ a + n ≤ 2 ^ 64 := by
  unfold memRead
  rw [← inSpace_iff a n]
  cases inSpace a n <;> simp

theorem memWrite_isSome_iff (m : Memory) (a n v : Nat) : (memWrite m a n v).isSome = true ↔ a + n ≤ 2 ^ 64 := by
  unfold memWrite
  rw [← inSpace_iff a n]
  cases inSpace a n <;> simp

theorem memRead_of_inSpace (m : Memory) {a n : Nat} (h : a + n ≤ 2 ^ 64) :
    memRead m a n = some (natOfBytes (loadBytes m a n)) :=
  if_pos ((inSpace_iff a n).2 h)

/-- R10: `MemRead` after `MemWrite` at the same place returns the low `8 * n` bits of the value. -/
theorem memRead_memWrite {m m' : Memory} {a n v : Nat} (hm : memWf m = true) (hw : memWrite m a n v = some m') :
    memRead m' a n = some (v % 256 ^ n) := by
  obtain ⟨hs, rfl⟩ := memWrite_some hw
  have hload := loadBytes_setBytes m a (bytesOfNat n v) (by rwa [bytesOfNat_length]) hm
  rw [bytesOfNat_length] at hload
  rw [memRead_of_inSpace _ hs, hload, natOfBytes_bytesOfNat]

/-- Settles O6: the bytes written are the bytes loaded, and their number is the value's remainder. -/
theorem writeThenRead : Obligations.WriteThenRead :=
  ⟨memWrite_isSome_iff, memRead_isSome_iff, fun _ _ _ _ _ => memRead_memWrite⟩

/-! ## Engine control -/

/-- An idle engine with nothing in its latch, over a ring whose every bit and count is 0, meets the control invariant. -/
theorem controlInv_of_reset {s : State} {d : Dir} {cur : Desc} (hp : s.params.ok = true)
    (hr : s.ring.get d = ringReset s.params) (he : s.eng.get d = engReset cur) : ControlInv s d where
  slots := by simp [hr, ringReset]
  index := by rw [hr]; exact Params.ok_ringMax hp
  inHand := by simp [he, engReset]
  atRest := by simp [he, engReset]
  fresh := by simp [he, engReset]
  sized := by simp [he, engReset]
  active := by simp [hr, he, ringReset, engReset]
  moving := by simp [he, engReset]
  moved := by simp [he, engReset]

/-- Settles O30. -/
theorem engineControlAtReset : Obligations.EngineControlAtReset := fun _ hp =>
  ⟨hp, fun d _ => by cases d <;> exact controlInv_of_reset hp rfl rfl⟩

/-! ## The Elastic Buffers -/

/-- R181: an index is no distance from itself. -/
theorem modSub_self {m a : Nat} (h : a < m) : modSub m a a = 0 := by
  rw [modSub, Nat.mod_eq_of_lt h, Nat.add_sub_cancel' h.le, Nat.mod_self]

theorem indexModulus_pos {p : Params} (hp : p.ok = true) : 0 < indexModulus p :=
  Nat.mul_pos Nat.two_pos (Params.ok_capacity hp)

/-- Both indices and every stage of both index cells are 0 after a reset, so every occupancy seen is 0; the entries are free. -/
theorem bufferInv_fifoReset {p : Params} {mem : List Frame} (hp : p.ok = true) (hm : mem.length = p.capacity) :
    BufferInv p (fifoReset p mem) where
  wr_lt := indexModulus_pos hp
  rd_lt := indexModulus_pos hp
  entries := hm
  rd_stages := List.length_replicate
  wr_stages := List.length_replicate
  rd_range := fun _ hr => List.eq_of_mem_replicate hr ▸ indexModulus_pos hp
  wr_range := fun _ hw => List.eq_of_mem_replicate hw ▸ indexModulus_pos hp
  rd_older := (List.pairwise_replicate (n := p.syncStages + 1)).2 (.inr le_rfl)
  rd_bound := fun r hr => by
    have hr0 : r = 0 := List.eq_of_mem_replicate (n := p.syncStages + 1) hr
    exact hr0 ▸ (modSub_self (indexModulus_pos hp)).trans_le (Nat.zero_le _)
  wr_older := (List.pairwise_replicate (n := p.syncStages + 1)).2 (.inr le_rfl)

/-- Settles O36. -/
theorem buffersAtReset : Obligations.BuffersAtReset := fun _ hp =>
  ⟨hp, bufferInv_fifoReset hp List.length_replicate, bufferInv_fifoReset hp List.length_replicate⟩

/-! ## The engines' reserves -/

theorem ownFailures_of_reset {s : State} {d : Dir} {mem : List Frame} (hf : s.fifo.get d = fifoReset s.params mem) :
    ownFailures s d = 0 := by
  cases d with
  | pb => exact congrArg Fifo.overrunCnt hf
  | cap => exact congrArg Fifo.underrunCnt hf

/-- An idle engine owes its buffer no room, and no access to a buffer just reset has failed. -/
theorem reserveInv_of_reset {s : State} {d : Dir} {cur : Desc} {mem : List Frame} (he : s.eng.get d = engReset cur)
    (hf : s.fifo.get d = fifoReset s.params mem) : ReserveInv s d where
  fetching := by simp [he, engReset]
  moving := by simp [he, engReset]
  failures := ownFailures_of_reset hf

/-- Settles O38: the buffers' part is `buffersAtReset`. -/
theorem reservesAtReset : Obligations.ReservesAtReset := fun p hp =>
  ⟨buffersAtReset p hp, fun d _ => by cases d <;> exact reserveInv_of_reset rfl rfl⟩

/-! ## The processor's counters -/

/-- Every counter of the processor is 0 after a reset, and every divider and geometry of the tables is at least 1 (R8). -/
theorem countersInv_of_reset {s : State} (hp : s.params.ok = true) (ha : s.afp = afpReset s.params) : CountersInv s := by
  obtain ⟨hchannels, -, hwidth, -⟩ := (Params.geomOk_iff _ _).1 (Params.ok_geometry hp .i2s 0)
  exact {
    params := hp
    divider := by rw [ha]; exact Params.ok_divider hp .i2s 0 0 0
    bits := by rw [ha]; exact hwidth
    channels := by rw [ha]; exact hchannels
    dsd := fun _ => by rw [ha]; rfl
    master := by rw [ha]; rfl }

/-- Settles O46. -/
theorem processorCountersAtReset : Obligations.ProcessorCountersAtReset := fun _ hp => countersInv_of_reset hp rfl

end Sys2Proof.Machine
end

