-- ==== Sys2Proof/Proofs/State.lean ====
section
/-! The state as a whole (10_state.md): what an engine's step owns of it, what a move between ticks leaves of it, and the
invariants of memory, engines, processor and widths that every step keeps. -/

namespace Sys2Proof.Machine

/-! ## Directions -/

/-- What holds of a direction and of the other one holds of both. -/
theorem forall_dir (d : Dir) {P : Dir → Prop} (h : P d) (ho : P d.other) : ∀ d', P d' := by
  intro d'
  cases d <;> cases d' <;> assumption

/-! ## What an engine owns (R20, R284) -/

section Own

variable {s t u : State} {d : Dir} {desc : Desc}

/-- The parts of the state that the engine of one direction writes. -/
structure Own where
  ring : Ring
  eng : Eng
  port : Port
  fifo : Fifo
  used : List Footprint
  mem : Memory

/-- Those parts, of direction `d`. -/
def State.own (s : State) (d : Dir) : Own :=
  ⟨s.ring.get d, s.eng.get d, s.port.get d, s.fifo.get d, s.used.get d, s.mem⟩

/-- The state with those parts of direction `d` replaced. -/
def State.withOwn (s : State) (d : Dir) (o : Own) : State :=
  { s with
    ring := s.ring.set d o.ring
    eng := s.eng.set d o.eng
    port := s.port.set d o.port
    fifo := s.fifo.set d o.fifo
    used := s.used.set d o.used
    mem := o.mem }

/-- `t` is `s` but for what engine `d` owns, and host memory. -/
def OwnOnly (d : Dir) (s t : State) : Prop := t = s.withOwn d (t.own d)

theorem State.withOwn_withOwn (s : State) (d : Dir) (o o' : Own) : (s.withOwn d o).withOwn d o' = s.withOwn d o' := by
  cases d <;> rfl

theorem OwnOnly.trans (h : OwnOnly d s t) (h' : OwnOnly d t u) : OwnOnly d s u :=
  calc u = t.withOwn d (u.own d) := h'
    _ = (s.withOwn d (t.own d)).withOwn d (u.own d) := congrArg (State.withOwn · d (u.own d)) h
    _ = s.withOwn d (u.own d) := State.withOwn_withOwn ..

/-- What an engine does not own stays. -/
theorem OwnOnly.keepsOthers (h : OwnOnly d s t) : KeepsOthers d s t := by
  unfold OwnOnly at h
  rw [h]
  constructor <;> simp [State.withOwn]

theorem writeSig_ownOnly (v : Bool) : OwnOnly d s (writeSig d v s) := by cases d <;> rfl

theorem setState_ownOnly (st : EngState) : OwnOnly d s (setState d st s) := by cases d <;> rfl

theorem raise_dmaError_ownOnly : OwnOnly d s (raise (.dmaError d) s) := by cases d <;> rfl

theorem withUsed_ownOnly (l : List Footprint) : OwnOnly d s (s.withUsed d l) := by cases d <;> rfl

theorem latched_ownOnly : OwnOnly d s (latched d desc s) := by cases d <;> rfl

theorem requested_ownOnly : OwnOnly d s (requested d desc s) := by cases d <;> rfl

theorem pushFrame_pb_ownOnly (fr : Frame) : OwnOnly .pb s (pushFrame .pb fr s) := by
  unfold pushFrame
  dsimp only
  split <;> rfl

theorem popFrame_cap_ownOnly : OwnOnly .cap s (popFrame .cap s).2 := by
  unfold popFrame
  dsimp only
  split <;> rfl

theorem dropAhead_ownOnly : OwnOnly .pb s (dropAhead s) := rfl

theorem handWrite_ownOnly (w : PendingWrite) : OwnOnly .cap s (handWrite w s) := rfl

theorem countWord_ownOnly (done : Bool) : OwnOnly d s (countWord d done s) := by cases d <;> rfl

theorem playedWord_ownOnly (g : Geom) (w : Nat) (last : Bool) : OwnOnly .pb s (playedWord g w last s) := by
  unfold playedWord
  exact (((pushFrame_pb_ownOnly _).trans dropAhead_ownOnly).trans (countWord_ownOnly _)).trans (writeSig_ownOnly _)

theorem capturedWord_ownOnly (g : Geom) : OwnOnly .cap s (capturedWord desc g s) := by
  unfold capturedWord
  exact ((popFrame_cap_ownOnly.trans (handWrite_ownOnly _)).trans (countWord_ownOnly _)).trans (writeSig_ownOnly _)

theorem retired_ownOnly (m : Memory) : OwnOnly d s (retired d m s) := by cases d <;> rfl

theorem retire_ownOnly (h : retire d desc s = some t) : OwnOnly d s t := by
  obtain ⟨m, rfl⟩ := retire_eq h
  exact retired_ownOnly m

theorem setIndex_ownOnly (k : Nat) : OwnOnly d s (setIndex d k s) := by cases d <;> rfl

/-- Whatever a step of an engine does, it does to what the engine owns. -/
theorem EngineEffect.ownOnly (h : EngineEffect d desc s t) : OwnOnly d s t := by
  cases h with
  | waits h => exact h ▸ writeSig_ownOnly false
  | launches _ _ _ _ _ h => exact h ▸ (setState_ownOnly _).trans (writeSig_ownOnly _)
  | ends _ _ h => exact h ▸ (setState_ownOnly _).trans (writeSig_ownOnly _)
  | rests _ h =>
    subst h
    split
    · exact writeSig_ownOnly _
    · exact ((setState_ownOnly _).trans (withUsed_ownOnly _)).trans (writeSig_ownOnly _)
  | latches _ _ _ _ h => exact h ▸ latched_ownOnly
  | requests _ _ _ _ h => exact h ▸ requested_ownOnly
  | plays _ last w g hd _ _ _ _ h => exact hd ▸ h ▸ playedWord_ownOnly g w last
  | captures g hd _ _ _ _ h => exact hd ▸ h ▸ capturedWord_ownOnly g
  | retires _ _ _ _ _ _ hu h =>
    exact h ▸ (((retire_ownOnly hu).trans (setIndex_ownOnly _)).trans (setState_ownOnly _)).trans (writeSig_ownOnly _)

/-! ### The engine's buffer -/

/-- All that an engine does to its buffer in one step: nothing, or one push (playback) or pop (capture), accepted or counted. -/
inductive BufferUse (p : Params) : Dir → Fifo → Fifo → Prop where
  | untouched (d : Dir) (f : Fifo) : BufferUse p d f f
  | pushes (f : Fifo) (fr : Frame) : BufferUse p .pb f (pushResult p f fr)
  | pops (f : Fifo) : BufferUse p .cap f (popResult p f)

theorem playedWord_fifo (g : Geom) (w : Nat) (last : Bool) :
    (playedWord g w last s).fifo = s.fifo.set .pb (pushResult s.params s.fifo.pb (slice s.params g w)) := by
  simp [playedWord]

theorem capturedWord_fifo (g : Geom) :
    (capturedWord desc g s).fifo = s.fifo.set .cap (popResult s.params s.fifo.cap) := by
  simp [capturedWord]

theorem EngineEffect.bufferUse (h : EngineEffect d desc s t) : BufferUse s.params d (s.fifo.get d) (t.fifo.get d) := by
  cases h with
  | waits h => exact h ▸ .untouched ..
  | launches _ _ _ _ _ h => exact h ▸ .untouched ..
  | ends _ _ h => exact h ▸ .untouched ..
  | rests _ h => subst h; split <;> exact .untouched ..
  | latches _ _ _ _ h => exact h ▸ .untouched ..
  | requests _ _ _ _ h => exact h ▸ .untouched ..
  | plays _ last w g hd _ _ _ _ h => subst hd h; rw [playedWord_fifo]; exact .pushes ..
  | captures g hd _ _ _ _ h => subst hd h; rw [capturedWord_fifo]; exact .pops ..
  | retires _ _ _ _ _ _ hu h =>
    obtain ⟨m, rfl⟩ := retire_eq hu
    exact h ▸ .untouched ..

/-- A push writes the producer's side alone. -/
theorem pushResult_farSide (p : Params) (f : Fifo) (fr : Frame) :
    (pushResult p f fr).rd = f.rd ∧ (pushResult p f fr).rdSync = f.rdSync ∧ (pushResult p f fr).wrSync = f.wrSync ∧
      (pushResult p f fr).underrunCnt = f.underrunCnt := by
  unfold pushResult
  split <;> exact ⟨rfl, rfl, rfl, rfl⟩

/-- A pop writes the consumer's side alone. -/
theorem popResult_farSide (p : Params) (f : Fifo) :
    (popResult p f).wr = f.wr ∧ (popResult p f).mem = f.mem ∧ (popResult p f).rdSync = f.rdSync ∧
      (popResult p f).wrSync = f.wrSync ∧ (popResult p f).overrunCnt = f.overrunCnt := by
  unfold popResult
  split <;> exact ⟨rfl, rfl, rfl, rfl, rfl⟩

theorem BufferUse.keepsFarSide (h : BufferUse s.params d (s.fifo.get d) (t.fifo.get d)) : KeepsFarSide d s t := by
  unfold KeepsFarSide
  cases d with
  | pb =>
    simp only [PerDir.get_pb] at h
    generalize t.fifo.pb = f at h
    cases h with
    | untouched => exact ⟨rfl, rfl, rfl, rfl⟩
    | pushes f fr => exact pushResult_farSide ..
  | cap =>
    simp only [PerDir.get_cap] at h
    generalize t.fifo.cap = f at h
    cases h with
    | untouched => exact ⟨rfl, rfl, rfl, rfl, rfl⟩
    | pops f => exact popResult_farSide ..

/-! ### The engine's ring and its sticky bit -/

/-- The ring after the completion of the current slot (R122, R123): `bytes` more bytes, and the cursor at `k`. -/
def completedRing (p : Params) (k bytes : Nat) (r : Ring) : Ring where
  complete := r.complete.set r.currentIndex true
  currentIndex := k
  activeCount := 0
  bytesProcessed := (r.bytesProcessed + bytes) % 2 ^ p.bytesW

/-- The ring after an `UpdateDescriptor` step (R147). -/
theorem retires_ring {k : Nat} {st : EngState} {v : Bool} (hu : retire d desc s = some u) :
    (writeSig d v (setState d st (setIndex d k u))).ring.get d =
      completedRing s.params k ((s.eng.get d).burstCnt * s.params.wordBytes) (s.ring.get d) := by
  obtain ⟨m, rfl⟩ := retire_eq hu
  cases d <;> rfl

/-- All that a step of an engine does to its ring: the active count, or in `UpdateDescriptor` the completion of the slot. -/
theorem EngineEffect.ring (h : EngineEffect d desc s t) :
    t.ring.get d = { s.ring.get d with activeCount := (t.ring.get d).activeCount } ∨
    ((s.eng.get d).st = .updateDescriptor ∧ ∃ k n, t.ring.get d = completedRing s.params k n (s.ring.get d)) := by
  cases h with
  | waits h => exact .inl (h ▸ rfl)
  | launches _ _ _ _ _ h => exact .inl (h ▸ rfl)
  | ends _ _ h => exact .inl (h ▸ rfl)
  | rests _ h => left; subst h; split <;> rfl
  | latches _ _ _ _ h => exact .inl (h ▸ rfl)
  | requests _ _ _ _ h => left; simp [h, requested]
  | plays _ _ _ _ _ _ _ _ _ h => left; simp [h, playedWord]
  | captures _ _ _ _ _ _ h => left; simp [h, capturedWord]
  | retires k _ _ hst _ _ hu h => exact .inr ⟨hst, k, _, h ▸ retires_ring hu⟩

/-- The sticky bit is no part of the engine's own step (R32). -/
theorem EngineEffect.dmaErr (h : EngineEffect d desc s t) : (t.eng.get d).dmaErr = (s.eng.get d).dmaErr := by
  cases h with
  | waits h => simp [h]
  | launches _ _ _ _ _ h => simp [h]
  | ends _ _ h => simp [h]
  | rests _ h => subst h; split <;> simp
  | latches _ _ _ _ h => simp [h, latched]
  | requests _ _ _ _ h => simp [h, requested]
  | plays _ _ _ _ hd _ _ _ _ h => simp [hd, h, playedWord]
  | captures _ hd _ _ _ _ h => simp [hd, h, capturedWord]
  | retires _ _ _ _ _ _ hu h =>
    obtain ⟨m, rfl⟩ := retire_eq hu
    simp [h, retired]

/-- The completion of a slot touches no other slot's flag. -/
theorem completedRing_complete_other (p : Params) (k bytes : Nat) (r : Ring) {i : Nat} (hi : i ≠ r.currentIndex) :
    (completedRing p k bytes r).complete.getD i false = r.complete.getD i false := by
  simp [completedRing, List.getD_eq_getElem?_getD, List.getElem?_set_ne hi.symm]

/-- Settles O24: every kind's step is one of the engine's effects, and each clause is a fact about those. -/
theorem execKeepsWhatItDoesNotOwn : Obligations.ExecKeepsWhatItDoesNotOwn := by
  intro i s t h
  have he := exec_effect h
  refine ⟨he.ownOnly.keepsOthers, he.bufferUse.keepsFarSide, he.dmaErr, fun k hk => ?_, fun hst => ?_⟩
  · rcases he.ring with hr | ⟨_, _, _, hr⟩ <;> rw [hr]
    exact completedRing_complete_other _ _ _ _ hk
  · rcases he.ring with hr | ⟨hu, _⟩
    · rw [hr]; exact ⟨rfl, rfl, rfl⟩
    · exact absurd hu hst

end Own


/-! ## An engine's part of a transport tick (R284, R306) -/

section Tick

variable {s t u : State} {d : Dir} {desc : Desc}

/-- Engine `d` in a transport tick: unspecified after a DMA error, else one of the engine's effects, on `s` or on `s` with the
turn set, and the DMA-error latch besides. -/
theorem engineTick_effect (h : engineTick d s = .next t) :
    ((s.eng.get d).dmaErr = true ∧ t = unspecifiedStep d s) ∨
    ((s.eng.get d).dmaErr = false ∧ ∃ (u v : State) (desc : Desc), (u = s ∨ u = s.withTurn d) ∧
      EngineEffect d desc u v ∧ (t = v ∨ t = raise (.dmaError d) v)) := by
  rcases engineTick_next h with h | ⟨he, v, hv, rfl⟩
  · exact .inl h
  · obtain ⟨u, desc, hu, _, hef⟩ := engineStep_effect hv
    refine .inr ⟨he, u, v, desc, hu, hef, ?_⟩
    unfold latchDmaError
    split
    · exact .inr rfl
    · exact .inl rfl

theorem drawnAccess_ownOnly (w : EngineDraw) : OwnOnly d s (drawnAccess d w s) := by
  unfold drawnAccess
  split
  · cases d with
    | pb => exact pushFrame_pb_ownOnly _
    | cap => exact popFrame_cap_ownOnly
  · cases d <;> rfl

theorem unspecifiedStep_ownOnly : OwnOnly d s (unspecifiedStep d s) := by
  have ho : OwnOnly d s (drawnAccess d (Config.afterDmaError s.freeIx d) s) := drawnAccess_ownOnly _
  unfold unspecifiedStep
  dsimp only
  generalize drawnAccess d (Config.afterDmaError s.freeIx d) s = u at ho ⊢
  exact ho.trans (by cases d <;> rfl)

/-- The turn stays, so it does not matter whose it is taken to be. -/
theorem OwnOnly.withTurn (h : OwnOnly d s t) : OwnOnly d (s.withTurn t.turn) t := by
  rw [h.keepsOthers.turn]
  exact h

/-- A tick of engine `d` writes what the engine owns, and the turn. -/
theorem engineTick_ownOnly (h : engineTick d s = .next t) : OwnOnly d (s.withTurn t.turn) t := by
  rcases engineTick_effect h with ⟨_, rfl⟩ | ⟨_, u, v, desc, hu, he, ht⟩
  · exact unspecifiedStep_ownOnly.withTurn
  · have ho : OwnOnly d u t := by
      rcases ht with rfl | rfl
      · exact he.ownOnly
      · exact he.ownOnly.trans raise_dmaError_ownOnly
    rcases hu with rfl | rfl <;> exact ho.withTurn

theorem engineTick_keepsOthers (h : engineTick d s = .next t) : KeepsOthers d (s.withTurn t.turn) t :=
  (engineTick_ownOnly h).keepsOthers

theorem unspecifiedStep_bufferUse : BufferUse s.params d (s.fifo.get d) ((unspecifiedStep d s).fifo.get d) := by
  have hf : (unspecifiedStep d s).fifo = (drawnAccess d (Config.afterDmaError s.freeIx d) s).fifo := by rw [unspecifiedStep_eq]
  rw [hf]
  rcases drawnAccess_fifo (d := d) (s := s) (Config.afterDmaError s.freeIx d) with h | ⟨rfl, fr, h⟩ | ⟨rfl, h⟩ <;> rw [h]
  · exact .untouched ..
  · exact .pushes ..
  · exact .pops ..

theorem engineTick_bufferUse (h : engineTick d s = .next t) : BufferUse s.params d (s.fifo.get d) (t.fifo.get d) := by
  rcases engineTick_effect h with ⟨_, rfl⟩ | ⟨_, u, v, desc, hu, he, ht⟩
  · exact unspecifiedStep_bufferUse
  · have hv := he.bufferUse
    rcases hu with rfl | rfl <;> rcases ht with rfl | rfl <;> exact hv

/-! ### The sticky bit (R32, R306) -/

theorem raise_dmaError_dmaErr : ((raise (.dmaError d) s).eng.get d).dmaErr = true := by simp [raise]

/-- No tick of an engine clears the sticky bit of either one. -/
theorem engineTick_dmaErr {e : Dir} (hs : (s.eng.get e).dmaErr = true) (h : engineTick d s = .next t) :
    (t.eng.get e).dmaErr = true := by
  refine forall_dir d (P := fun e => (s.eng.get e).dmaErr = true → (t.eng.get e).dmaErr = true)
    (fun hs => ?_) (fun hs => ?_) e hs
  · rcases engineTick_effect h with ⟨_, rfl⟩ | ⟨hn, _⟩
    · exact (unspecifiedStep_dmaErr d s).trans hs
    · exact absurd hs (by simp [hn])
  · rw [(engineTick_keepsOthers h).eng]
    exact hs

theorem transportStep_dmaErr {e : Dir} {pb cap : PortIn} (hs : (s.eng.get e).dmaErr = true)
    (h : transportStep pb cap s = .next t) : (t.eng.get e).dmaErr = true := by
  obtain ⟨u, v, hu, hv, rfl⟩ := transportStep_next h
  show (v.eng.get e).dmaErr = true
  exact engineTick_dmaErr (engineTick_dmaErr (s := s.withBus ⟨pb, cap⟩) hs hu) hv

theorem audioStep_eng {a : AudioIn} (h : audioStep a s = .next t) : t.eng = s.eng := by
  obtain ⟨u, hu, rfl⟩ := audioStep_next h
  have ho := (dividerStep_buffers hu).only
  show u.eng = s.eng
  rw [ho]
  rfl

theorem takeEvent_eng (s : State) : (takeEvent s).eng = s.eng := by rw [takeEvent_eq]

theorem resetAsserted_takeEvent (s : State) : resetAsserted (takeEvent s) = resetAsserted s := by
  rw [takeEvent_eq]
  rfl

/-- A tick that no reset replaces is the domain's own. -/
theorem tick_of_not_reset {tick : State → Result} (hr : resetAsserted s = false)
    (h : tickOrReset tick (takeEvent s) = .next t) : tick (takeEvent s) = .next t := by
  rcases tickOrReset_next h with ⟨ha, _⟩ | ⟨_, h⟩
  · rw [resetAsserted_takeEvent, hr] at ha
    cases ha
  · exact h

/-- Only a reset clears the sticky bit: a move between ticks writes no engine, an audio tick none either. -/
theorem step_dmaErr (hs : (s.eng.get d).dmaErr = true) (h : step s = .next t) (hn : ¬resetTickNext s) :
    (t.eng.get d).dmaErr = true := by
  have hu : ((takeEvent s).eng.get d).dmaErr = true := by rw [takeEvent_eng]; exact hs
  have hr (ht : (∃ pb cap, nextEvent s = .transportTick pb cap) ∨ ∃ a, nextEvent s = .audioTick a) :
      resetAsserted s = false := Bool.eq_false_iff.2 fun ha => hn ⟨ha, ht⟩
  by_cases hp : ∃ pb cap, nextEvent s = .transportTick pb cap
  · obtain ⟨pb, cap, he⟩ := hp
    rw [step, he] at h
    exact transportStep_dmaErr hu (tick_of_not_reset (hr (.inl ⟨pb, cap, he⟩)) h)
  by_cases ha : ∃ a, nextEvent s = .audioTick a
  · obtain ⟨a, he⟩ := ha
    rw [step, he] at h
    rw [audioStep_eng (tick_of_not_reset (hr (.inr ⟨a, he⟩)) h)]
    exact hu
  · rw [(step_between_ticks (fun pb cap he => hp ⟨pb, cap, he⟩) (fun a he => ha ⟨a, he⟩) h).1]
    exact hs

/-- The engine's step leaves the inputs of the tick as they are. -/
theorem engineStep_bus (h : engineStep d s = .next t) : t.bus = s.bus := by
  obtain ⟨u, desc, hu, _, he⟩ := engineStep_effect h
  rw [he.ownOnly.keepsOthers.bus]
  rcases hu with rfl | rfl <;> rfl

/-- R306: the error is latched on top of the engine's own step. -/
theorem engineTick_of_dmaErrorIn (hs : (s.eng.get d).dmaErr = false) (hb : (s.bus.get d).dmaErrorIn = true)
    (h : engineStep d s = .next t) : engineTick d s = .next (raise (.dmaError d) t) := by
  have ht : (t.bus.get d).dmaErrorIn = true := by rw [engineStep_bus h]; exact hb
  simp [engineTick, hs, h, latchDmaError, ht]

/-- Settles O53. -/
theorem dmaErrorIsSticky : Obligations.DmaErrorIsSticky :=
  ⟨fun _ _ _ hs hb h => engineTick_of_dmaErrorIn hs hb h, fun _ _ _ hs h hn => step_dmaErr hs h hn⟩

end Tick

/-! ## Host memory (R51, R63, R71, R150) -/

section Memory

variable {s t : State} {d : Dir} {desc : Desc}

/-- The shared part of R147 performs the writes in hand, and then writes the flags word back, inside the address space. -/
theorem retire_mem (h : retire d desc s = some t) : ∃ m, performAll s.mem (s.port.get d).pending = some m ∧
    (s.params.writeBack = .clearOwn → fetchAddress s d + flagsOffset + 4 ≤ addrSpace) ∧
    t.mem = writtenBack s d desc.flags m := by
  obtain ⟨m, hm, hw⟩ := retire_some h
  refine ⟨m, hm, ?_⟩
  unfold writtenBack
  rcases writeBackFlags_some hw with ⟨hn, rfl⟩ | ⟨hc, hs, rfl⟩
  · rw [show s.params.writeBack = .none from hn]
    exact ⟨nofun, rfl⟩
  · rw [retired_fetchAddress] at hs ⊢
    rw [show s.params.writeBack = .clearOwn from hc]
    exact ⟨fun _ => hs, rfl⟩

/-- All that a step of an engine does to host memory. -/
theorem EngineEffect.mem (h : EngineEffect d desc s t) : t.mem = s.mem ∨
    ((s.eng.get d).st = .updateDescriptor ∧ ∃ m, performAll s.mem (s.port.get d).pending = some m ∧
      (s.params.writeBack = .clearOwn → fetchAddress s d + flagsOffset + 4 ≤ addrSpace) ∧
      t.mem = writtenBack s d desc.flags m) := by
  cases h with
  | waits h => exact .inl (h ▸ rfl)
  | launches _ _ _ _ _ h => exact .inl (h ▸ rfl)
  | ends _ _ h => exact .inl (h ▸ rfl)
  | rests _ h => left; subst h; split <;> rfl
  | latches _ _ _ _ h => exact .inl (h ▸ rfl)
  | requests _ _ _ _ h => exact .inl (h ▸ rfl)
  | plays _ _ _ _ _ _ _ _ _ h => left; simp [h, playedWord]
  | captures _ _ _ _ _ _ h => left; simp [h, capturedWord]
  | retires _ _ _ hst _ _ hu h =>
    obtain ⟨m, hm, hs, he⟩ := retire_mem hu
    exact .inr ⟨hst, m, hm, hs, h ▸ he⟩

/-! ### The canonical form (log 4) -/

theorem writtenBack_wf {f : BitVec 32} {m : Memory} (hm : memWf m = true)
    (hs : s.params.writeBack = .clearOwn → fetchAddress s d + flagsOffset + 4 ≤ addrSpace) :
    memWf (writtenBack s d f m) = true := by
  unfold writtenBack
  split
  · exact hm
  · next hc => exact setBytes_wf _ m _ (by rw [bytesOfNat_length]; exact hs hc) hm

theorem EngineEffect.mem_wf (h : EngineEffect d desc s t) (hm : memWf s.mem = true) : memWf t.mem = true := by
  rcases h.mem with he | ⟨_, m, hp, hs, he⟩ <;> rw [he]
  · exact hm
  · exact writtenBack_wf (performAll_wf _ hp hm) hs

theorem unspecifiedStep_mem (d : Dir) (s : State) :
    (unspecifiedStep d s).mem = setCells s.mem (Config.afterDmaError s.freeIx d).stores := by
  rw [unspecifiedStep_eq]

theorem engineTick_mem_wf (hm : memWf s.mem = true) (h : engineTick d s = .next t) : memWf t.mem = true := by
  rcases engineTick_effect h with ⟨_, rfl⟩ | ⟨_, u, v, desc, hu, he, ht⟩
  · rw [unspecifiedStep_mem]
    exact setCells_wf _ _ hm
  · have hv := he.mem_wf (by rcases hu with rfl | rfl <;> exact hm)
    rcases ht with rfl | rfl <;> exact hv

theorem movesKeep_mem_wf : MovesKeep (fun s => memWf s.mem = true) where
  take s hm := by rw [takeEvent_eq]; exact hm
  enable _ _ _ hm := hm
  softReset _ _ hm := hm
  hwReset _ _ hm := hm
  ringSetup _ _ _ _ _ hm h := (ringSetup_next h).2 ▸ hm
  ringInputs _ _ _ _ _ hm := hm
  format _ _ hm := hm
  hostWrite s t addr bytes hm h := by
    obtain ⟨hs, rfl⟩ := hostWrite_next h
    exact setBytes_wf bytes s.mem addr hs hm
  status _ hm := hm
  field s d f hm := by rcases readField_eq d f s with hq | ⟨_, hq⟩ <;> rw [hq] <;> exact hm
  ahead s hm := by rcases readAhead_eq s with hq | ⟨_, _, _, _, hq⟩ <;> rw [hq] <;> exact hm
  perform s t d hm h := by
    rcases performWrite_next h with ⟨rfl, _⟩ | ⟨w, _, m, _, hw, rfl⟩
    · exact hm
    · exact memWrite_wf hw hm

theorem ticksKeep_mem_wf : TicksKeep (fun s => memWf s.mem = true) where
  reset _ hm := hm
  bus _ _ hm := hm
  engine _ _ _ hm h := engineTick_mem_wf hm h
  transportCells _ hm := hm
  line _ _ hm := hm
  divider _ _ _ hm h := by rw [(dividerStep_buffers h).only]; exact hm
  audioCells _ hm := hm

/-- Settles O7: every store of the model goes through `setByte` inside the address space, which keeps the canonical form. -/
theorem memoryFormKept : Obligations.MemoryFormKept := fun _ _ hm h => step_keeps movesKeep_mem_wf ticksKeep_mem_wf hm h

/-- Settles O8: nothing is listed. -/
theorem memoryFormAtReset : Obligations.MemoryFormAtReset := reset_mem_wf Config.exampleParams

/-! ### What a step leaves of host memory -/

theorem memByte_memWrite_other {m m' : Memory} {a n v x : Nat} (hw : memWrite m a n v = some m') (hm : memWf m = true)
    (hx : x < a ∨ a + n ≤ x) : memByte m' x = memByte m x := by
  obtain ⟨hs, rfl⟩ := memWrite_some hw
  rw [← bytesOfNat_length n v] at hs hx
  exact memByte_setBytes_other _ m a x hs hm hx

/-- R71: a byte outside the words in hand reads as before once they are performed. -/
theorem memByte_performAll_other (ws : List PendingWrite) {m m' : Memory} {x : Nat} (hp : performAll m ws = some m')
    (hm : memWf m = true) (hx : ∀ w ∈ ws, x < w.addr ∨ w.addr + w.size ≤ x) : memByte m' x = memByte m x := by
  induction ws generalizing m with
  | nil => rw [Option.some.inj hp]
  | cons w rest ih =>
    unfold performAll at hp
    split at hp
    · next m₁ hw =>
      rw [ih hp (memWrite_wf hw hm) fun w' hw' => hx w' (List.mem_cons_of_mem _ hw'),
        memByte_memWrite_other hw hm (hx w (List.mem_cons_self ..))]
    · cases hp

/-- R150: the write-back touches the flags word of the slot, and that under `clear_own` alone. -/
theorem memByte_writtenBack_other {f : BitVec 32} {m : Memory} {x : Nat} (hm : memWf m = true)
    (hs : s.params.writeBack = .clearOwn → fetchAddress s d + flagsOffset + 4 ≤ addrSpace)
    (hx : s.params.writeBack = .clearOwn → x < fetchAddress s d + flagsOffset ∨ fetchAddress s d + flagsOffset + 4 ≤ x) :
    memByte (writtenBack s d f m) x = memByte m x := by
  unfold writtenBack
  split
  · rfl
  · next hc =>
    have hlen := bytesOfNat_length 4 (f &&& 0x7FFFFFFF#32).toNat
    exact memByte_setBytes_other _ m _ x (by rw [hlen]; exact hs hc) hm (by rw [hlen]; exact hx hc)

theorem EngineEffect.memByte_other (h : EngineEffect d desc s t) {x : Nat} (hm : memWf s.mem = true)
    (hpend : ∀ w ∈ (s.port.get d).pending, x < w.addr ∨ w.addr + w.size ≤ x)
    (hflags : s.params.writeBack = .clearOwn → x < fetchAddress s d + flagsOffset ∨ fetchAddress s d + flagsOffset + 4 ≤ x) :
    memByte t.mem x = memByte s.mem x := by
  rcases h.mem with he | ⟨_, m, hp, hs, he⟩ <;> rw [he]
  rw [memByte_writtenBack_other (performAll_wf _ hp hm) hs hflags, memByte_performAll_other _ hp hm hpend]

/-- R65: the condition under which the transport reads a field. -/
theorem readsField_iff (s : State) (d : Dir) (f : DescField) :
    (awaitsRecord s d && ((s.port.get d).fields.get f).isNone && inSpace (fetchAddress s d) recSize) = true ↔
      (s.eng.get d).st = .fetchDescriptor ∧ currentComplete s d = false ∧ (s.eng.get d).curValid = false ∧
        (s.port.get d).fields.get f = none ∧ fetchAddress s d + 24 ≤ 2 ^ 64 := by
  simp only [awaitsRecord, Bool.and_eq_true, beq_iff_eq, Bool.not_eq_true', Option.isNone_iff_eq_none, inSpace_iff, and_assoc,
    recSize]

/-- R65: a field of an awaited record is read as memory holds it. -/
theorem readField_of_reads {f : DescField} (h : (s.eng.get d).st = .fetchDescriptor ∧ currentComplete s d = false ∧
    (s.eng.get d).curValid = false ∧ (s.port.get d).fields.get f = none ∧ fetchAddress s d + 24 ≤ 2 ^ 64) :
    readField d f s = s.withPort d { s.port.get d with fields := (s.port.get d).fields.put f (fieldNow s d f) } :=
  if_pos ((readsField_iff s d f).2 h)

theorem readField_of_not_reads {f : DescField} (h : ¬((s.eng.get d).st = .fetchDescriptor ∧ currentComplete s d = false ∧
    (s.eng.get d).curValid = false ∧ (s.port.get d).fields.get f = none ∧ fetchAddress s d + 24 ≤ 2 ^ 64)) :
    readField d f s = s :=
  if_neg fun hr => h ((readsField_iff s d f).1 hr)

/-- The address of the word that the transport reads ahead next (R66). -/
def aheadAddress (s : State) : Nat :=
  wordAddress s.params s.eng.pb.cur (s.eng.pb.burstCnt + s.port.pb.rdAhead.length)

/-- R66: the next word of the playback burst in flight is read as memory holds it. -/
theorem readAhead_of_reads (hst : s.eng.pb.st = .moveData)
    (hk : s.eng.pb.burstCnt + s.port.pb.rdAhead.length < s.eng.pb.reqBytes / s.params.wordBytes)
    (ha : aheadAddress s + s.params.wordBytes ≤ 2 ^ 64) :
    ∃ w, memRead s.mem (aheadAddress s) s.params.wordBytes = some w ∧
      readAhead s = s.withPort .pb { s.port.pb with rdAhead := s.port.pb.rdAhead ++ [w] } := by
  have hr := memRead_of_inSpace s.mem ha
  refine ⟨_, hr, ?_⟩
  unfold aheadAddress at hr
  simp only [readAhead, hst, hk, hr, beq_self_eq_true, decide_true, Bool.and_true, if_true, aheadAddress]

theorem readAhead_of_not_reads (h : ¬(s.eng.pb.st = .moveData ∧
    s.eng.pb.burstCnt + s.port.pb.rdAhead.length < s.eng.pb.reqBytes / s.params.wordBytes ∧
    aheadAddress s + s.params.wordBytes ≤ 2 ^ 64)) : readAhead s = s := by
  rcases readAhead_eq s with hq | ⟨w, hst, hk, hr, _⟩
  · exact hq
  · exact absurd ⟨hst, hk, (memRead_isSome_iff ..).1 (Option.isSome_of_eq_some hr)⟩ h

theorem memWrite_eq_none {m : Memory} {a n v : Nat} (h : 2 ^ 64 < a + n) : memWrite m a n v = none :=
  if_neg fun hs => absurd ((inSpace_iff a n).1 hs) (Nat.not_le_of_lt h)

/-- R71: the oldest write in hand is performed. -/
theorem performWrite_of_some {w : PendingWrite} {rest : List PendingWrite} {m : Memory}
    (hp : (s.port.get d).pending = w :: rest) (hw : memWrite s.mem w.addr w.size w.value = some m) :
    performWrite d s = .next ((s.withMem m).withPort d { s.port.get d with pending := rest }) := by
  simp only [performWrite, hp, hw]

/-- R51: there is no byte for a write past the top of the address space. -/
theorem performWrite_of_none {w : PendingWrite} {rest : List PendingWrite}
    (hp : (s.port.get d).pending = w :: rest) (hw : memWrite s.mem w.addr w.size w.value = none) :
    performWrite d s = .fault .outsideAddressSpace := by
  simp only [performWrite, hp, hw]

/-- Settles O25. The instruction's part is a fact about the engine's effects; the transport's moves each unfold to their own
condition. -/
theorem execMemoryFrame : Obligations.ExecMemoryFrame := by
  refine ⟨fun s d f => ⟨fun h => ?_, fun h => ?_⟩, fun s => ⟨fun h => ?_, fun h => ?_⟩, fun s d => ⟨fun h => ?_, ?_⟩,
    fun i s t h => ⟨fun hst => ?_, fun hm a hpend hflags => ?_⟩⟩
  · exact congrArg Host.Outcome.next ((readField_of_reads h).trans (by cases f <;> rfl))
  · exact congrArg Host.Outcome.next (readField_of_not_reads h)
  · obtain ⟨w, hr, hq⟩ := readAhead_of_reads h.1 h.2.1 h.2.2
    exact ⟨w, hr, congrArg Host.Outcome.next hq⟩
  · exact congrArg Host.Outcome.next (readAhead_of_not_reads h)
  · simp only [applyEvent, performWrite, h]
  · exact fun w rest hp => ⟨fun m hw => performWrite_of_some hp hw, fun hs => performWrite_of_none hp (memWrite_eq_none hs)⟩
  · rcases (exec_effect h).mem with he | ⟨hu, _⟩
    · exact he
    · exact absurd hu hst
  · exact (exec_effect h).memByte_other hm hpend hflags

end Memory

/-! ## The processor's registers (R44, R46 to R49) -/

section Processor

variable {s t : State}

/-- A bit event writes the registers of `eventAfp`, and the overrun flag where its publish finds the buffer full. -/
theorem driveAndSample_afp (inp : LineIn) (boundary : Bool) (act : ActiveConfig) (tx : Frame) (s : State) :
    ∃ o, (driveAndSample inp boundary act tx s).afp = { eventAfp inp boundary act tx s with overrunFlag := o } := by
  rw [driveAndSample_eq]
  dsimp only
  split
  · rcases publishFrame_effect (s := s.withAfp (eventAfp inp boundary act tx s)) (activeGeometry s.params act)
      (eventAfp inp boundary act tx s).rxShift with ⟨_, h⟩ | ⟨_, h⟩ <;> rw [h]
    · exact ⟨_, rfl⟩
    · rw [pushFrame_cap_afp]
      split <;> exact ⟨_, rfl⟩
  · exact ⟨_, rfl⟩

/-- The load writes no register of the processor but the underrun flag. -/
theorem loadFrame_afp (s : State) : ∃ u, (loadFrame s).2.afp = { s.afp with underrunFlag := u } := by
  rcases loadFrame_effect (s := s) with ⟨_, h⟩ | ⟨_, h⟩ <;> rw [h]
  · exact ⟨_, rfl⟩
  · rw [popFrame_pb_afp]
    split <;> exact ⟨_, rfl⟩

theorem loadFrame_params (s : State) : (loadFrame s).2.params = s.params := by
  rw [loadFrame_buffers.1]

/-- All that a bit event does to the processor: its registers as `eventAfp` has them, under the configuration just latched at a
boundary and the active one elsewhere, and the two sticky flags. -/
theorem bitEvent_afp {inp : LineIn} (h : bitEvent inp s = .next t) : ∃ boundary act tx u o,
    (atBoundary s.afp = true ∧ latchConfig s = .ok act ∨ act = s.afp.act) ∧
    t.afp = { eventAfp inp boundary act tx s with underrunFlag := u, overrunFlag := o } := by
  rcases bitEvent_next h with ⟨hb, act, ha, rfl⟩ | ⟨_, rfl⟩
  · obtain ⟨u, hu⟩ := loadFrame_afp s
    obtain ⟨o, ho⟩ := driveAndSample_afp inp true act (loadFrame s).1 (loadFrame s).2
    refine ⟨true, act, (loadFrame s).1, u, o, .inl ⟨hb, ha⟩, ?_⟩
    rw [ho]
    unfold eventAfp
    rw [hu, loadFrame_params]
  · obtain ⟨o, ho⟩ := driveAndSample_afp inp false s.afp.act s.afp.txFrame s
    exact ⟨false, s.afp.act, s.afp.txFrame, _, o, .inr rfl, ho⟩

/-! ### The counters (R47, R224, R225, R242) -/

/-- The counters are in the ranges of active configuration `act`. -/
structure CountsFit (p : Params) (act : ActiveConfig) (bitCnt chCnt : Nat) : Prop where
  bits : bitCnt < (activeGeometry p act).width
  channels : chCnt < (activeGeometry p act).channels
  dsd : act.format = .dsd → chCnt = 0

/-- The counters at a frame boundary fit every configuration (R226). -/
theorem countsFit_zero {p : Params} (hp : p.ok = true) (act : ActiveConfig) : CountsFit p act 0 0 := by
  obtain ⟨hc, -, hw, -⟩ := (Params.geomOk_iff _ _).1 (Params.ok_geometry hp act.format act.dsdMode)
  exact ⟨hw, hc, fun _ => rfl⟩

/-- R225: the counters of the next bit event fit again. -/
theorem CountsFit.advance {p : Params} {act : ActiveConfig} {b c : Nat} (hp : p.ok = true) (h : CountsFit p act b c) :
    CountsFit p act (advanceCounters act.format (activeGeometry p act) b c).1
      (advanceCounters act.format (activeGeometry p act) b c).2.1 := by
  have hz := countsFit_zero hp act
  unfold advanceCounters
  split
  · next hb => exact ⟨Nat.add_lt_of_lt_sub hb, h.channels, h.dsd⟩
  · split
    · next hc => exact ⟨hz.bits, Nat.add_lt_of_lt_sub hc.2, fun hd => absurd hd hc.1⟩
    · exact hz

/-- A configuration is latched in master mode alone (R242). -/
theorem latchConfig_master {act : ActiveConfig} (h : latchConfig s = .ok act) : act.master = true := by
  unfold latchConfig at h
  dsimp only at h
  split at h
  · cases h
  · split at h
    · cases h
    · rw [← Except.ok.inj h]

theorem CountersInv.counts (h : CountersInv s) : CountsFit s.params s.afp.act s.afp.bitCnt s.afp.chCnt :=
  ⟨h.bits, h.channels, h.dsd⟩

theorem CountersInv.of_eq (h : CountersInv s) (hp : t.params = s.params) (ha : t.afp = s.afp) : CountersInv t where
  params := hp ▸ h.params
  divider := by rw [hp, ha]; exact h.divider
  bits := by rw [hp, ha]; exact h.bits
  channels := by rw [hp, ha]; exact h.channels
  dsd := by rw [ha]; exact h.dsd
  master := by rw [ha]; exact h.master

/-- A bit event on a divider just reloaded. -/
theorem bitEvent_countersInv {inp : LineIn} (h : bitEvent inp s = .next t) (hd : s.afp.divCnt = 0) (hp : s.params.ok = true)
    (hc : CountsFit s.params s.afp.act s.afp.bitCnt s.afp.chCnt) (hm : s.afp.act.master = true) : CountersInv t := by
  have ht : t.params = s.params := by rw [(bitEvent_buffers h).only]
  obtain ⟨boundary, act, tx, u, o, hact, ha⟩ := bitEvent_afp h
  have hfit : CountsFit s.params act s.afp.bitCnt s.afp.chCnt ∧ act.master = true := by
    rcases hact with ⟨hb, hl⟩ | rfl
    · simp only [atBoundary, Bool.and_eq_true, beq_iff_eq] at hb
      rw [hb.1, hb.2]
      exact ⟨countsFit_zero hp act, latchConfig_master hl⟩
    · exact ⟨hc, hm⟩
  have hnext := hfit.1.advance hp
  exact {
    params := ht ▸ hp
    divider := by rw [ha, ht]; exact hd ▸ Params.ok_divider hp ..
    bits := by rw [ha, ht]; exact hnext.bits
    channels := by rw [ha, ht]; exact hnext.channels
    dsd := by rw [ha]; exact hnext.dsd
    master := by rw [ha]; exact hfit.2 }

theorem dividerStep_countersInv {inp : LineIn} (hs : CountersInv s) (h : dividerStep inp s = .next t) : CountersInv t := by
  rcases dividerStep_next h with ⟨hd, rfl⟩ | ⟨_, h⟩
  · exact { params := hs.params, divider := Nat.add_lt_of_lt_sub hd, bits := hs.bits, channels := hs.channels
            dsd := hs.dsd, master := hs.master }
  · exact bitEvent_countersInv h rfl hs.params hs.counts hs.master

end Processor

/-! ## The moves between ticks (R65, R66, R270) -/

section Moves

variable {Inv : State → Prop} {s t : State}

/-- What no move between ticks changes: the core but for its ports, and the size of a ring in flight (R356). -/
structure Quiet (s t : State) : Prop where
  params : t.params = s.params
  ring : t.ring = s.ring
  eng : t.eng = s.eng
  fifo : t.fifo = s.fifo
  afp : t.afp = s.afp
  sized : ∀ d, betweenFetchAndUpdate s d = true → ringCount t d = ringCount s d

theorem Quiet.refl (s : State) : Quiet s s := ⟨rfl, rfl, rfl, rfl, rfl, fun _ _ => rfl⟩

theorem takeEvent_quiet (s : State) : Quiet s (takeEvent s) := by
  rw [takeEvent_eq]
  exact ⟨rfl, rfl, rfl, rfl, rfl, fun _ _ => rfl⟩

/-- RING_SETUP of a ring in flight keeps its count, and the other ring's count it keeps anyway (R274, R356). -/
theorem ringSetup_quiet {d : Dir} {base : BitVec 64} {count : Nat} (h : ringSetup d base count s = .next t) : Quiet s t := by
  obtain ⟨hc, rfl⟩ := ringSetup_next h
  refine ⟨rfl, rfl, rfl, rfl, rfl, forall_dir d (fun hb => ?_) (fun _ => by simp [ringCount])⟩
  rcases hc with hn | ⟨_, rfl⟩
  · rw [hn] at hb; cases hb
  · simp [ringCount]

theorem ringInputs_quiet (d : Dir) (size : Nat) (irq : Bool) (thr : Nat) (s : State) :
    Quiet s (setRingInputs d size irq thr s) :=
  ⟨rfl, rfl, rfl, rfl, rfl,
    forall_dir d (fun _ => by simp [ringCount, setRingInputs]) (fun _ => by simp [ringCount, setRingInputs])⟩

theorem readField_quiet (d : Dir) (f : DescField) (s : State) : Quiet s (readField d f s) := by
  rcases readField_eq d f s with hq | ⟨_, hq⟩ <;> rw [hq]
  · exact .refl s
  · exact ⟨rfl, rfl, rfl, rfl, rfl, fun _ _ => rfl⟩

theorem readAhead_quiet (s : State) : Quiet s (readAhead s) := by
  rcases readAhead_eq s with hq | ⟨_, _, _, _, hq⟩ <;> rw [hq]
  · exact .refl s
  · exact ⟨rfl, rfl, rfl, rfl, rfl, fun _ _ => rfl⟩

theorem performWrite_quiet {d : Dir} (h : performWrite d s = .next t) : Quiet s t := by
  rcases performWrite_next h with ⟨rfl, _⟩ | ⟨_, _, _, _, _, rfl⟩
  · exact .refl t
  · exact ⟨rfl, rfl, rfl, rfl, rfl, fun _ _ => rfl⟩

/-- A property of the core and of the rings in flight survives every move between ticks. -/
theorem movesKeep_of_quiet (hq : ∀ s t, Quiet s t → Inv s → Inv t) : MovesKeep Inv where
  take s := hq _ _ (takeEvent_quiet s)
  enable _ _ _ := hq _ _ ⟨rfl, rfl, rfl, rfl, rfl, fun _ _ => rfl⟩
  softReset _ _ := hq _ _ ⟨rfl, rfl, rfl, rfl, rfl, fun _ _ => rfl⟩
  hwReset _ _ := hq _ _ ⟨rfl, rfl, rfl, rfl, rfl, fun _ _ => rfl⟩
  ringSetup _ _ _ _ _ hs h := hq _ _ (ringSetup_quiet h) hs
  ringInputs s d size irq thr := hq _ _ (ringInputs_quiet d size irq thr s)
  format _ _ := hq _ _ ⟨rfl, rfl, rfl, rfl, rfl, fun _ _ => rfl⟩
  hostWrite _ _ _ _ hs h := hq _ _ ((hostWrite_next h).2 ▸ ⟨rfl, rfl, rfl, rfl, rfl, fun _ _ => rfl⟩) hs
  status _ := hq _ _ ⟨rfl, rfl, rfl, rfl, rfl, fun _ _ => rfl⟩
  field s d f := hq _ _ (readField_quiet d f s)
  ahead s := hq _ _ (readAhead_quiet s)
  perform _ _ _ hs h := hq _ _ (performWrite_quiet h) hs

end Moves

/-! ## The counters' invariant in every step -/

section Counters

theorem ticksKeep_countersInv : TicksKeep CountersInv where
  reset _ hs := countersInv_of_reset hs.params rfl
  bus _ _ hs := hs.of_eq rfl rfl
  engine _ _ _ hs h := hs.of_eq (engineTick_keepsOthers h).params (engineTick_keepsOthers h).afp
  transportCells _ hs := hs.of_eq rfl rfl
  line _ _ hs := hs.of_eq rfl rfl
  divider _ _ _ hs h := dividerStep_countersInv hs h
  audioCells _ hs := hs.of_eq rfl rfl

/-- Settles O45: only a bit event moves the counters, and R225 keeps them below the geometry that is then active. -/
theorem processorCountersKept : Obligations.ProcessorCountersKept := fun _ _ hs h =>
  step_keeps (movesKeep_of_quiet fun _ _ hq hs => hs.of_eq hq.params hq.afp) ticksKeep_countersInv hs h

end Counters

/-! ## The engines' control (R23 to R28, R123, R125, R356) -/

section Control

variable {s t : State} {d : Dir} {desc : Desc}

theorem currentComplete_congr (h : t.ring.get d = s.ring.get d) : currentComplete t d = currentComplete s d := by
  simp only [currentComplete, slotComplete, h]

theorem ringCount_congr (h : t.host = s.host) : ringCount t d = ringCount s d := by simp only [ringCount, h]

/-- The control invariant is about the ring, the engine and the size of a ring with a record in hand. -/
theorem ControlInv.of_eq (h : ControlInv s d) (hp : t.params = s.params) (hr : t.ring.get d = s.ring.get d)
    (hst : (t.eng.get d).st = (s.eng.get d).st) (hv : (t.eng.get d).curValid = (s.eng.get d).curValid)
    (hb : (t.eng.get d).burstCnt = (s.eng.get d).burstCnt)
    (hn : (s.eng.get d).curValid = true → ringCount t d = ringCount s d) : ControlInv t d where
  slots := by rw [hr, hp]; exact h.slots
  index := by rw [hr, hp]; exact h.index
  inHand := by rw [hst, hv]; exact h.inHand
  atRest := by rw [hst, hv]; exact h.atRest
  fresh := by rw [hv, currentComplete_congr hr]; exact h.fresh
  sized hc := by rw [hv] at hc; rw [hn hc, hp]; exact h.sized hc
  active := by rw [hr, hst]; exact h.active
  moving := by rw [hst, hb, hp]; exact h.moving
  moved := by rw [hb, hp]; exact h.moved

/-- A record in the latch is in flight (R144 to R147). -/
theorem ControlInv.betweenFetchAndUpdate (h : ControlInv s d) (hv : (s.eng.get d).curValid = true) :
    betweenFetchAndUpdate s d = true := by
  have hrest := h.atRest
  unfold Machine.betweenFetchAndUpdate
  cases hst : (s.eng.get d).st with
  | fetchDescriptor => rfl
  | moveData => rfl
  | updateDescriptor => rfl
  | idle => rw [hrest (.inl hst)] at hv; cases hv
  | complete => rw [hrest (.inr hst)] at hv; cases hv

/-- An engine with an empty latch, in a state that needs none. -/
theorem controlInv_of_emptyLatch (hslots : (t.ring.get d).complete.length = t.params.ringMax)
    (hindex : (t.ring.get d).currentIndex < t.params.ringMax) (hactive : (t.ring.get d).activeCount = 0)
    (hmoved : (t.eng.get d).burstCnt ≤ t.params.burstWords) (hv : (t.eng.get d).curValid = false)
    (hst : ¬((t.eng.get d).st = .moveData ∨ (t.eng.get d).st = .updateDescriptor)) : ControlInv t d where
  slots := hslots
  index := hindex
  inHand h := absurd h hst
  atRest _ := hv
  fresh h := by rw [hv] at h; cases h
  sized h := by rw [hv] at h; cases h
  active := by rw [if_neg hst]; exact hactive
  moving h := absurd (.inl h) hst
  moved := hmoved

/-- An engine that goes from one state without a burst to another, with an empty latch. -/
theorem ControlInv.of_emptyLatch (h : ControlInv s d) (hp : t.params = s.params) (hr : t.ring.get d = s.ring.get d)
    (hb : (t.eng.get d).burstCnt = (s.eng.get d).burstCnt)
    (hs : ¬((s.eng.get d).st = .moveData ∨ (s.eng.get d).st = .updateDescriptor))
    (hv : (t.eng.get d).curValid = false)
    (ht : ¬((t.eng.get d).st = .moveData ∨ (t.eng.get d).st = .updateDescriptor)) : ControlInv t d :=
  controlInv_of_emptyLatch (by rw [hr, hp]; exact h.slots) (by rw [hr, hp]; exact h.index)
    (by rw [hr, h.active, if_neg hs]) (by rw [hb, hp]; exact h.moved) hv ht

/-- R144: the latch of a record, of a slot not complete, in a ring that R121 (a) bounds. -/
theorem latched_controlInv (h : ControlInv s d) (hst : (s.eng.get d).st = .fetchDescriptor)
    (hc : currentComplete s d = false) (hr : latchRefusal s d desc = none) : ControlInv (latched d desc s) d where
  slots := h.slots
  index := h.index
  inHand _ := by simp [latched]
  atRest hrest := by simp [latched, hst] at hrest
  fresh _ := hc
  sized _ := ((rangesOk_iff s d desc).1 ((latchRefusal_none s d desc).1 hr).2.1).2.1
  active := by
    have ha := h.active
    simp only [hst, reduceCtorEq, or_self, if_false] at ha
    simp [latched, hst, ha]
  moving hm := by simp [latched, hst] at hm
  moved := by simpa [latched] using h.moved

/-- R145: the accepted request, with an empty burst counter. -/
theorem requested_controlInv (hp : s.params.ok = true) (h : ControlInv s d) (hc : currentComplete s d = false)
    (hv : (s.eng.get d).curValid = true) : ControlInv (requested d desc s) d where
  slots := by simpa [requested] using h.slots
  index := by simpa [requested] using h.index
  inHand _ := by simpa [requested] using hv
  atRest hrest := by simp [requested] at hrest
  fresh _ := by simpa [requested, currentComplete, slotComplete] using hc
  sized _ := h.sized hv
  active := by simp [requested]
  moving _ := by simpa [requested] using Nat.lt_of_lt_of_le Nat.zero_lt_one (Params.ok_burstWords hp)
  moved := by simp [requested]

/-- R146: a word counted, by which the burst is done where the count reaches its bound. -/
theorem ControlInv.of_word (h : ControlInv s d) (hst : (s.eng.get d).st = .moveData) {done : Bool}
    (hdone : done = false → (s.eng.get d).burstCnt + 1 ≠ s.params.burstWords) (hp : t.params = s.params) (hh : t.host = s.host)
    (hr : t.ring.get d = s.ring.get d) (hst' : (t.eng.get d).st = if done then .updateDescriptor else (s.eng.get d).st)
    (hv : (t.eng.get d).curValid = (s.eng.get d).curValid)
    (hb : (t.eng.get d).burstCnt = (s.eng.get d).burstCnt + 1) : ControlInv t d := by
  have hvalid := h.inHand (.inl hst)
  have hmoving := h.moving hst
  have hburst : (t.eng.get d).st = .moveData ∨ (t.eng.get d).st = .updateDescriptor := by
    rw [hst', hst]
    cases done <;> simp
  exact {
    slots := by rw [hr, hp]; exact h.slots
    index := by rw [hr, hp]; exact h.index
    inHand := fun _ => hv.trans hvalid
    atRest := fun hrest => by rcases hburst with hm | hm <;> simp [hm] at hrest
    fresh := fun _ => by rw [currentComplete_congr hr]; exact h.fresh hvalid
    sized := fun _ => by rw [ringCount_congr hh, hp]; exact h.sized hvalid
    active := by rw [hr, h.active, if_pos (.inl hst), if_pos hburst]
    moving := fun hm => by
      have hd : done = false := by
        cases done with
        | false => rfl
        | true => rw [hst', if_pos rfl] at hm; cases hm
      have := hdone hd
      rw [hb, hp]
      omega
    moved := by rw [hb, hp]; omega }

/-- `nextIndex` names a slot of the ring (R97). -/
theorem nextSlot_lt {k : Nat} (h : nextSlot s d desc = some k) : k < ringCount s d := by
  unfold nextSlot nextIndex at h
  dsimp only at h
  split at h
  · next hc => exact Option.some.inj h ▸ hc.2.2
  · cases h

/-- R147: the slot completed, the latch empty, and the cursor on a slot of the ring. -/
theorem retires_controlInv (h : ControlInv s d) (hp : s.params.ok = true) {k : Nat} {st : EngState} {u : State} {v : Bool}
    (hst : (s.eng.get d).st = .updateDescriptor) (hk : k = 0 ∨ nextSlot s d desc = some k) (hst' : st = .idle ∨ st = .complete)
    (hu : retire d desc s = some u) : ControlInv (writeSig d v (setState d st (setIndex d k u))) d := by
  have hring := retires_ring (k := k) (st := st) (v := v) hu
  have hlt : k < s.params.ringMax := by
    rcases hk with rfl | hk
    · exact Params.ok_ringMax hp
    · exact Nat.lt_of_lt_of_le (nextSlot_lt hk) (h.sized (h.inHand (.inr hst)))
  obtain ⟨m, rfl⟩ := retire_eq hu
  refine controlInv_of_emptyLatch ?_ ?_ ?_ ?_ ?_ ?_
  · rw [hring]; simpa [completedRing, retired] using h.slots
  · rw [hring]; exact hlt
  · rw [hring]; rfl
  · simpa [retired] using h.moved
  · simp [retired]
  · rcases hst' with rfl | rfl <;> simp

/-- Every effect of an engine keeps its control invariant. -/
theorem EngineEffect.controlInv (h : EngineEffect d desc s t) (hp : s.params.ok = true) (hc : ControlInv s d) :
    ControlInv t d := by
  cases h with
  | waits h => subst h; exact hc.of_eq rfl rfl (by simp) (by simp) (by simp) fun _ => rfl
  | launches hst _ _ _ _ h =>
    subst h
    exact hc.of_emptyLatch rfl rfl (by simp) (by simp [hst]) (by simpa using hc.atRest (.inl hst)) (by simp)
  | ends hst hcc h =>
    have hv : (s.eng.get d).curValid = false := Bool.eq_false_iff.2 fun hv => by rw [hc.fresh hv] at hcc; cases hcc
    subst h
    exact hc.of_emptyLatch rfl rfl (by simp) (by simp [hst]) (by simpa using hv) (by simp)
  | rests hst h =>
    have hv := hc.atRest (.inr hst)
    subst h
    split <;> exact hc.of_emptyLatch rfl rfl (by simp) (by simp [hst]) (by simpa using hv) (by simp [hst])
  | latches hst hcc _ hr h => exact h ▸ latched_controlInv hc hst hcc hr
  | requests _ hcc hv _ h => exact h ▸ requested_controlInv hp hc hcc hv
  | plays _ last _ _ hd hst _ _ _ h =>
    subst hd h
    refine hc.of_word (done := playbackDone s last) hst (fun hn => ?_) ?_ ?_ ?_ ?_ ?_ ?_
    · simp only [playbackDone, Bool.or_eq_false_iff, beq_eq_false_iff_ne] at hn
      exact hn.2
    all_goals simp [playedWord, playbackDone]
  | captures _ hd hst _ _ _ h =>
    subst hd h
    refine hc.of_word (done := captureDone s) hst (fun hn => ?_) ?_ ?_ ?_ ?_ ?_ ?_
    · simp only [captureDone, Bool.or_eq_false_iff, beq_eq_false_iff_ne] at hn
      exact hn.2
    all_goals simp [capturedWord]
  | retires k st u hst hk hst' hu h => exact h ▸ retires_controlInv hc hp hst hk hst' hu

theorem engineTick_controlInv_other (h : engineTick d s = .next t) (hc : ControlInv s d.other) : ControlInv t d.other := by
  have hk := engineTick_keepsOthers h
  have he := hk.eng
  exact hc.of_eq hk.params hk.ring (by rw [he]; rfl) (by rw [he]; rfl) (by rw [he]; rfl) fun _ => ringCount_congr hk.host

/-- The tick of an engine keeps the control invariant of both, where no DMA error was signalled. -/
theorem engineTick_enginesInv (hs : EnginesInv s) (h : engineTick d s = .next t) : EnginesInv t := by
  have hk := engineTick_keepsOthers h
  have hp : t.params = s.params := hk.params
  refine ⟨hp ▸ hs.1, forall_dir d (fun he => ?_) (fun he => ?_)⟩
  · rcases engineTick_effect h with ⟨hd, rfl⟩ | ⟨hd, u, v, desc, hu, hef, ht⟩
    · rw [unspecifiedStep_dmaErr, hd] at he
      cases he
    · rcases ht with rfl | rfl
      · rcases hu with rfl | rfl
        · exact hef.controlInv hs.1 (hs.2 d hd)
        · exact hef.controlInv hs.1 ((hs.2 d hd).of_eq rfl rfl rfl rfl rfl fun _ => rfl)
      · rw [raise_dmaError_dmaErr] at he
        cases he
  · have he' : (s.eng.get d.other).dmaErr = false := by rw [hk.eng] at he; exact he
    exact engineTick_controlInv_other h (hs.2 _ he')

theorem EnginesInv.of_eq (h : EnginesInv s) (hp : t.params = s.params) (hr : t.ring = s.ring) (he : t.eng = s.eng)
    (hn : ∀ d, betweenFetchAndUpdate s d = true → ringCount t d = ringCount s d) : EnginesInv t := by
  refine ⟨hp ▸ h.1, fun d hd => ?_⟩
  rw [he] at hd
  have hc := h.2 d hd
  exact hc.of_eq hp (by rw [hr]) (by rw [he]) (by rw [he]) (by rw [he]) fun hv => hn d (hc.betweenFetchAndUpdate hv)

theorem ticksKeep_enginesInv : TicksKeep EnginesInv where
  reset _ hs := ⟨hs.1, fun d _ => by cases d <;> exact controlInv_of_reset hs.1 rfl rfl⟩
  bus _ _ hs := hs.of_eq rfl rfl rfl fun _ _ => rfl
  engine _ _ _ hs h := engineTick_enginesInv hs h
  transportCells _ hs := hs.of_eq rfl rfl rfl fun _ _ => rfl
  line _ _ hs := hs.of_eq rfl rfl rfl fun _ _ => rfl
  divider s t _ hs h := by
    have ho := (dividerStep_buffers h).only
    exact hs.of_eq (by rw [ho]) (by rw [ho]) (by rw [ho]) fun _ _ => ringCount_congr (by rw [ho])
  audioCells _ hs := hs.of_eq rfl rfl rfl fun _ _ => rfl

/-- Settles O29: an engine's own step by the engine's effects; RING_SETUP, the one move that could shrink the invariant's ring, is
refused while a record is in hand (R356). -/
theorem engineControlKept : Obligations.EngineControlKept := fun _ _ hs h =>
  step_keeps (movesKeep_of_quiet fun _ _ hq hs => hs.of_eq hq.params hq.ring hq.eng hq.sized) ticksKeep_enginesInv hs h

end Control

/-! ## Widths (R26, R43, R48, R49) -/

section Widths

variable {s t : State} {d : Dir} {desc : Desc}

/-- Both counters of a buffer are inside `CNT_W` (R43). -/
def CountersNarrow (p : Params) (f : Fifo) : Prop := f.overrunCnt < 2 ^ p.cntW ∧ f.underrunCnt < 2 ^ p.cntW

theorem pushResult_narrow {p : Params} {f : Fifo} (fr : Frame) (h : CountersNarrow p f) :
    CountersNarrow p (pushResult p f fr) := by
  unfold pushResult
  split
  · exact h
  · exact ⟨Nat.mod_lt _ (Nat.two_pow_pos _), h.2⟩

theorem popResult_narrow {p : Params} {f : Fifo} (h : CountersNarrow p f) : CountersNarrow p (popResult p f) := by
  unfold popResult
  split
  · exact h
  · exact ⟨h.1, Nat.mod_lt _ (Nat.two_pow_pos _)⟩

theorem BufferUse.narrow {p : Params} {f f' : Fifo} (h : BufferUse p d f f') (hn : CountersNarrow p f) : CountersNarrow p f' := by
  cases h with
  | untouched => exact hn
  | pushes _ fr => exact pushResult_narrow fr hn
  | pops => exact popResult_narrow hn

theorem WidthsInv.narrow (h : WidthsInv s) (d : Dir) : CountersNarrow s.params (s.fifo.get d) := ⟨h.overruns d, h.underruns d⟩

theorem widthsInv_of_narrow (hb : ∀ d, (t.ring.get d).bytesProcessed < 2 ^ t.params.bytesW)
    (hf : ∀ d, CountersNarrow t.params (t.fifo.get d)) (hl : t.afp.sdOut.length = t.params.maxC)
    (hr : t.afp.rxShift.length = t.params.maxC) : WidthsInv t :=
  ⟨hb, fun d => (hf d).1, fun d => (hf d).2, hl, hr⟩

theorem WidthsInv.of_eq (h : WidthsInv s) (hp : t.params = s.params) (hr : t.ring = s.ring)
    (hf : ∀ d, CountersNarrow s.params (t.fifo.get d)) (ha : t.afp = s.afp) : WidthsInv t :=
  widthsInv_of_narrow (by rw [hp, hr]; exact h.bytes) (by rw [hp]; exact hf) (by rw [hp, ha]; exact h.lines)
    (by rw [hp, ha]; exact h.shifts)

/-- An engine's step keeps the byte count inside `BYTES_W`. -/
theorem EngineEffect.bytes_lt (h : EngineEffect d desc s t) (hb : (s.ring.get d).bytesProcessed < 2 ^ s.params.bytesW) :
    (t.ring.get d).bytesProcessed < 2 ^ s.params.bytesW := by
  rcases h.ring with hr | ⟨_, _, _, hr⟩ <;> rw [hr]
  · exact hb
  · exact Nat.mod_lt _ (Nat.two_pow_pos _)

theorem engineTick_bytes_lt (h : engineTick d s = .next t) (hb : (s.ring.get d).bytesProcessed < 2 ^ s.params.bytesW) :
    (t.ring.get d).bytesProcessed < 2 ^ s.params.bytesW := by
  rcases engineTick_effect h with ⟨_, rfl⟩ | ⟨_, u, v, desc, hu, he, ht⟩
  · rw [unspecifiedStep_eq]
    simpa [drawnRing] using Nat.mod_lt _ (Nat.two_pow_pos _)
  · have hv : (v.ring.get d).bytesProcessed < 2 ^ u.params.bytesW := he.bytes_lt (by rcases hu with rfl | rfl <;> exact hb)
    rcases hu with rfl | rfl <;> rcases ht with rfl | rfl <;> exact hv

theorem engineTick_widthsInv (hs : WidthsInv s) (h : engineTick d s = .next t) : WidthsInv t := by
  have hk := engineTick_keepsOthers h
  have hp : t.params = s.params := hk.params
  have ha : t.afp = s.afp := hk.afp
  refine widthsInv_of_narrow (forall_dir d ?_ ?_) (forall_dir d ?_ ?_) ?_ ?_ <;> rw [hp]
  · exact engineTick_bytes_lt h (hs.bytes d)
  · rw [hk.ring]; exact hs.bytes d.other
  · exact (engineTick_bufferUse h).narrow (hs.narrow d)
  · rw [hk.fifo]; exact hs.narrow d.other
  · rw [ha]; exact hs.lines
  · rw [ha]; exact hs.shifts

theorem driveData_length (p : Params) (f : Format) (g : Geom) (tx : Frame) (b c : Nat) :
    (driveData p f g tx b c).length = p.maxC := by
  simp [driveData]

theorem sampleLine_length (f : Format) (g : Geom) (sdIn : List Bool) (c : Nat) (rx : List Nat) :
    (sampleLine f g sdIn c rx).length = rx.length := by
  cases f with
  | i2s => exact List.length_set
  | tdm => exact List.length_set
  | dsd => exact List.length_mapIdx

/-- The processor's step keeps the number of the lines and of the shift registers. -/
theorem bitEvent_lengths {inp : LineIn} (h : bitEvent inp s = .next t) :
    t.afp.sdOut.length = s.params.maxC ∧ t.afp.rxShift.length = s.afp.rxShift.length := by
  obtain ⟨_, _, _, _, _, _, ha⟩ := bitEvent_afp h
  rw [ha]
  exact ⟨driveData_length .., sampleLine_length ..⟩

theorem dividerStep_lengths {inp : LineIn} (h : dividerStep inp s = .next t) (hl : s.afp.sdOut.length = s.params.maxC) :
    t.afp.sdOut.length = s.params.maxC ∧ t.afp.rxShift.length = s.afp.rxShift.length := by
  rcases dividerStep_next h with ⟨_, rfl⟩ | ⟨_, h⟩
  · exact ⟨hl, rfl⟩
  · have he := bitEvent_lengths h
    exact he

theorem BuffersByAudio.narrow (h : BuffersByAudio s t) (hn : ∀ d, CountersNarrow s.params (s.fifo.get d)) :
    ∀ d, CountersNarrow s.params (t.fifo.get d)
  | .pb => by
    rcases h.pb with hf | hf <;> rw [PerDir.get_pb, hf]
    · exact hn .pb
    · exact popResult_narrow (hn .pb)
  | .cap => by
    rcases h.cap with hf | ⟨fr, hf⟩ <;> rw [PerDir.get_cap, hf]
    · exact hn .cap
    · exact pushResult_narrow fr (hn .cap)

theorem dividerStep_widthsInv {inp : LineIn} (hs : WidthsInv s) (h : dividerStep inp s = .next t) : WidthsInv t := by
  have hb := dividerStep_buffers h
  have ho := hb.only
  have hp : t.params = s.params := by rw [ho]
  have hr : t.ring = s.ring := by rw [ho]
  obtain ⟨hl, hx⟩ := dividerStep_lengths h hs.lines
  refine widthsInv_of_narrow ?_ ?_ ?_ ?_ <;> rw [hp]
  · rw [hr]; exact hs.bytes
  · exact hb.narrow hs.narrow
  · exact hl
  · exact hx.trans hs.shifts

theorem resetCore_widthsInv (s : State) : WidthsInv (resetCore s).drawn :=
  widthsInv_of_narrow (fun d => by cases d <;> exact Nat.two_pow_pos _)
    (fun d => by cases d <;> exact ⟨Nat.two_pow_pos _, Nat.two_pow_pos _⟩) List.length_replicate List.length_replicate

theorem ticksKeep_widthsInv : TicksKeep WidthsInv where
  reset s _ := resetCore_widthsInv s
  bus _ _ hs := hs.of_eq rfl rfl hs.narrow rfl
  engine _ _ _ hs h := engineTick_widthsInv hs h
  transportCells _ hs := hs.of_eq rfl rfl (fun d => by cases d; exacts [hs.narrow .pb, hs.narrow .cap]) rfl
  line _ _ hs := hs.of_eq rfl rfl hs.narrow rfl
  divider _ _ _ hs h := dividerStep_widthsInv hs h
  audioCells _ hs := hs.of_eq rfl rfl (fun d => by cases d; exacts [hs.narrow .pb, hs.narrow .cap]) rfl

/-- Settles O47. -/
theorem widthsKept : Obligations.WidthsKept := fun _ _ hs h =>
  step_keeps (movesKeep_of_quiet fun _ _ hq hs => hs.of_eq hq.params hq.ring (by rw [hq.fifo]; exact hs.narrow) hq.afp)
    ticksKeep_widthsInv hs h

end Widths

/-! ## Reset (R52, R340, R341, R346) -/

section Reset

variable {s : State}

/-- A state each of whose parts is at its reset value has every element at its value of R52, whatever the latches and the buffers
hold. -/
theorem coreAtReset_of_parts (hr : ∀ d, s.ring.get d = ringReset s.params) (he : ∀ d, ∃ cur, s.eng.get d = engReset cur)
    (hf : ∀ d, ∃ mem, mem.length = s.params.capacity ∧ s.fifo.get d = fifoReset s.params mem)
    (hc : s.control = controlReset s.params) (hs : s.status = statusReset s.params) (ha : s.afp = afpReset s.params) :
    CoreAtReset s where
  ring := hr
  eng d := by
    obtain ⟨cur, h⟩ := he d
    rw [h]
    exact ⟨rfl, rfl, rfl, rfl, rfl, rfl, rfl⟩
  fifo d := by
    obtain ⟨mem, hm, h⟩ := hf d
    rw [h]
    exact ⟨hm, rfl, rfl, rfl, rfl, rfl, rfl⟩
  control := by rw [hc]; exact ⟨rfl, rfl, rfl, rfl, rfl, rfl, rfl⟩
  status := by rw [hs]; exact ⟨rfl, rfl, rfl, rfl⟩
  act := by rw [ha]; rfl
  counters := by rw [ha]; exact ⟨rfl, rfl, rfl⟩
  frames := by rw [ha]; exact ⟨rfl, rfl⟩
  outputs := by rw [ha]; exact ⟨rfl, rfl, rfl, rfl⟩
  flags := by rw [ha]; exact ⟨rfl, rfl⟩

theorem resetCore_coreAtReset (s : State) : CoreAtReset (resetCore s).drawn :=
  coreAtReset_of_parts (fun d => by cases d <;> rfl) (fun d => by cases d <;> exact ⟨_, rfl⟩)
    (fun d => by cases d <;> exact ⟨_, by simp [freeEntries, resetCore], rfl⟩) rfl rfl rfl

theorem resetWith_coreAtReset (p : Params) : CoreAtReset (State.resetWith p) :=
  coreAtReset_of_parts (fun d => by cases d <;> rfl) (fun d => by cases d <;> exact ⟨_, rfl⟩)
    (fun d => by cases d <;> exact ⟨_, List.length_replicate, rfl⟩) rfl rfl rfl

/-- Settles O55. -/
theorem resetStateIsR52 : Obligations.ResetStateIsR52 := fun p => ⟨resetWith_coreAtReset p, rfl, rfl, rfl⟩

/-- A reset input replaces a tick of either domain by the reset step (R340). -/
theorem step_of_resetTickNext (h : resetTickNext s) : step s = resetStep (takeEvent s) := by
  obtain ⟨ha, ht⟩ := h
  have hr (tick : State → Result) : tickOrReset tick (takeEvent s) = resetStep (takeEvent s) :=
    if_pos ((resetAsserted_takeEvent s).trans ha)
  unfold step
  rcases ht with ⟨pb, cap, he⟩ | ⟨a, he⟩ <;> rw [he] <;> exact hr _

theorem requestOutstanding_takeEvent (s : State) (d : Dir) : requestOutstanding (takeEvent s) d = requestOutstanding s d := by
  rw [takeEvent_eq]
  rfl

theorem takeEvent_inputs (s : State) : (takeEvent s).inputs = s.inputs.tail := by
  unfold takeEvent
  split
  · next h => rw [h]; rfl
  · next h => rw [h]; rfl

/-- Settles O54. -/
theorem resetTakesTheTick : Obligations.ResetTakesTheTick := by
  intro s h hpb hcap
  refine ⟨(resetCore (takeEvent s)).drawn, ?_, resetCore_coreAtReset _, ?_, ?_, ?_, takeEvent_inputs s⟩
  · rw [step_of_resetTickNext h, resetStep, requestOutstanding_takeEvent, requestOutstanding_takeEvent, hpb, hcap]
    rfl
  all_goals
    rw [takeEvent_eq]
    rfl

end Reset

/-! ## The burst request (R145) -/

/-- Settles O13: with a record in the latch the shared activation is the request, of which only the length is the kind's. -/
theorem requestStartsBurst : Obligations.RequestStartsBurst := by
  intro i s hst hc hv ha
  have hreq : exec i s = .next (requested s.turn i.desc s) := by
    simp [exec_eq, activation, hst, hc, hv, requestStep, ha, requested]
  rw [hreq]
  unfold requested
  rw [writeSig_false]
  generalize s.turn = d
  cases d <;> rfl

/-! ## The host's moves (R38, R270 to R276) -/

section Host

variable {s : State}

theorem hostWrite_of_outside {a : Nat} {bs : List Byte} (h : 2 ^ 64 < a + bs.length) :
    hostWrite a bs s = .fault .outsideAddressSpace :=
  if_neg fun hs => absurd ((inSpace_iff _ _).1 hs) (Nat.not_le_of_lt h)

theorem hostWrite_of_inSpace {a : Nat} {bs : List Byte} (h : a + bs.length ≤ 2 ^ 64) :
    hostWrite a bs s = .next { s with mem := setBytes s.mem a bs } :=
  if_pos ((inSpace_iff _ _).2 h)

/-- Settles O57: every host move but the memory write is its own definition. -/
theorem hostCommandsChangeInputsOnly : Obligations.HostCommandsChangeInputsOnly := by
  intro s d v size thr f
  refine ⟨rfl, rfl, rfl, rfl, rfl, rfl, fun a bs => ⟨hostWrite_of_outside, fun h hm => ?_⟩, rfl⟩
  exact ⟨_, hostWrite_of_inSpace h, fun k hk => memByte_setBytes_inside bs s.mem a k h hm hk,
    fun x hx => memByte_setBytes_other bs s.mem a x h hm hx⟩

end Host

end Sys2Proof.Machine
end

/-! Host memory as the engines meet it (R61 to R72): byte order, the slot that an address names, the words that a burst moves, the
completion of a slot, the regions that the latch compares, and the record that a tick fetches. -/

namespace Sys2Proof.Machine

/-! ## Byte order (R61) -/

/-- Byte `k` of the number that a byte string stands for. -/
theorem natOfBytes_byte (bs : List Byte) (k : Nat) (hk : k < bs.length) : natOfBytes bs / 256 ^ k % 256 = bs[k].toNat := by
  induction bs generalizing k with
  | nil => exact absurd hk (Nat.not_lt_zero k)
  | cons b rest ih =>
    have hb : b.toNat < 256 := b.isLt
    cases k with
    | zero => simp [natOfBytes, Nat.mod_eq_of_lt hb]
    | succ k =>
      rw [natOfBytes, Nat.pow_succ', ← Nat.div_div_eq_div_mul, Nat.add_mul_div_left _ _ (by decide), Nat.div_eq_of_lt hb,
        Nat.zero_add, ih k (Nat.lt_of_succ_lt_succ hk), List.getElem_cons_succ]

/-- Byte `k` of the bytes that a number is written as. -/
theorem bytesOfNat_getElem (n v k : Nat) (hk : k < (bytesOfNat n v).length) :
    (bytesOfNat n v)[k].toNat = v / 256 ^ k % 256 := by
  induction n generalizing v k with
  | zero => exact absurd hk (Nat.not_lt_zero k)
  | succ n ih =>
    cases k with
    | zero => simp [bytesOfNat]
    | succ k =>
      rw [Nat.pow_succ', ← Nat.div_div_eq_div_mul]
      exact ih (v / 256) k (Nat.lt_of_succ_lt_succ hk)

theorem memRead_eq_some {m : Memory} {a n v : Nat} (h : memRead m a n = some v) : v = natOfBytes (loadBytes m a n) := by
  have hs := (memRead_isSome_iff m a n).1 (Option.isSome_of_eq_some h)
  exact Option.some.inj (h.symm.trans (memRead_of_inSpace m hs))

/-- A byte inside a write is the byte of the value. -/
theorem memByte_memWrite_inside {m m' : Memory} {a n v k : Nat} (hm : memWf m = true) (hw : memWrite m a n v = some m')
    (hk : k < n) : (memByte m' (a + k)).toNat = v / 256 ^ k % 256 := by
  obtain ⟨hs, rfl⟩ := memWrite_some hw
  have hk' : k < (bytesOfNat n v).length := by rwa [bytesOfNat_length]
  rw [memByte_setBytes_inside _ m a k (by rwa [bytesOfNat_length]) hm hk', List.getD_eq_getElem _ _ hk', bytesOfNat_getElem]

/-- Settles O5: a read and a write are both little-endian byte strings. -/
theorem hostMemoryLittleEndian : Obligations.HostMemoryLittleEndian := by
  refine ⟨fun m a n v k h hk => ?_, fun _ _ _ _ _ _ hm hw hk => memByte_memWrite_inside hm hw hk,
    fun _ _ _ _ _ _ hm hw hx => memByte_memWrite_other hw hm hx⟩
  have hk' : k < (loadBytes m a n).length := by rwa [loadBytes_length]
  rw [memRead_eq_some h, natOfBytes_byte _ k hk', loadBytes_getElem]

/-- Adjacent loads are one load. -/
theorem loadBytes_append (m : Memory) (a n k : Nat) : loadBytes m a n ++ loadBytes m (a + n) k = loadBytes m a (n + k) := by
  simp [loadBytes, List.range_add, Nat.add_assoc]

/-! ## The slot that an address names (R69, R97) -/

/-- Settles O28: the remainder is 0 exactly at a slot's start, and the quotient is then the slot. -/
theorem nextIndexIsTheSlot : Obligations.NextIndexIsTheSlot := by
  intro base n k a
  unfold nextIndex recSize
  dsimp only
  constructor
  · intro h
    split at h
    · cases h
      omega
    · cases h
  · rintro ⟨hk, ha⟩
    have hoff : a.toNat - base = k * 24 := by omega
    rw [hoff, Nat.mul_mod_left, Nat.mul_div_cancel k (by decide)]
    exact if_pos ⟨by omega, rfl, hk⟩

theorem nextSlot_eq_some_iff (s : State) (d : Dir) (desc : Desc) (k : Nat) :
    nextSlot s d desc = some k ↔ k < ringCount s d ∧ desc.nextAddress.toNat = ringBase s d + k * 24 :=
  nextIndexIsTheSlot ..

theorem nextSlot_isSome_iff (s : State) (d : Dir) (desc : Desc) :
    (nextSlot s d desc).isSome = true ↔ ∃ k, k < ringCount s d ∧ desc.nextAddress.toNat = ringBase s d + k * 24 := by
  simp only [Option.isSome_iff_exists, nextSlot_eq_some_iff]

/-! ## What an instruction does in each state of its engine (R140) -/

section Exec

variable {s : State} {i : Instr}

theorem exec_of_latching (hst : (s.eng.get s.turn).st = .fetchDescriptor) (hc : currentComplete s s.turn = false)
    (hv : (s.eng.get s.turn).curValid = false) : exec i s = latchStep s.turn i.desc s := by
  simp [exec_eq, activation, hst, hc, hv]

theorem exec_of_moveData (hst : (s.eng.get s.turn).st = .moveData) : exec i s = moveStep s.turn i.desc s := by
  simp [exec_eq, activation, hst]

theorem exec_of_updateDescriptor (hst : (s.eng.get s.turn).st = .updateDescriptor) :
    exec i s = kindUpdate i s.turn i.desc s := by
  simp [exec_eq, activation, hst]

end Exec

/-! ## The words of a burst (R66, R146) -/

section Words

variable {s : State} {desc : Desc} {g : Geom}

/-- R66: the word is the oldest one read ahead, else the one that memory holds. -/
theorem playbackWord_memory (ha : wordAddress s.params desc s.eng.pb.burstCnt + s.params.wordBytes ≤ 2 ^ 64) :
    ∃ w, playbackWord desc .memory s = some w ∧
      (s.port.pb.rdAhead = [] → memRead s.mem (wordAddress s.params desc s.eng.pb.burstCnt) s.params.wordBytes = some w) ∧
      ∀ v rest, s.port.pb.rdAhead = v :: rest → w = v := by
  have hr := memRead_of_inSpace s.mem ha
  unfold playbackWord
  cases s.port.pb.rdAhead with
  | nil => exact ⟨_, hr, fun _ => hr, nofun⟩
  | cons v rest => exact ⟨v, rfl, nofun, fun _ _ h => (List.cons.inj h).1⟩

theorem movePlayback_eq {src : Source Nat} {last : Bool} {w : Nat} (hb : s.bus.pb.rdWord = some (src, last))
    (hw : playbackWord desc src s = some w) (hg : transportGeometry s = .ok g) :
    movePlayback desc s = .next (playedWord g w last s) := by
  simp only [movePlayback, hb, hw, hg, playedWord]

/-- R182: a push into a buffer with room enters the frame. -/
theorem pushResult_of_room {p : Params} {f : Fifo} (fr : Frame) (h : occP p f < p.capacity) : pushResult p f fr = f.pushed p fr :=
  if_pos h

theorem playedWord_eng_pb (w : Nat) (last : Bool) (hst : s.eng.pb.st = .moveData) : (playedWord g w last s).eng.pb =
    { s.eng.pb with
      burstCnt := s.eng.pb.burstCnt + 1
      completeSig := false
      st := if last ∨ s.eng.pb.burstCnt + 1 = s.params.burstBytes / s.params.wordBytes then .updateDescriptor else .moveData } := by
  simp [playedWord, playbackDone, Params.burstWords, hst]

/-- Settles O14. -/
theorem playbackWordMoved : Obligations.PlaybackWordMoved := by
  intro i s last g hd hst hb hg hroom ha
  obtain ⟨w, hw, hnow, hahead⟩ := playbackWord_memory ha
  have hexec : exec i s = .next (playedWord g w last s) := by
    rw [exec_of_moveData (by rw [hd]; exact hst), hd]
    exact movePlayback_eq hb hw hg
  refine ⟨w, _, hexec, hnow, hahead, ?_, playedWord_eng_pb w last hst, ?_, ?_, ?_, (playedWord_ownOnly g w last).keepsOthers⟩
  · rw [playedWord_fifo, pushResult_of_room _ hroom]
    rfl
  all_goals simp [playedWord]

/-- R184: a pop of a buffer that is not empty takes its oldest frame. -/
theorem popResult_of_filled {p : Params} {f : Fifo} (h : 0 < occC p f) : popResult p f = f.popped p := if_pos h

theorem capturedFrame_of_filled (h : 0 < occC s.params s.fifo.cap) : capturedFrame s = s.fifo.cap.front s.params := by
  simp [capturedFrame, popFrame_fst, h]

theorem moveCapture_eq (hb : s.bus.cap.wrReady = true) (hg : transportGeometry s = .ok g)
    (ha : wordAddress s.params desc s.eng.cap.burstCnt + s.params.wordBytes ≤ 2 ^ 64) :
    moveCapture desc s = .next (capturedWord desc g s) := by
  simp only [moveCapture, hb, hg, (inSpace_iff _ _).2 ha, if_true, capturedWord, capturedWrite]

/-- R146: the burst ends, as the engine counts, at the requested or at the configured number of words. -/
theorem captureDone_eq (s : State) : captureDone s =
    decide (s.eng.cap.burstCnt + 1 = s.eng.cap.reqBytes / s.params.wordBytes ∨
      s.eng.cap.burstCnt + 1 = s.params.burstBytes / s.params.wordBytes) := by
  rw [Bool.decide_or]
  rfl

theorem capturedWord_eng_cap (hst : s.eng.cap.st = .moveData) : (capturedWord desc g s).eng.cap =
    { s.eng.cap with
      burstCnt := s.eng.cap.burstCnt + 1
      completeSig := false
      st := if s.eng.cap.burstCnt + 1 = s.eng.cap.reqBytes / s.params.wordBytes ∨
          s.eng.cap.burstCnt + 1 = s.params.burstBytes / s.params.wordBytes then .updateDescriptor else .moveData } := by
  simp [capturedWord, captureDone_eq, hst]

/-- Settles O15. -/
theorem captureWordMoved : Obligations.CaptureWordMoved := by
  intro i s g hd hst hb hg hfilled ha
  have hexec : exec i s = .next (capturedWord i.desc g s) := by
    rw [exec_of_moveData (by rw [hd]; exact hst), hd]
    exact moveCapture_eq hb hg ha
  refine ⟨_, hexec, ?_, ?_, capturedWord_eng_cap hst, ?_, ?_, (capturedWord_ownOnly g).keepsOthers⟩
  · simp only [capturedWord, capturedWrite, capturedFrame_of_filled hfilled, captureDone_eq, writeSig_port, countWord_port,
      handWrite_port, popFrame_cap_port, PerDir.set_cap]
    rfl
  · rw [capturedWord_fifo, popResult_of_filled hfilled]
    rfl
  all_goals simp [capturedWord]

end Words

/-! ## The completion of a slot (R71, R147, R150) -/

section Completion

variable {s : State} {d : Dir} {desc : Desc} {m : Memory}

/-- Inside the address space the write-back succeeds. -/
theorem writeBackFlags_of_inSpace (f : BitVec 32) (ha : fetchAddress s d + 24 ≤ 2 ^ 64) :
    writeBackFlags d f s = some (s.withMem (writtenBack s d f s.mem)) := by
  unfold writeBackFlags writtenBack
  cases s.params.writeBack with
  | none => rfl
  | clearOwn =>
    have hs : inSpace (fetchAddress s d + flagsOffset) 4 = true := (inSpace_iff _ _).2 (by unfold flagsOffset; omega)
    dsimp only
    rw [memWrite, if_pos hs]
    rfl

/-- Retiring a slot does not change where its flags word lies, nor whether it is written. -/
theorem retired_writtenBack (f : BitVec 32) : writtenBack (retired d m s) d f m = writtenBack s d f m := by
  unfold writtenBack
  rw [retired_fetchAddress]
  rfl

theorem retire_of_performed (hm : performAll s.mem (s.port.get d).pending = some m) (ha : fetchAddress s d + 24 ≤ 2 ^ 64) :
    retire d desc s = some ((retired d m s).withMem (writtenBack s d desc.flags m)) := by
  have hw := writeBackFlags_of_inSpace (s := retired d m s) (d := d) desc.flags (by rwa [retired_fetchAddress])
  rw [show (retired d m s).mem = m from rfl, retired_writtenBack] at hw
  rw [← hw]
  simp only [retire, hm]
  rfl

/-- R147: an engine whose writes lie in the address space completes its slot and moves on to slot `k` and state `st`. -/
theorem finish_completes (k : Nat) (st : EngState) (hm : performAll s.mem (s.port.get d).pending = some m)
    (ha : fetchAddress s d + 24 ≤ 2 ^ 64) :
    ∃ t, finish d desc k st s = .next t ∧ Completed d desc.flags m k st desc.interrupt s t := by
  have hf : finish d desc k st s = .next (writeSig d desc.interrupt
      (setState d st (setIndex d k ((retired d m s).withMem (writtenBack s d desc.flags m))))) := by
    simp only [finish, retire_of_performed hm ha]
  refine ⟨_, hf, ?_⟩
  constructor <;> simp [retired, edgeOf]

/-- An instruction whose `advance()` goes to slot `k` completes its own slot. -/
theorem exec_completes {i : Instr} {k : Nat} {st : EngState} (hi : kindUpdate i s.turn i.desc s = finish s.turn i.desc k st s)
    (hst : (s.eng.get s.turn).st = .updateDescriptor) (hm : performAll s.mem (s.port.get s.turn).pending = some m)
    (ha : fetchAddress s s.turn + 24 ≤ 2 ^ 64) :
    ∃ t, exec i s = .next t ∧ Completed s.turn i.desc.flags m k st i.interrupt s t := by
  rw [exec_of_updateDescriptor hst, hi, ← Instr.desc_interrupt]
  exact finish_completes k st hm ha

/-- R122, R152: `XFER` goes on to the slot that its `nextAddress` names. -/
theorem advanceTo_of_xfer (buf : BitVec 64) (len : BitVec 32) (irq : Bool) (rsv : BitVec 28) (own : Bool) (nxt : BitVec 64) :
    advanceTo s d (Instr.xfer buf len irq rsv own nxt).desc = nextSlot s d (Instr.xfer buf len irq rsv own nxt).desc := by
  simp only [advanceTo, Instr.desc, Desc.lastInChain, Desc.wrap, flagsOf_lastInChain, flagsOf_wrap, Bool.or_self,
    Bool.false_eq_true, if_false]

/-- Settles O16: `advance()` goes where `nextIndex` is defined, and elsewhere the step is refused. -/
theorem xferCompletes : Obligations.XferCompletes := by
  intro buf len irq rsv own nxt s m hst hm ha
  have hadv := advanceTo_of_xfer (s := s) (d := s.turn) buf len irq rsv own nxt
  refine ⟨fun k hk hnxt => ?_, fun hnone => ?_⟩
  · rw [(nextSlot_eq_some_iff ..).2 ⟨hk, hnxt⟩] at hadv
    exact exec_completes (by simp only [kindUpdate, updateXfer, hadv]) hst hm ha
  · have hslot : nextSlot s s.turn (Instr.xfer buf len irq rsv own nxt).desc = none :=
      Option.eq_none_iff_forall_ne_some.2 fun k hk =>
        have ⟨hlt, hnxt⟩ := (nextSlot_eq_some_iff ..).1 hk
        hnone k hlt hnxt
    rw [hslot] at hadv
    simp only [exec_of_updateDescriptor hst, kindUpdate, updateXfer, hadv]

/-- Settles O17: `advance()` goes to slot 0 without a look at `nextAddress`. -/
theorem xferWCompletes : Obligations.XferWCompletes := fun _ _ _ _ _ _ _ _ hst hm ha =>
  exec_completes (i := .xferW ..) rfl hst hm ha

/-- Settles O18: as O17, into `Complete`. -/
theorem xferLCompletes : Obligations.XferLCompletes := fun _ _ _ _ _ _ _ _ _ hst hm ha =>
  exec_completes (i := .xferL ..) rfl hst hm ha

end Completion

/-! ## The regions that the latch compares (R67, R357) -/

section Overlap

variable {s : State} {d : Dir} {desc : Desc} {f : Footprint}

theorem regionsMeet_comm (a b : Region) : regionsMeet a b = regionsMeet b a := by
  rw [regionsMeet, regionsMeet, max_comm, min_comm]

theorem footprintsClash_iff (a b : Footprint) : footprintsClash a b = true ↔
    (∃ w ∈ a.writes, ∃ r ∈ b.reads ++ b.writes, regionsMeet w r = true) ∨
      ∃ w ∈ b.writes, ∃ r ∈ a.reads, regionsMeet w r = true := by
  simp only [footprintsClash, Bool.or_eq_true, List.any_eq_true]

theorem overlaps_iff : overlaps s d desc = true ↔ selfClash s d (s.ring.get d).currentIndex desc = true ∨
    ∃ f ∈ otherFootprints s d desc, footprintsClash (footprint s d (s.ring.get d).currentIndex desc) f = true := by
  simp only [overlaps, Bool.or_eq_true, List.any_eq_true]

/-- A burst is read or written by its activation, so a write of another activation must not meet it. -/
theorem footprintsClash_of_write_meets_burst {i : Nat} {w : Region} (hw : w ∈ f.writes)
    (hm : regionsMeet w (bufferRegion s.params desc) = true) : footprintsClash (footprint s d i desc) f = true := by
  rw [footprintsClash_iff]
  cases d with
  | pb => exact .inr ⟨w, hw, bufferRegion s.params desc, by simp [footprint], hm⟩
  | cap =>
    refine .inl ⟨bufferRegion s.params desc, by simp [footprint], w, List.mem_append_right _ hw, ?_⟩
    rwa [regionsMeet_comm]

/-- Of two bursts in opposite directions one is written. -/
theorem footprintsClash_of_bursts_meet {i j : Nat} {desc' : Desc}
    (hm : regionsMeet (bufferRegion s.params desc) (bufferRegion s.params desc') = true) :
    footprintsClash (footprint s d i desc) (footprint s d.other j desc') = true := by
  cases d with
  | pb =>
    rw [regionsMeet_comm] at hm
    exact footprintsClash_of_write_meets_burst (by simp [footprint]) hm
  | cap =>
    exact (footprintsClash_iff ..).2 (.inl ⟨bufferRegion s.params desc, by simp [footprint], _, by simp [footprint], hm⟩)

theorem footprintsClash_of_no_writes {a b : Footprint} (ha : a.writes = []) (hb : b.writes = []) :
    footprintsClash a b = false := by
  simp [footprintsClash, ha, hb]

/-! ### The activations that count -/

theorem mem_otherFootprints_of_used (h : f ∈ s.used.get d) : f ∈ otherFootprints s d desc :=
  List.mem_append_left _ (List.mem_append_left _ h)

theorem mem_otherFootprints_of_pass (h : f ∈ passFootprints s d.other) : f ∈ otherFootprints s d desc :=
  List.mem_append_right _ h

theorem passFootprints_of_inPlay (h : inPlay s d = true) :
    passFootprints s d = s.used.get d ++ slotFootprints s d (slotsFrom s d) := if_pos h

theorem passFootprints_of_not_inPlay (h : inPlay s d = false) : passFootprints s d = [] := by
  simp [passFootprints, h]

/-- A pass starts with its current slot. -/
theorem currentIndex_mem_slotsFrom (hc : currentComplete s d = false) (hn : 1 ≤ ringCount s d) (hr : 1 ≤ s.params.ringMax) :
    (s.ring.get d).currentIndex ∈ slotsFrom s d := by
  have hcur : slotComplete s d (s.ring.get d).currentIndex = false := hc
  obtain ⟨n, hfuel⟩ : ∃ n, chainFuel s d = n + 1 := Nat.exists_eq_succ_of_ne_zero (by unfold chainFuel; omega)
  simp [slotsFrom, hfuel, chainFrom, hcur]

theorem recordInHand_of_latched (hv : (s.eng.get d).curValid = true) :
    recordInHand s d (s.ring.get d).currentIndex = (s.eng.get d).cur := if_pos ⟨rfl, hv⟩

/-- A pass in play uses what the record in the latch of its current slot stands for. -/
theorem footprint_mem_passFootprints (hp : inPlay s d = true) (hv : (s.eng.get d).curValid = true)
    (hc : currentComplete s d = false) (hn : 1 ≤ ringCount s d) (hr : 1 ≤ s.params.ringMax) :
    footprint s d (s.ring.get d).currentIndex (s.eng.get d).cur ∈ passFootprints s d := by
  rw [passFootprints_of_inPlay hp, ← recordInHand_of_latched hv]
  exact List.mem_append_right _ (List.mem_map_of_mem (currentIndex_mem_slotsFrom hc hn hr))

/-- An activation overlaps where its burst meets a region that an activation which counts writes. -/
theorem overlaps_of_write_meets_burst {w : Region} (hf : f ∈ otherFootprints s d desc) (hw : w ∈ f.writes)
    (hm : regionsMeet w (bufferRegion s.params desc) = true) : overlaps s d desc = true :=
  overlaps_iff.2 (.inr ⟨f, hf, footprintsClash_of_write_meets_burst hw hm⟩)

/-- Playback writes nothing but flags words (R63, R150). -/
theorem footprint_pb_writes (hn : s.params.writeBack = .none) (i : Nat) : (footprint s .pb i desc).writes = [] := by
  simp [footprint, writeBackRegions, hn]

theorem selfClash_pb_of_no_writeBack (hn : s.params.writeBack = .none) (i : Nat) : selfClash s .pb i desc = false := by
  simp [selfClash, writeBackRegions, hn]

/-- A playback pass that has latched nothing, beside a capture engine that is not in play, overlaps nothing where no flags word is
written. -/
theorem overlaps_pb_eq_false (hn : s.params.writeBack = .none) (hu : s.used.pb = []) (hp : inPlay s .cap = false) :
    overlaps s .pb desc = false := by
  rw [Bool.eq_false_iff]
  intro h
  rcases overlaps_iff.1 h with hself | ⟨f, hf, hclash⟩
  · rw [selfClash_pb_of_no_writeBack hn] at hself
    cases hself
  · rw [otherFootprints, Dir.other_pb, passFootprints_of_not_inPlay hp, List.append_nil, PerDir.get_pb, hu, List.nil_append] at hf
    obtain ⟨k, _, rfl⟩ := List.mem_map.1 hf
    rw [footprintsClash_of_no_writes (footprint_pb_writes hn _) (footprint_pb_writes hn _)] at hclash
    cases hclash

end Overlap

/-! ## What the latch refuses (R64, R67, R121, R357) -/

section Latch

variable {s : State} {d : Dir} {desc : Desc}

theorem latchStep_of_refusal {r : Refusal} (h : latchRefusal s d desc = some r) : latchStep d desc s = .refused r := by
  simp only [latchStep, h]

theorem latchStep_of_valid (h : latchRefusal s d desc = none) : latchStep d desc s = .next (latched d desc s) := by
  simp only [latchStep, h, latched]

/-- R121 (a), (b), (e), (f), with the slot that a descriptor inside a chain names. -/
theorem rangesOk_iff_slot : rangesOk s d desc = true ↔
    (1 ≤ ringCount s d ∧ ringCount s d ≤ s.params.ringMax) ∧ ringBase s d + ringCount s d * 24 ≤ 2 ^ 64 ∧
      desc.bufferAddress.toNat + min s.params.burstBytes desc.length.toNat ≤ 2 ^ 64 ∧
      (desc.lastInChain = false ∧ desc.wrap = false →
        ∃ k, k < ringCount s d ∧ desc.nextAddress.toNat = ringBase s d + k * 24) := by
  rw [rangesOk_iff, nextSlot_isSome_iff, and_assoc]
  have hend (P : Prop) : (desc.lastInChain = true ∨ desc.wrap = true ∨ P) ↔
      (desc.lastInChain = false ∧ desc.wrap = false → P) := by
    cases desc.lastInChain <;> cases desc.wrap <;> simp
  rw [hend]
  rfl

/-- R67, with the address that lies in a device region. -/
theorem inDevice_iff_address : inDevice s d desc = true ↔ ∃ r ∈ s.params.deviceRegions, ∃ x,
    (r.base ≤ x ∧ x < r.base + r.size) ∧ ((ringBase s d ≤ x ∧ x < ringBase s d + ringCount s d * 24) ∨
      (desc.bufferAddress.toNat ≤ x ∧ x < desc.bufferAddress.toNat + min s.params.burstBytes desc.length.toNat)) := by
  simp only [inDevice_iff, regionsMeet_iff, ← exists_or, ← and_or_left]
  rfl

/-- Settles O12: each overlap names the two activations that clash; the refusals follow the order of `latchRefusal`. -/
theorem invalidRecordRefused : Obligations.InvalidRecordRefused := by
  refine ⟨?_, ?_, ?_, ?_, ?_⟩
  · intro s desc x hlo hhi hrec hrec'
    exact overlaps_iff.2 (.inl ((regionsMeet_iff ..).2 ⟨x, ⟨hlo, hhi⟩, hrec, hrec'⟩))
  · intro s d desc x e he hst hv hc hn hr hlo hhi hlo' hhi'
    have hplay : inPlay s d.other = true := (inPlay_iff ..).2 ⟨he, by rw [hst]; decide, by rw [hst]; nofun⟩
    have hmeet : regionsMeet (bufferRegion s.params desc) (bufferRegion s.params e.cur) = true :=
      (regionsMeet_iff ..).2 ⟨x, ⟨hlo, hhi⟩, hlo', hhi'⟩
    exact overlaps_iff.2 (.inr ⟨_, mem_otherFootprints_of_pass (footprint_mem_passFootprints hplay hv hc hn hr),
      footprintsClash_of_bursts_meet hmeet⟩)
  · intro s d desc f w x e hused hw hlo hhi hlo' hhi'
    have hf : f ∈ otherFootprints s d desc := by
      rcases hused with hu | ⟨hu, hplay⟩
      · exact mem_otherFootprints_of_used hu
      · refine mem_otherFootprints_of_pass ?_
        rw [passFootprints_of_inPlay ((inPlay_iff ..).2 hplay)]
        exact List.mem_append_left _ hu
    exact overlaps_of_write_meets_burst hf hw ((regionsMeet_iff ..).2 ⟨x, ⟨hlo, hhi⟩, hlo', hhi'⟩)
  · intro s desc hn hu hrest
    refine overlaps_pb_eq_false hn hu (Bool.eq_false_iff.2 fun hp => ?_)
    obtain ⟨he, hst, hidle⟩ := (inPlay_iff ..).1 hp
    rcases hrest with hcomplete | ⟨hi, hdis⟩ | herr
    · exact hst hcomplete
    · exact absurd (hidle hi) (Bool.eq_false_iff.1 hdis)
    · exact absurd herr (Bool.eq_false_iff.1 he)
  · intro i s hst hc hv p base n buf len aligned ranges device
    have haligned : alignedOk s s.turn i.desc = true ↔ aligned := alignedOk_iff ..
    have hranges : rangesOk s s.turn i.desc = true ↔ ranges := rangesOk_iff_slot
    have hdevice : inDevice s s.turn i.desc = true ↔ device := inDevice_iff_address
    rw [exec_of_latching hst hc hv, ← haligned, ← hranges, ← hdevice]
    refine ⟨fun ha => latchStep_of_refusal ?_, fun ha hr => latchStep_of_refusal ?_, fun ha hr hd => latchStep_of_refusal ?_,
      fun ha hr hd ho => latchStep_of_refusal ?_, fun ha hr hd ho => ⟨_, latchStep_of_valid ?_⟩⟩
    · simp [latchRefusal, ha]
    · simp [latchRefusal, ha, hr]
    · simp [latchRefusal, ha, hr, hd]
    · simp [latchRefusal, ha, hr, hd, ho]
    · exact (latchRefusal_none ..).2 ⟨ha, hr, Bool.eq_false_iff.2 hd, ho⟩

end Latch

/-! ## The record that a tick fetches (R65, R95, R144) -/

section Fetch

variable {s u : State} {d : Dir}

theorem nextEvent_of_inputs {e : Event} {rest : List Event} (h : s.inputs = e :: rest) : nextEvent s = e := by
  simp only [nextEvent, h]

/-- A transport tick that no reset replaces is the two engines' parts and then the domain's cells (R284). -/
theorem step_of_transportTick {pb cap : PortIn} (he : nextEvent s = .transportTick pb cap) (hr : resetAsserted s = false) :
    step s = mapNext (andThen (engineTick .pb ((takeEvent s).withBus ⟨pb, cap⟩)) (engineTick .cap))
      (fun v => (stepTransportCells v).drawn) := by
  have htick : tickOrReset (transportStep pb cap) (takeEvent s) = transportStep pb cap (takeEvent s) :=
    if_neg (by rw [resetAsserted_takeEvent, hr]; decide)
  rw [step, he]
  exact htick

/-- R65: the bytes that the transport delivers, field by field. -/
theorem deliveredBytes_memory (ha : fetchAddress s d + 24 ≤ 2 ^ 64) : deliveredBytes s d .memory =
    some (deliveredField s d .bufferAddress ++ deliveredField s d .length ++ deliveredField s d .flags ++
      deliveredField s d .nextAddress) :=
  if_pos ((inSpace_iff ..).2 ha)

/-- The four fields of a record tile its 24 bytes (R90). -/
theorem loadBytes_fields (m : Memory) (a : Nat) :
    loadBytes m a 8 ++ loadBytes m (a + 8) 4 ++ loadBytes m (a + 12) 4 ++ loadBytes m (a + 16) 8 = loadBytes m a 24 := by
  rw [loadBytes_append m a 8 4, loadBytes_append m a 12 4, loadBytes_append m a 16 8]

/-- An engine that waits for the record that its transport presents executes what that record decodes to. -/
theorem engineTick_of_fetch {i : Instr} {src : Source (BitVec 192)} {bs rest : List Byte} (herr : (s.eng.get d).dmaErr = false)
    (hst : (s.eng.get d).st = .fetchDescriptor) (hc : currentComplete s d = false) (hv : (s.eng.get d).curValid = false)
    (hb : (s.bus.get d).descData = some src) (hbytes : deliveredBytes s d src = some bs) (hdec : decode bs = .ok (i, rest)) :
    engineTick d s = mapNext (exec i (s.withTurn d)) (latchDmaError d) := by
  have hhand : inHand s d = .instr i := by
    simp only [inHand, hst, hc, hv, hb, hbytes, decodeDelivered, hdec, Bool.false_eq_true, if_false]
  simp only [engineTick, herr, engineStep, hhand, Bool.false_eq_true, if_false]

theorem andThen_of_next (r : Result) : andThen r (fun v => .next v) = r := by cases r <;> rfl

/-- Settles O26: the engine whose turn it is executes the delivered record; the capture engine's part starts where the playback
engine's ends. -/
theorem stepRunsFetchedInstruction : Obligations.StepRunsFetchedInstruction := by
  intro s u pb cap rest d i hin hr hu herr hst hc hv hb a early record ha
  have hbytes : deliveredBytes u d .memory = some record := deliveredBytes_memory ha
  refine ⟨fun hnone => ?_, fun hdec => ?_⟩
  · simpa only [record, hnone, Option.getD_none] using loadBytes_fields u.mem a
  · have htick := engineTick_of_fetch herr hst hc hv hb hbytes hdec
    rw [step_of_transportTick (nextEvent_of_inputs hin) hr, ← htick]
    cases d with
    | pb => rw [hu]
    | cap => rw [hu, andThen_next, andThen_of_next]

end Fetch

end Sys2Proof.Machine

/-! The encoding (R90 to R101): the fields of a record and the parts of its flags word both ways, the kind that a record selects,
and what of a descriptor no longer matters once it is latched. -/

namespace Sys2Proof

/-! ## The parts of a flags word (R93) -/

/-- The reserved bits of an assembled flags word; the other parts are in Laws/Decode.lean. -/
@[simp] theorem flagsOf_reserved (irq last wrap own : Bool) (rsv : BitVec 28) :
    (flagsOf irq last wrap rsv own).extractLsb' 3 28 = rsv := by
  rw [flagsOf, BitVec.extractLsb'_append_eq_of_le (by decide), BitVec.extractLsb'_append_eq_of_le (by decide),
    BitVec.extractLsb'_append_eq_of_le (by decide)]
  exact BitVec.extractLsb'_append_eq_right

/-- An instruction is the one that its own descriptor selects: the kind's bits of the flags word are the kind's alone (R96). -/
theorem instrOfDesc_of_desc (i : Instr) : instrOfDesc i.desc = i := by
  cases i with
  | xfer | xferW | xferL =>
    simp only [instrOfDesc, Instr.desc, Desc.lastInChain, Desc.wrap, Desc.interrupt, Desc.reserved, Desc.hwOwned,
      flagsOf_interrupt, flagsOf_lastInChain, flagsOf_wrap, flagsOf_reserved, flagsOf_hwOwned, Bool.false_eq_true, if_true,
      if_false]

/-! ## The fields of a record (R90, R95) -/

/-- Bits of a field of a record are bits of the record. -/
theorem extractLsb'_of_extractLsb' {w : Nat} (x : BitVec w) {start len start' len' : Nat} (h : start + len ≤ len') :
    (x.extractLsb' start' len').extractLsb' start len = x.extractLsb' (start' + start) len := by
  ext k hk
  simp only [BitVec.getElem_extractLsb', BitVec.getLsbD_extractLsb', Nat.add_assoc,
    decide_eq_true (show start + k < len' by omega), Bool.true_and]

/-- R95: each field of an assembled record is the one it was assembled of. -/
theorem descOfRec_recOfDesc (d : Desc) : descOfRec (recOfDesc d) = d := by
  obtain ⟨buf, len, f, nxt⟩ := d
  simp only [descOfRec, recOfDesc, Desc.mk.injEq]
  refine ⟨BitVec.extractLsb'_append_eq_right, ?_, ?_, ?_⟩
  · rw [BitVec.extractLsb'_append_eq_of_le (by decide)]
    exact BitVec.extractLsb'_append_eq_right
  · rw [BitVec.extractLsb'_append_eq_of_le (by decide), BitVec.extractLsb'_append_eq_of_le (by decide)]
    exact BitVec.extractLsb'_append_eq_right
  · rw [BitVec.extractLsb'_append_eq_of_le (by decide), BitVec.extractLsb'_append_eq_of_le (by decide)]
    exact BitVec.extractLsb'_append_eq_left

/-- R95: adjacent fields join, and the four of them are the whole record. -/
theorem recOfDesc_descOfRec (rec : BitVec 192) : recOfDesc (descOfRec rec) = rec :=
  calc recOfDesc (descOfRec rec)
    _ = rec.extractLsb' 96 (64 + 32) ++ rec.extractLsb' 64 32 ++ rec.extractLsb' 0 64 := by
        rw [← BitVec.extractLsb'_append_extractLsb'_eq_extractLsb' (x := rec) (start₂ := 128) rfl]
        rfl
    _ = rec.extractLsb' 64 (64 + 32 + 32) ++ rec.extractLsb' 0 64 := by
        rw [BitVec.extractLsb'_append_extractLsb'_eq_extractLsb' (x := rec) (start₂ := 96) rfl]
    _ = rec := BitVec.extractLsb'_append_extractLsb' (w := 128)

/-- A field of a record as a number. -/
theorem extractLsb'_toNat_eq {w : Nat} (x : BitVec w) (start len : Nat) :
    (x.extractLsb' start len).toNat = x.toNat / 2 ^ start % 2 ^ len := by
  rw [BitVec.extractLsb'_toNat, Nat.shiftRight_eq_div_pow]

/-! ## The bytes of a record (R61, R90) -/

/-- The bytes of a byte string's number are that string. -/
theorem bytesOfNat_natOfBytes (bs : List Byte) : bytesOfNat bs.length (natOfBytes bs) = bs := by
  refine List.ext_getElem (Machine.bytesOfNat_length ..) fun k hk hk' => BitVec.eq_of_toNat_eq ?_
  rw [Machine.bytesOfNat_getElem, Machine.natOfBytes_byte bs k hk']

@[simp] theorem bytesOfRec_length (rec : BitVec 192) : (bytesOfRec rec).length = 24 := Machine.bytesOfNat_length ..

/-- A record fits in its 24 bytes. -/
theorem recOfBytes_bytesOfRec (rec : BitVec 192) : recOfBytes (bytesOfRec rec) = rec := by
  have hlt : rec.toNat < 256 ^ recSize := rec.isLt
  rw [recOfBytes, bytesOfRec, natOfBytes_bytesOfNat, Nat.mod_eq_of_lt hlt, BitVec.ofNat_toNat, BitVec.setWidth_eq]

/-- 24 bytes fit in a record. -/
theorem bytesOfRec_recOfBytes {bs : List Byte} (h : bs.length = 24) : bytesOfRec (recOfBytes bs) = bs := by
  have hlt : natOfBytes bs < 2 ^ 192 := by
    have hb := natOfBytes_lt bs
    rwa [h, show 256 ^ 24 = 2 ^ 192 by decide] at hb
  have hbytes := bytesOfNat_natOfBytes bs
  rw [h] at hbytes
  rwa [bytesOfRec, recOfBytes, BitVec.toNat_ofNat, Nat.mod_eq_of_lt hlt]

/-! ## The decoder and the encoder (R95, R100, R101) -/

/-- The decoder takes a record's 24 bytes and leaves the rest. -/
theorem decode_append {bs : List Byte} (h : bs.length = 24) (rest : List Byte) :
    decode (bs ++ rest) = .ok (decodeRec (recOfBytes bs), rest) := by
  have htake : (bs ++ rest).take recSize = bs := List.take_left' h
  have hdrop : (bs ++ rest).drop recSize = rest := List.drop_left' h
  rw [decode, htake, hdrop]
  exact if_pos (beq_iff_eq.2 h)

/-- R101: fewer bytes than a record's are no descriptor. -/
theorem decode_of_short {bs : List Byte} (h : bs.length < 24) : decode bs = .error .truncated := by
  refine if_neg fun hlen => ?_
  rw [beq_iff_eq, List.length_take, recSize] at hlen
  omega

/-- R95: the record of an instruction decodes to it. -/
theorem decodeRec_recOfDesc (i : Instr) : decodeRec (recOfDesc i.desc) = i := by
  rw [decodeRec, descOfRec_recOfDesc, instrOfDesc_of_desc]

/-- R95, R100: the instruction that a record decodes to stands for that record. -/
theorem recOfDesc_decodeRec (rec : BitVec 192) : recOfDesc (decodeRec rec).desc = rec := by
  rw [decodeRec, instrOfDesc_desc, recOfDesc_descOfRec]

theorem decode_encode (i : Instr) (rest : List Byte) : decode (encode i ++ rest) = .ok (i, rest) := by
  rw [encode, decode_append (bytesOfRec_length _), recOfBytes_bytesOfRec, decodeRec_recOfDesc]

theorem encode_decodeRec {bs : List Byte} (h : bs.length = 24) : encode (decodeRec (recOfBytes bs)) = bs := by
  rw [encode, recOfDesc_decodeRec, bytesOfRec_recOfBytes h]

/-- Settles O1: bytes and record, record and descriptor, descriptor and instruction are each inverse to one another. -/
theorem decodeOfEncode : Obligations.DecodeOfEncode := by
  refine ⟨decode_encode, descOfRec_recOfDesc, fun rec => ⟨recOfDesc_descOfRec rec, ?_, ?_, ?_, ?_⟩⟩
  · exact (extractLsb'_toNat_eq rec 0 64).trans (by rw [pow_zero, Nat.div_one])
  · exact extractLsb'_toNat_eq rec 64 32
  · exact extractLsb'_toNat_eq rec 96 32
  · have htop : rec.toNat / 2 ^ 128 < 2 ^ 64 := Nat.div_lt_of_lt_mul rec.isLt
    exact (extractLsb'_toNat_eq rec 128 64).trans (Nat.mod_eq_of_lt htop)

/-- Settles O2: no bit of the 24 bytes is dropped on the way to the instruction. -/
theorem encodeOfDecode : Obligations.EncodeOfDecode := fun bs =>
  ⟨fun h => ⟨decodeRec (recOfBytes bs), by simpa only [List.append_nil] using decode_append h [], encode_decodeRec h⟩,
    decode_of_short⟩

/-! ## The kind and the operands of a record (R90, R93, R96) -/

/-- Bit `k` of a record's flags word is bit `96 + k` of the record. -/
theorem descOfRec_flags_getLsbD (rec : BitVec 192) {k : Nat} (h : k < 32) :
    (descOfRec rec).flags.getLsbD k = rec.getLsbD (96 + k) := by
  simp only [descOfRec, BitVec.getLsbD_extractLsb', decide_eq_true h, Bool.true_and]

@[simp] theorem descOfRec_interrupt (rec : BitVec 192) : (descOfRec rec).interrupt = rec.getLsbD 96 :=
  descOfRec_flags_getLsbD rec (by decide)

@[simp] theorem descOfRec_lastInChain (rec : BitVec 192) : (descOfRec rec).lastInChain = rec.getLsbD 97 :=
  descOfRec_flags_getLsbD rec (by decide)

@[simp] theorem descOfRec_wrap (rec : BitVec 192) : (descOfRec rec).wrap = rec.getLsbD 98 :=
  descOfRec_flags_getLsbD rec (by decide)

@[simp] theorem descOfRec_reserved (rec : BitVec 192) : (descOfRec rec).reserved = rec.extractLsb' 99 28 :=
  extractLsb'_of_extractLsb' rec (by decide)

@[simp] theorem descOfRec_hwOwned (rec : BitVec 192) : (descOfRec rec).hwOwned = rec.getLsbD 127 :=
  descOfRec_flags_getLsbD rec (by decide)

/-- Settles O3: the record's `lastInChain` and `wrap` are its bits 97 and 98. -/
theorem kindAndOperandsOfRecord : Obligations.KindAndOperandsOfRecord := fun rec => by
  simp only [decodeRec, instrOfDesc, descOfRec_interrupt, descOfRec_lastInChain, descOfRec_wrap, descOfRec_reserved,
    descOfRec_hwOwned]
  rfl

/-- Settles O4. -/
theorem writtenRecordsDecode : Obligations.WrittenRecordsDecode := by
  unfold Obligations.WrittenRecordsDecode
  decide

namespace Machine

/-! ## The latch of a record (R144) -/

/-- The latch's effect written out: the signal is 0, so the edge counter stays (R149). -/
theorem latched_eq (d : Dir) (desc : Desc) (s : State) : latched d desc s =
    ((s.withEng d { s.eng.get d with cur := desc, curValid := true, completeSig := false }).withPort
      d { s.port.get d with fields := ⟨none, none, none, none⟩ }).withUsed
      d (s.used.get d ++ [footprint s d (s.ring.get d).currentIndex desc]) := by
  unfold latched
  rw [writeSig_false]
  cases d <;> rfl

/-- Settles O11: the kinds share the latch. -/
theorem recordIsLatched : Obligations.RecordIsLatched := by
  intro i s hst hc hv hvalid
  rw [exec_of_latching hst hc hv, latchStep_of_valid hvalid, latched_eq]

/-! ## The flags word after the latch (R98, R99, R150) -/

section Flags

variable {s : State} {d : Dir} {buf nxt : BitVec 64} {len f f' : BitVec 32}

/-- Without write-back, retiring a slot reads no flag. -/
theorem retire_flags (hn : s.params.writeBack = .none) : retire d ⟨buf, len, f, nxt⟩ s = retire d ⟨buf, len, f', nxt⟩ s := by
  simp only [retire, writeBackFlags, State.withEng_params, markComplete, setActive, State.withRing_params,
    State.withPort_params, State.withMem_params, hn]

/-- Without write-back, leaving `UpdateDescriptor` reads the interrupt bit alone (R147). -/
theorem finish_flags (hn : s.params.writeBack = .none) (hirq : f.getLsbD 0 = f'.getLsbD 0) (k : Nat) (st : EngState) :
    finish d ⟨buf, len, f, nxt⟩ k st s = finish d ⟨buf, len, f', nxt⟩ k st s := by
  have hinterrupt : Desc.interrupt ⟨buf, len, f, nxt⟩ = Desc.interrupt ⟨buf, len, f', nxt⟩ := hirq
  rw [finish, finish, retire_flags hn, hinterrupt]

/-- `advance()` reads the two bits that end a chain (R122). -/
theorem advanceTo_flags (hlast : f.getLsbD 1 = f'.getLsbD 1) (hwrap : f.getLsbD 2 = f'.getLsbD 2) :
    advanceTo s d ⟨buf, len, f, nxt⟩ = advanceTo s d ⟨buf, len, f', nxt⟩ := by
  simp only [advanceTo, Desc.lastInChain, Desc.wrap, hlast, hwrap]
  rfl

/-- A burst is moved without a look at the flags (R146). -/
theorem moveStep_flags : moveStep d ⟨buf, len, f, nxt⟩ s = moveStep d ⟨buf, len, f', nxt⟩ s := by cases d <;> rfl

/-- Past the latch, the shared activation reads the flags in its kind's `UpdateDescriptor` alone (R140). -/
theorem activation_flags {update : Dir → Desc → State → Result}
    (hv : (s.eng.get s.turn).st = .fetchDescriptor → (s.eng.get s.turn).curValid = true)
    (hu : update s.turn ⟨buf, len, f, nxt⟩ s = update s.turn ⟨buf, len, f', nxt⟩ s) :
    activation ⟨buf, len, f, nxt⟩ update s = activation ⟨buf, len, f', nxt⟩ update s := by
  unfold activation
  cases hst : (s.eng.get s.turn).st with
  | idle | complete => rfl
  | fetchDescriptor => simp only [hv hst, if_true, requestStep]
  | moveData => exact moveStep_flags
  | updateDescriptor => exact hu

end Flags

/-- Settles O23: the three flags that are read after the latch are none of the reserved bits and not `hwOwned`. -/
theorem reservedAndOwnedBitsIgnored : Obligations.ReservedAndOwnedBitsIgnored := by
  intro s buf len irq wrap rsv rsv' own own' nxt hn hv
  refine ⟨activation_flags hv ?_, activation_flags hv ?_, activation_flags hv ?_⟩
  · have hadv : advanceTo s s.turn ⟨buf, len, flagsOf irq false false rsv own, nxt⟩ =
        advanceTo s s.turn ⟨buf, len, flagsOf irq false false rsv' own', nxt⟩ :=
      advanceTo_flags (by simp only [flagsOf_lastInChain]) (by simp only [flagsOf_wrap])
    unfold updateXfer
    rw [hadv]
    split
    · rfl
    · exact finish_flags hn (by simp only [flagsOf_interrupt]) _ _
  · exact finish_flags hn (by simp only [flagsOf_interrupt]) _ _
  · exact finish_flags hn (by simp only [flagsOf_interrupt]) _ _

end Machine

end Sys2Proof

/-! Ring and engine control along a step (R123, R125): no step but a reset clears a complete flag, an activation begins on a slot
that is not complete, and `UpdateDescriptor` completes its slot. -/

namespace Sys2Proof.Machine

section Replay

variable {s t : State} {d : Dir} {desc : Desc}

/-! ## The flags of a ring when its current slot completes (R123) -/

theorem slotComplete_congr (h : t.ring.get d = s.ring.get d) (k : Nat) : slotComplete t d k = slotComplete s d k := by
  simp only [slotComplete, h]

theorem completedRing_complete_current (p : Params) (k bytes : Nat) {r : Ring} (h : r.currentIndex < r.complete.length) :
    (completedRing p k bytes r).complete.getD r.currentIndex false = true := by
  simp [completedRing, List.getD_eq_getElem?_getD, h]

theorem completedRing_complete_mono (p : Params) (k bytes : Nat) {r : Ring} {i : Nat}
    (h : r.complete.getD i false = true) : (completedRing p k bytes r).complete.getD i false = true := by
  by_cases hi : i = r.currentIndex
  · subst hi
    refine completedRing_complete_current p k bytes (Nat.lt_of_not_le fun hle => ?_)
    rw [List.getD_eq_default _ _ hle] at h
    cases h
  · rw [completedRing_complete_other p k bytes r hi, h]

/-! ## One step of the engine -/

/-- R123: no step of an engine clears a flag. -/
theorem EngineEffect.slotComplete_mono (h : EngineEffect d desc s t) {k : Nat} (hk : slotComplete s d k = true) :
    slotComplete t d k = true := by
  unfold slotComplete at hk ⊢
  rcases h.ring with hr | ⟨_, _, _, hr⟩ <;> rw [hr]
  · exact hk
  · exact completedRing_complete_mono _ _ _ hk

/-- R143, R145: of all that an engine can do only the accepted request enters `MoveData`, and the slot is not complete then. -/
theorem EngineEffect.begins (h : EngineEffect d desc s t) (hs : (s.eng.get d).st ≠ .moveData)
    (ht : (t.eng.get d).st = .moveData) : currentComplete s d = false := by
  cases h with
  | requests _ hc _ _ _ => exact hc
  | waits h => subst h; exact absurd (by simpa using ht) hs
  | launches _ _ _ _ _ h => subst h; simp at ht
  | ends _ _ h => subst h; simp at ht
  | rests hst h => subst h; split at ht <;> simp [hst] at ht
  | latches hst _ _ _ h => subst h; simp [latched, hst] at ht
  | plays _ _ _ _ hd hst _ _ _ _ => subst hd; exact absurd hst hs
  | captures _ hd hst _ _ _ _ => subst hd; exact absurd hst hs
  | retires _ _ _ _ _ hst' _ h => subst h; rcases hst' with rfl | rfl <;> simp at ht

theorem finish_ring {k : Nat} {st : EngState} (h : finish d desc k st s = .next t) :
    ∃ bytes, t.ring.get d = completedRing s.params k bytes (s.ring.get d) := by
  obtain ⟨u, hu, rfl⟩ := finish_next h
  exact ⟨_, retires_ring hu⟩

/-- Every kind's `UpdateDescriptor` step, where it is not refused, completes the current slot (R147, R152 to R154). -/
theorem kindUpdate_ring {i : Instr} (h : kindUpdate i d desc s = .next t) :
    ∃ k bytes, t.ring.get d = completedRing s.params k bytes (s.ring.get d) := by
  cases i with
  | xfer =>
    simp only [kindUpdate, updateXfer] at h
    split at h
    · cases h
    · exact ⟨_, finish_ring h⟩
  | xferW => exact ⟨_, finish_ring h⟩
  | xferL => exact ⟨_, finish_ring h⟩

theorem engineStep_of_updateDescriptor (hst : (s.eng.get d).st = .updateDescriptor) :
    engineStep d s = kindUpdate (instrOfDesc (s.eng.get d).cur) d (instrOfDesc (s.eng.get d).cur).desc (s.withTurn d) := by
  simp only [engineStep, inHand, hst]
  exact exec_of_updateDescriptor (s := s.withTurn d) hst

/-! ## The engine's part of a transport tick -/

/-- The DMA-error latch writes the sticky bit alone (R306). -/
theorem latchDmaError_ring (d : Dir) (s : State) : (latchDmaError d s).ring = s.ring := by
  unfold latchDmaError
  split <;> rfl

theorem latchDmaError_st (d : Dir) (s : State) : ((latchDmaError d s).eng.get d).st = (s.eng.get d).st := by
  unfold latchDmaError
  split
  · simp [raise]
  · rfl

theorem engineTick_of_noDmaErr (he : (s.eng.get d).dmaErr = false) (h : engineTick d s = .next t) :
    ∃ v, engineStep d s = .next v ∧ t.ring = v.ring ∧ (t.eng.get d).st = (v.eng.get d).st := by
  rcases engineTick_next h with ⟨hd, _⟩ | ⟨_, v, hv, rfl⟩
  · rw [he] at hd; cases hd
  · exact ⟨v, hv, latchDmaError_ring d v, latchDmaError_st d v⟩

theorem engineTick_slotComplete_mono (he : (s.eng.get d).dmaErr = false) (h : engineTick d s = .next t) {k : Nat}
    (hk : slotComplete s d k = true) : slotComplete t d k = true := by
  obtain ⟨v, hv, hring, _⟩ := engineTick_of_noDmaErr he h
  obtain ⟨u, desc, hu, _, hef⟩ := engineStep_effect hv
  rw [slotComplete_congr (s := v) (by rw [hring])]
  rcases hu with rfl | rfl <;> exact hef.slotComplete_mono hk

theorem engineTick_begins (he : (s.eng.get d).dmaErr = false) (h : engineTick d s = .next t)
    (hs : (s.eng.get d).st ≠ .moveData) (ht : (t.eng.get d).st = .moveData) : currentComplete s d = false := by
  obtain ⟨v, hv, _, hst⟩ := engineTick_of_noDmaErr he h
  obtain ⟨u, desc, hu, _, hef⟩ := engineStep_effect hv
  rw [hst] at ht
  rcases hu with rfl | rfl <;> exact hef.begins hs ht

/-- R147: an engine in `UpdateDescriptor` waits for nothing, so its tick completes the slot. -/
theorem engineTick_completes (he : (s.eng.get d).dmaErr = false) (h : engineTick d s = .next t)
    (hst : (s.eng.get d).st = .updateDescriptor) (hi : (s.ring.get d).currentIndex < (s.ring.get d).complete.length) :
    slotComplete t d (s.ring.get d).currentIndex = true := by
  obtain ⟨v, hv, hring, _⟩ := engineTick_of_noDmaErr he h
  rw [engineStep_of_updateDescriptor hst] at hv
  obtain ⟨k, bytes, hr⟩ := kindUpdate_ring hv
  rw [slotComplete, hring, hr]
  exact completedRing_complete_current _ _ _ hi

/-! ## The step of the model -/

/-- The ring and the engine of direction `d` are the same in both states. -/
structure SameEngine (d : Dir) (s t : State) : Prop where
  ring : t.ring.get d = s.ring.get d
  eng : t.eng.get d = s.eng.get d

theorem SameEngine.trans {u : State} (h : SameEngine d s t) (h' : SameEngine d t u) : SameEngine d s u :=
  ⟨h'.ring.trans h.ring, h'.eng.trans h.eng⟩

theorem engineTick_sameEngine_other (h : engineTick d s = .next t) : SameEngine d.other s t :=
  ⟨(engineTick_keepsOthers h).ring, (engineTick_keepsOthers h).eng⟩

/-- To the ring and the engine of one direction a transport tick is that engine's own part of it (R284). -/
theorem transportStep_engine {pb cap : PortIn} (h : transportStep pb cap s = .next t) (d : Dir) :
    ∃ u v, SameEngine d s u ∧ engineTick d u = .next v ∧ SameEngine d v t := by
  obtain ⟨u, v, hu, hv, rfl⟩ := transportStep_next h
  cases d with
  | pb =>
    have hcap : SameEngine .pb u v := engineTick_sameEngine_other hv
    exact ⟨s.withBus ⟨pb, cap⟩, u, ⟨rfl, rfl⟩, hu, ⟨hcap.ring, hcap.eng⟩⟩
  | cap =>
    have hpb : SameEngine .cap (s.withBus ⟨pb, cap⟩) u := engineTick_sameEngine_other hu
    exact ⟨u, v, ⟨hpb.ring, hpb.eng⟩, hv, ⟨rfl, rfl⟩⟩

theorem audioStep_sameEngine {a : AudioIn} (h : audioStep a s = .next t) (d : Dir) : SameEngine d s t := by
  refine ⟨?_, by rw [audioStep_eng h]⟩
  obtain ⟨u, hu, rfl⟩ := audioStep_next h
  show u.ring.get d = s.ring.get d
  rw [(dividerStep_buffers hu).only]
  rfl

theorem takeEvent_sameEngine (s : State) (d : Dir) : SameEngine d s (takeEvent s) := by
  rw [takeEvent_eq]
  exact ⟨rfl, rfl⟩

/-- To the ring and the engine of one direction, a step that is no reset is that engine's part of a transport tick, or nothing. -/
theorem step_engine (h : step s = .next t) (hn : ¬resetTickNext s) (d : Dir) :
    ((¬∃ pb cap, nextEvent s = .transportTick pb cap) ∧ SameEngine d s t) ∨
    ∃ u v, SameEngine d s u ∧ engineTick d u = .next v ∧ SameEngine d v t := by
  have hr (ht : (∃ pb cap, nextEvent s = .transportTick pb cap) ∨ ∃ a, nextEvent s = .audioTick a) :
      resetAsserted s = false := Bool.eq_false_iff.2 fun ha => hn ⟨ha, ht⟩
  by_cases hp : ∃ pb cap, nextEvent s = .transportTick pb cap
  · obtain ⟨pb, cap, he⟩ := hp
    rw [step, he] at h
    obtain ⟨u, v, hu, hv, ht⟩ := transportStep_engine (tick_of_not_reset (hr (.inl ⟨pb, cap, he⟩)) h) d
    exact .inr ⟨u, v, (takeEvent_sameEngine s d).trans hu, hv, ht⟩
  refine .inl ⟨hp, ?_⟩
  by_cases ha : ∃ a, nextEvent s = .audioTick a
  · obtain ⟨a, he⟩ := ha
    rw [step, he] at h
    exact (takeEvent_sameEngine s d).trans (audioStep_sameEngine (tick_of_not_reset (hr (.inr ⟨a, he⟩)) h) d)
  · obtain ⟨heng, hring⟩ := step_between_ticks (fun pb cap he => hp ⟨pb, cap, he⟩) (fun a he => ha ⟨a, he⟩) h
    exact ⟨by rw [hring], by rw [heng]⟩

end Replay

/-- Settles O31: outside a transport tick the ring and the engine stay as they are; in one, each clause is a fact about the
engine's own part. That the slot in hand is not complete is the control invariant's. -/
theorem noStaleReplay : Obligations.NoStaleReplay := by
  intro s t d k hinv h hn herr
  have hc := hinv.2 d herr
  have hfresh (hst : (s.eng.get d).st = .updateDescriptor) : currentComplete s d = false := hc.fresh (hc.inHand (.inr hst))
  rcases step_engine h hn d with ⟨hquiet, hsame⟩ | ⟨u, v, hsu, htick, hvt⟩
  · refine ⟨fun hk => ?_, fun hs ht => ?_, hfresh, fun _ htick => absurd htick hquiet⟩
    · rw [slotComplete_congr hsame.ring, hk]
    · rw [hsame.eng] at ht
      exact absurd ht hs
  · have heu : (u.eng.get d).dmaErr = false := by rw [hsu.eng, herr]
    refine ⟨fun hk => ?_, fun hs ht => ?_, hfresh, fun hst _ => ?_⟩
    · rw [← slotComplete_congr hsu.ring] at hk
      rw [slotComplete_congr hvt.ring]
      exact engineTick_slotComplete_mono heu htick hk
    · rw [← hsu.eng] at hs
      rw [hvt.eng] at ht
      exact (currentComplete_congr hsu.ring).symm.trans (engineTick_begins heu htick hs ht)
    · rw [← hsu.eng] at hst
      rw [slotComplete_congr hvt.ring, ← hsu.ring]
      refine engineTick_completes heu htick hst ?_
      rw [hsu.ring, hc.slots]
      exact hc.index

end Sys2Proof.Machine

/-! The Elastic Buffers under their engines (R182 to R190): what a push, a pop and a tick of the index cells do to the two views,
that both buffers stay good in every step, and that no access of a burst fails. -/

namespace Sys2Proof.Machine

/-! ## Distances of indices (R181) -/

section Distance

variable {m a b : Nat}

theorem modSub_lt (hm : 0 < m) (a b : Nat) : modSub m a b < m := Nat.mod_lt _ hm

theorem modSub_mod_left (m a b : Nat) : modSub m (a % m) b = modSub m a b := by
  rw [modSub, Nat.mod_add_mod, modSub]

/-- A step of the first index away from the second. -/
theorem modSub_succ_left (h : modSub m a b + 1 < m) : modSub m ((a + 1) % m) b = modSub m a b + 1 := by
  rw [modSub_mod_left, modSub, Nat.add_right_comm, ← Nat.mod_add_mod]
  exact Nat.mod_eq_of_lt h

/-- A step of the second index towards the first. -/
theorem modSub_succ_right (hm : 0 < m) (h : 0 < modSub m a b) : modSub m a ((b + 1) % m) = modSub m a b - 1 := by
  unfold modSub at h ⊢
  have hb : b % m < m := Nat.mod_lt _ hm
  rw [Nat.mod_mod, ← Nat.mod_add_mod b m 1]
  generalize b % m = r at h hb ⊢
  have hr : (r + 1) % m = if r + 1 = m then 0 else r + 1 := by
    split
    · next he => rw [he, Nat.mod_self]
    · next he => exact Nat.mod_eq_of_lt (by omega)
  have hdist : (a + (m - (r + 1) % m)) % m = (a + (m - (r + 1))) % m := by
    rw [hr]
    split
    · next he => rw [he, Nat.sub_self, Nat.sub_zero, Nat.add_mod_right, Nat.add_zero]
    · rfl
  rw [hdist, show a + (m - r) = a + (m - (r + 1)) + 1 by omega] at *
  generalize a + (m - (r + 1)) = x at h ⊢
  have hx : (x + 1) % m = if x % m + 1 = m then 0 else x % m + 1 := by
    rw [← Nat.mod_add_mod]
    have := Nat.mod_lt x hm
    split
    · next he => rw [he, Nat.mod_self]
    · next he => exact Nat.mod_eq_of_lt (by omega)
  rw [hx] at h ⊢
  split at h
  · exact absurd h (Nat.lt_irrefl 0)
  · next he => rw [if_neg he, Nat.add_sub_cancel]

end Distance

/-! ## The two views after a push, a pop and a tick of an index cell (R186, R187) -/

section Views

variable {p : Params} {f : Fifo}

/-- The producer sees one frame more after an accepted push. -/
theorem occP_pushed (fr : Frame) (h : occP p f < p.capacity) : occP p (f.pushed p fr) = occP p f + 1 :=
  modSub_succ_left (a := f.wr) (b := f.rdSync.out) (by unfold occP indexModulus at *; omega)

/-- The consumer sees one frame less after an accepted pop. -/
theorem occC_popped (hp : p.ok = true) (h : 0 < occC p f) : occC p (f.popped p) = occC p f - 1 :=
  modSub_succ_right (indexModulus_pos hp) h

/-- The output of a cell is one of its stages, and the last. -/
theorem Sync.out_eq_getLast {c : Sync} (h : c.stages ≠ []) : c.out = c.stages.getLast h := by
  rw [Sync.out, List.getLastD_eq_getLast?, List.getLast?_eq_some_getLast h, Option.getD_some]

theorem Sync.out_mem {c : Sync} (h : c.stages ≠ []) : c.out ∈ c.stages := by
  rw [c.out_eq_getLast h]
  exact List.getLast_mem h

/-- An index with the stages of its cell keeps its order through a tick of the cell, which shifts the index in. -/
theorem pairwise_shiftIn {R : Nat → Nat → Prop} (hrefl : ∀ a, R a a) {v : Nat} {l : List Nat} (h : (v :: l).Pairwise R) :
    (v :: shiftIn v l).Pairwise R := by
  have hd : (v :: l.dropLast).Pairwise R := h.sublist ((List.dropLast_sublist l).cons_cons v)
  refine List.pairwise_cons.2 ⟨fun a ha => ?_, hd⟩
  rcases List.mem_cons.1 ha with rfl | ha
  · exact hrefl a
  · exact (List.pairwise_cons.1 hd).1 a ha

theorem mem_shiftIn {v a : Nat} {l : List Nat} (h : a ∈ shiftIn v l) : a = v ∨ a ∈ l :=
  (List.mem_cons.1 h).imp_right List.mem_of_mem_dropLast

theorem length_shiftIn (v : Nat) {l : List Nat} (h : l ≠ []) : (shiftIn v l).length = l.length := by
  have := List.length_pos_of_ne_nil h
  simp only [shiftIn, List.length_cons, List.length_dropLast]
  omega

theorem stages_ne_nil (hp : p.ok = true) {c : Sync} (h : c.stages.length = p.syncStages) : c.stages ≠ [] := by
  intro hn
  have := Params.ok_syncStages hp
  rw [hn, List.length_nil] at h
  omega

namespace BufferInv

/-- Seen from the push index no pop index lies further back than the one the producer sees. -/
theorem dist_le_occP (hp : p.ok = true) (h : BufferInv p f) {r : Nat} (hr : r ∈ f.rd :: f.rdSync.stages) :
    modSub (indexModulus p) f.wr r ≤ occP p f := by
  have hne := stages_ne_nil hp h.rd_stages
  have hlast := h.rd_older.rel_getLast_of_rel_getLast_getLast hr le_rfl
  rwa [List.getLast_cons hne, ← Sync.out_eq_getLast hne] at hlast

/-- Seen from the pop index no push index lies less far ahead than the one the consumer sees. -/
theorem occC_le_dist (hp : p.ok = true) (h : BufferInv p f) {w : Nat} (hw : w ∈ f.wr :: f.wrSync.stages) :
    occC p f ≤ modSub (indexModulus p) w f.rd := by
  have hne := stages_ne_nil hp h.wr_stages
  have hlast := h.wr_older.rel_getLast_of_rel_getLast_getLast hw le_rfl
  rwa [List.getLast_cons hne, ← Sync.out_eq_getLast hne] at hlast

/-- R182: an accepted push moves the push index one further from every pop index. -/
theorem pushed (hp : p.ok = true) (h : BufferInv p f) (fr : Frame) (hroom : occP p f < p.capacity) :
    BufferInv p (f.pushed p fr) := by
  have hstep (r : Nat) (hr : r ∈ f.rd :: f.rdSync.stages) :
      modSub (indexModulus p) ((f.wr + 1) % indexModulus p) r = modSub (indexModulus p) f.wr r + 1 := by
    have hd := h.dist_le_occP hp hr
    exact modSub_succ_left (by unfold indexModulus at *; omega)
  exact {
    wr_lt := Nat.mod_lt _ (indexModulus_pos hp)
    rd_lt := h.rd_lt
    entries := List.length_set.trans h.entries
    rd_stages := h.rd_stages
    wr_stages := h.wr_stages
    rd_range := h.rd_range
    wr_range := h.wr_range
    rd_older := h.rd_older.imp_of_mem fun {a b} ha hb hab => by
      show modSub _ ((f.wr + 1) % _) a ≤ modSub _ ((f.wr + 1) % _) b
      rw [hstep a ha, hstep b hb]
      exact Nat.succ_le_succ hab
    rd_bound := fun r hr => by
      have hd := h.dist_le_occP hp hr
      show modSub _ ((f.wr + 1) % _) r ≤ _
      rw [hstep r hr]
      omega
    wr_older := by
      obtain ⟨hwr, hrest⟩ := List.pairwise_cons.1 h.wr_older
      refine List.pairwise_cons.2 ⟨fun w hw => (hwr w hw).trans ?_, hrest⟩
      show _ ≤ modSub _ ((f.wr + 1) % _) f.rd
      rw [hstep f.rd (List.mem_cons_self ..)]
      exact Nat.le_succ _ }

/-- R184: an accepted pop moves the pop index one nearer to every push index. -/
theorem popped (hp : p.ok = true) (h : BufferInv p f) (hfilled : 0 < occC p f) : BufferInv p (f.popped p) := by
  have hstep (w : Nat) (hw : w ∈ f.wr :: f.wrSync.stages) :
      modSub (indexModulus p) w ((f.rd + 1) % indexModulus p) = modSub (indexModulus p) w f.rd - 1 :=
    modSub_succ_right (indexModulus_pos hp) (Nat.lt_of_lt_of_le hfilled (h.occC_le_dist hp hw))
  have hwr := hstep f.wr (List.mem_cons_self ..)
  exact {
    wr_lt := h.wr_lt
    rd_lt := Nat.mod_lt _ (indexModulus_pos hp)
    entries := h.entries
    rd_stages := h.rd_stages
    wr_stages := h.wr_stages
    rd_range := h.rd_range
    wr_range := h.wr_range
    rd_older := by
      obtain ⟨hrd, hrest⟩ := List.pairwise_cons.1 h.rd_older
      refine List.pairwise_cons.2 ⟨fun r hr => ?_, hrest⟩
      show modSub _ f.wr ((f.rd + 1) % _) ≤ _
      rw [hwr]
      exact (Nat.sub_le _ _).trans (hrd r hr)
    rd_bound := fun r hr => by
      rcases List.mem_cons.1 hr with rfl | hr
      · show modSub _ f.wr ((f.rd + 1) % _) ≤ _
        rw [hwr]
        exact (Nat.sub_le _ _).trans (h.rd_bound _ (List.mem_cons_self ..))
      · exact h.rd_bound r (List.mem_cons_of_mem _ hr)
    wr_older := h.wr_older.imp_of_mem fun {a b} ha hb hab => by
      show modSub _ b ((f.rd + 1) % _) ≤ modSub _ a ((f.rd + 1) % _)
      rw [hstep a ha, hstep b hb]
      exact Nat.sub_le_sub_right hab 1 }

theorem pushResult (hp : p.ok = true) (h : BufferInv p f) (fr : Frame) : BufferInv p (pushResult p f fr) := by
  unfold Machine.pushResult
  split
  · next hroom => exact h.pushed hp fr hroom
  · exact { h with }

theorem popResult (hp : p.ok = true) (h : BufferInv p f) : BufferInv p (popResult p f) := by
  unfold Machine.popResult
  split
  · next hfilled => exact h.popped hp hfilled
  · exact { h with }

/-- R201, R204: a tick of the cell that carries the pop index to the producer. -/
theorem stepRdSync (hp : p.ok = true) (h : BufferInv p f) : BufferInv p { f with rdSync := f.rdSync.stepWhole f.rd } where
  wr_lt := h.wr_lt
  rd_lt := h.rd_lt
  entries := h.entries
  rd_stages := (length_shiftIn f.rd (stages_ne_nil hp h.rd_stages)).trans h.rd_stages
  wr_stages := h.wr_stages
  rd_range r hr := by
    rcases mem_shiftIn hr with rfl | hr
    · exact h.rd_lt
    · exact h.rd_range r hr
  wr_range := h.wr_range
  rd_older := pairwise_shiftIn (R := fun a b => modSub (indexModulus p) f.wr a ≤ modSub (indexModulus p) f.wr b)
    (fun _ => le_rfl) h.rd_older
  rd_bound r hr := by
    refine h.rd_bound r ?_
    rcases List.mem_cons.1 hr with rfl | hr
    · exact List.mem_cons_self ..
    · exact List.mem_cons.2 (mem_shiftIn hr)
  wr_older := h.wr_older

/-- R201, R204: a tick of the cell that carries the push index to the consumer. -/
theorem stepWrSync (hp : p.ok = true) (h : BufferInv p f) : BufferInv p { f with wrSync := f.wrSync.stepWhole f.wr } where
  wr_lt := h.wr_lt
  rd_lt := h.rd_lt
  entries := h.entries
  rd_stages := h.rd_stages
  wr_stages := (length_shiftIn f.wr (stages_ne_nil hp h.wr_stages)).trans h.wr_stages
  rd_range := h.rd_range
  wr_range w hw := by
    rcases mem_shiftIn hw with rfl | hw
    · exact h.wr_lt
    · exact h.wr_range w hw
  rd_older := h.rd_older
  rd_bound := h.rd_bound
  wr_older := pairwise_shiftIn (R := fun a b => modSub (indexModulus p) b f.rd ≤ modSub (indexModulus p) a f.rd)
    (fun _ => le_rfl) h.wr_older

/-- A tick of the producer's domain shows the producer no more frames than before (R189). -/
theorem occP_stepRdSync_le (hp : p.ok = true) (h : BufferInv p f) :
    occP p { f with rdSync := f.rdSync.stepWhole f.rd } ≤ occP p f := by
  refine h.dist_le_occP hp (List.mem_cons.2 (mem_shiftIn ?_))
  exact Sync.out_mem (c := f.rdSync.stepWhole f.rd) (List.cons_ne_nil _ _)

/-- A tick of the consumer's domain shows the consumer no fewer frames than before (R189). -/
theorem occC_le_stepWrSync (hp : p.ok = true) (h : BufferInv p f) :
    occC p f ≤ occC p { f with wrSync := f.wrSync.stepWhole f.wr } := by
  refine h.occC_le_dist hp (List.mem_cons.2 (mem_shiftIn ?_))
  exact Sync.out_mem (c := f.wrSync.stepWhole f.wr) (List.cons_ne_nil _ _)

end BufferInv

end Views

/-! ## The buffers in every step (R189) -/

section Buffers

variable {s t : State} {d : Dir}

theorem BufferUse.bufferInv {p : Params} {f f' : Fifo} (hp : p.ok = true) (hu : BufferUse p d f f') (h : BufferInv p f) :
    BufferInv p f' := by
  cases hu with
  | untouched => exact h
  | pushes f fr => exact h.pushResult hp fr
  | pops f => exact h.popResult hp

theorem BuffersInv.of_eq (h : BuffersInv s) (hp : t.params = s.params) (hf : t.fifo = s.fifo) : BuffersInv t := by
  unfold BuffersInv
  rw [hp, hf]
  exact h

/-- A tick of an engine is one use of its own buffer. -/
theorem engineTick_buffersInv (hs : BuffersInv s) (h : engineTick d s = .next t) : BuffersInv t := by
  obtain ⟨hp, hpb, hcap⟩ := hs
  have hk := engineTick_keepsOthers h
  have hu := engineTick_bufferUse h
  have hparams : t.params = s.params := hk.params
  have hother := hk.fifo
  unfold BuffersInv
  rw [hparams]
  cases d with
  | pb => exact ⟨hp, hu.bufferInv hp hpb, (show t.fifo.cap = s.fifo.cap from hother) ▸ hcap⟩
  | cap => exact ⟨hp, (show t.fifo.pb = s.fifo.pb from hother) ▸ hpb, hu.bufferInv hp hcap⟩

/-- An audio tick's divider step is at most one pop of the one and one push of the other buffer. -/
theorem dividerStep_buffersInv {inp : LineIn} (hs : BuffersInv s) (h : dividerStep inp s = .next t) : BuffersInv t := by
  obtain ⟨hp, hpb, hcap⟩ := hs
  obtain ⟨honly, hpb', hcap'⟩ := dividerStep_buffers h
  have hparams : t.params = s.params := by rw [honly]
  unfold BuffersInv
  rw [hparams]
  refine ⟨hp, ?_, ?_⟩
  · rcases hpb' with he | he <;> rw [he]
    · exact hpb
    · exact hpb.popResult hp
  · rcases hcap' with he | ⟨fr, he⟩ <;> rw [he]
    · exact hcap
    · exact hcap.pushResult hp fr

theorem freeEntries_length (s : State) (d : Dir) : (freeEntries s d).length = s.params.capacity := by
  simp [freeEntries]

theorem resetCore_buffersInv (hp : s.params.ok = true) : BuffersInv (resetCore s).drawn :=
  ⟨hp, bufferInv_fifoReset hp (freeEntries_length s .pb), bufferInv_fifoReset hp (freeEntries_length s .cap)⟩

theorem ticksKeep_buffersInv : TicksKeep BuffersInv where
  reset _ hs := resetCore_buffersInv hs.1
  bus _ _ hs := hs.of_eq rfl rfl
  engine _ _ _ hs h := engineTick_buffersInv hs h
  transportCells _ hs := ⟨hs.1, hs.2.1.stepRdSync hs.1, hs.2.2.stepWrSync hs.1⟩
  line _ _ hs := hs.of_eq rfl rfl
  divider _ _ _ hs h := dividerStep_buffersInv hs h
  audioCells _ hs := ⟨hs.1, hs.2.1.stepWrSync hs.1, hs.2.2.stepRdSync hs.1⟩

end Buffers

/-! ## The reserve of a burst (R141, R146, R190) -/

section Reserve

variable {s t : State} {d : Dir} {desc : Desc}

/-- The reserve is about the engine's state and count, and about the engine's view of its buffer. -/
theorem ReserveInv.of_eq (h : ReserveInv s d) (hp : t.params = s.params) (hst : (t.eng.get d).st = (s.eng.get d).st)
    (hb : (t.eng.get d).burstCnt = (s.eng.get d).burstCnt) (hroom : roomSeen s d ≤ roomSeen t d)
    (hfail : ownFailures t d = ownFailures s d) : ReserveInv t d where
  fetching hf := by
    rw [hst] at hf
    rw [hp]
    exact (h.fetching hf).trans hroom
  moving hm := by
    rw [hst] at hm
    obtain ⟨hlt, hle⟩ := h.moving hm
    rw [hb, hp]
    exact ⟨hlt, hle.trans (Nat.add_le_add_right hroom _)⟩
  failures := hfail.trans h.failures

theorem roomSeen_congr (hp : t.params = s.params) (hf : t.fifo.get d = s.fifo.get d) : roomSeen t d = roomSeen s d := by
  cases d with
  | pb => simp only [roomSeen, hp, show t.fifo.pb = s.fifo.pb from hf]
  | cap => simp only [roomSeen, hp, show t.fifo.cap = s.fifo.cap from hf]

theorem ownFailures_congr (hf : t.fifo.get d = s.fifo.get d) : ownFailures t d = ownFailures s d := by
  cases d with
  | pb => exact congrArg Fifo.overrunCnt hf
  | cap => exact congrArg Fifo.underrunCnt hf

/-- A step that leaves the buffer as it is, into a state that owes no room. -/
theorem ReserveInv.of_atRest (h : ReserveInv s d) (hf : t.fifo.get d = s.fifo.get d)
    (hfetch : (t.eng.get d).st ≠ .fetchDescriptor) (hmove : (t.eng.get d).st ≠ .moveData) : ReserveInv t d where
  fetching hst := absurd hst hfetch
  moving hst := absurd hst hmove
  failures := (ownFailures_congr hf).trans h.failures

/-- R141: the launch looks at the room that `ReserveInv` keeps. -/
theorem spaceOk_iff_roomSeen (s : State) (d : Dir) : spaceOk s d = true ↔ s.params.burstWords ≤ roomSeen s d := by
  cases d with
  | pb => exact spaceOk_pb s
  | cap => exact spaceOk_cap s

/-- R146: a word of a burst takes one of the places that were seen, and is counted. -/
theorem ReserveInv.of_word (h : ReserveInv s d) (hst : (s.eng.get d).st = .moveData) {done : Bool}
    (hdone : done = false → (s.eng.get d).burstCnt + 1 ≠ s.params.burstWords) (hp : t.params = s.params)
    (hst' : (t.eng.get d).st = if done then .updateDescriptor else .moveData)
    (hb : (t.eng.get d).burstCnt = (s.eng.get d).burstCnt + 1) (hroom : roomSeen s d ≤ roomSeen t d + 1)
    (hfail : ownFailures t d = ownFailures s d) : ReserveInv t d where
  fetching hf := by
    rw [hst'] at hf
    split at hf <;> cases hf
  moving hm := by
    obtain ⟨hlt, hle⟩ := h.moving hst
    have hn : done = false := by
      cases done with
      | false => rfl
      | true => rw [hst', if_pos rfl] at hm; cases hm
    have := hdone hn
    rw [hb, hp]
    omega
  failures := hfail.trans h.failures

/-- A burst under way sees room (R190). -/
theorem ReserveInv.roomSeen_pos (h : ReserveInv s d) (hst : (s.eng.get d).st = .moveData) : 0 < roomSeen s d := by
  obtain ⟨hlt, hle⟩ := h.moving hst
  omega

/-- R182, R190: the push of a playback word is accepted. -/
theorem playedWord_reserveInv (h : ReserveInv s .pb) (hst : s.eng.pb.st = .moveData) (g : Geom) (w : Nat) (last : Bool) :
    ReserveInv (playedWord g w last s) .pb := by
  have hroom : occP s.params s.fifo.pb < s.params.capacity := Nat.lt_of_sub_pos (h.roomSeen_pos hst)
  have hfifo : (playedWord g w last s).fifo.pb = s.fifo.pb.pushed s.params (slice s.params g w) := by
    rw [playedWord_fifo, pushResult_of_room _ hroom]
    rfl
  refine h.of_word (done := playbackDone s last) hst (fun hn => ?_) ?_ ?_ ?_ ?_ ?_
  · simp only [playbackDone, Bool.or_eq_false_iff, beq_eq_false_iff_ne] at hn
    exact hn.2
  · simp [playedWord]
  · simp [playedWord, playbackDone, hst]
  · simp [playedWord]
  · have hparams : (playedWord g w last s).params = s.params := by simp [playedWord]
    simp only [roomSeen, freeSeen, hparams, hfifo, occP_pushed _ hroom]
    omega
  · simp only [ownFailures, hfifo]
    rfl

/-- R184, R190: the pop of a capture word is accepted. -/
theorem capturedWord_reserveInv (hp : s.params.ok = true) (h : ReserveInv s .cap) (hst : s.eng.cap.st = .moveData) (g : Geom) :
    ReserveInv (capturedWord desc g s) .cap := by
  have hfilled : 0 < occC s.params s.fifo.cap := h.roomSeen_pos hst
  have hfifo : (capturedWord desc g s).fifo.cap = s.fifo.cap.popped s.params := by
    rw [capturedWord_fifo, popResult_of_filled hfilled]
    rfl
  refine h.of_word (done := captureDone s) hst (fun hn => ?_) ?_ ?_ ?_ ?_ ?_
  · simp only [captureDone, Bool.or_eq_false_iff, beq_eq_false_iff_ne] at hn
    exact hn.2
  · simp [capturedWord]
  · simp [capturedWord, captureDone, hst]
  · simp [capturedWord]
  · have hparams : (capturedWord desc g s).params = s.params := by simp [capturedWord]
    simp only [roomSeen, filledSeen, hparams, hfifo, occC_popped hp hfilled]
    omega
  · simp only [ownFailures, hfifo]
    rfl

/-- Every effect of an engine keeps its reserve: it is taken at the launch (R142), and only the words of the burst use it up. -/
theorem EngineEffect.reserveInv (he : EngineEffect d desc s t) (hp : s.params.ok = true) (h : ReserveInv s d) :
    ReserveInv t d := by
  cases he with
  | waits h' => subst h'; exact h.of_eq rfl (by simp) (by simp) le_rfl rfl
  | launches _ _ hs _ _ h' =>
    subst h'
    exact {
      fetching := fun _ => (spaceOk_iff_roomSeen s d).1 hs
      moving := fun hm => by simp at hm
      failures := h.failures }
  | ends _ _ h' => subst h'; exact h.of_atRest rfl (by simp) (by simp)
  | rests hst h' => subst h'; split <;> exact h.of_atRest rfl (by simp [hst]) (by simp [hst])
  | latches _ _ _ _ h' => subst h'; exact h.of_eq rfl (by simp [latched]) (by simp [latched]) le_rfl rfl
  | requests hst _ _ _ h' =>
    subst h'
    exact {
      fetching := fun hf => by simp [requested] at hf
      moving := fun _ => by
        have hcnt : ((requested d desc s).eng.get d).burstCnt = 0 := by simp [requested]
        rw [hcnt]
        exact ⟨Params.ok_burstWords hp, h.fetching hst⟩
      failures := h.failures }
  | plays _ last w g hd hst _ _ _ h' => subst hd h'; exact playedWord_reserveInv h hst g w last
  | captures g hd hst _ _ _ h' => subst hd h'; exact capturedWord_reserveInv hp h hst g
  | retires _ _ _ _ _ hst' hu h' =>
    obtain ⟨m, rfl⟩ := retire_eq hu
    subst h'
    rcases hst' with rfl | rfl <;> exact h.of_atRest rfl (by simp) (by simp)

/-- The tick of an engine keeps the reserve of both, where no DMA error was signalled. -/
theorem engineTick_reserveInv (hp : s.params.ok = true) (hs : ∀ d', (s.eng.get d').dmaErr = false → ReserveInv s d')
    (h : engineTick d s = .next t) : ∀ d', (t.eng.get d').dmaErr = false → ReserveInv t d' := by
  have hk := engineTick_keepsOthers h
  refine forall_dir d (fun he => ?_) (fun he => ?_)
  · rcases engineTick_effect h with ⟨hd, rfl⟩ | ⟨hd, u, v, desc, hu, hef, ht⟩
    · rw [unspecifiedStep_dmaErr, hd] at he
      cases he
    · rcases ht with rfl | rfl
      · rcases hu with rfl | rfl
        · exact hef.reserveInv hp (hs d hd)
        · exact hef.reserveInv hp ((hs d hd).of_eq rfl rfl rfl le_rfl rfl)
      · rw [raise_dmaError_dmaErr] at he
        cases he
  · have heng : t.eng.get d.other = s.eng.get d.other := hk.eng
    have hfifo : t.fifo.get d.other = s.fifo.get d.other := hk.fifo
    rw [heng] at he
    exact (hs _ he).of_eq hk.params (by rw [heng]) (by rw [heng]) (roomSeen_congr hk.params hfifo).ge (ownFailures_congr hfifo)

theorem ReservesInv.of_eq (h : ReservesInv s) (hp : t.params = s.params) (he : t.eng = s.eng) (hf : t.fifo = s.fifo) :
    ReservesInv t := by
  refine ⟨h.1.of_eq hp hf, fun d hd => ?_⟩
  rw [he] at hd
  exact (h.2 d hd).of_eq hp (by rw [he]) (by rw [he]) (roomSeen_congr hp (by rw [hf])).ge (ownFailures_congr (by rw [hf]))

/-- The engines' views only get better by a tick of their own domain's cells (R189). -/
theorem stepTransportCells_reserveInv (hs : BuffersInv s) (h : ReserveInv s d) : ReserveInv (stepTransportCells s) d := by
  obtain ⟨hp, hpb, hcap⟩ := hs
  cases d with
  | pb => exact h.of_eq rfl rfl rfl (Nat.sub_le_sub_left (hpb.occP_stepRdSync_le hp) _) rfl
  | cap => exact h.of_eq rfl rfl rfl (hcap.occC_le_stepWrSync hp) rfl

/-- The audio side moves neither what the engines see nor their own failure counters (R42, R186, R187). -/
theorem dividerStep_reserveInv {inp : LineIn} (hdiv : dividerStep inp s = .next t) (h : ReserveInv s d) : ReserveInv t d := by
  obtain ⟨honly, hpb, hcap⟩ := dividerStep_buffers hdiv
  have hp : t.params = s.params := by rw [honly]
  have he : t.eng = s.eng := by rw [honly]
  suffices hview : roomSeen t d = roomSeen s d ∧ ownFailures t d = ownFailures s d from
    h.of_eq hp (by rw [he]) (by rw [he]) hview.1.ge hview.2
  cases d with
  | pb =>
    rcases hpb with hf | hf
    · exact ⟨roomSeen_congr hp hf, ownFailures_congr hf⟩
    · obtain ⟨hwr, _, hsync, _, hcnt⟩ := popResult_farSide s.params s.fifo.pb
      simp only [roomSeen, freeSeen, occP, ownFailures, hp, hf, hwr, hsync, hcnt, and_self]
  | cap =>
    rcases hcap with hf | ⟨fr, hf⟩
    · exact ⟨roomSeen_congr hp hf, ownFailures_congr hf⟩
    · obtain ⟨hrd, _, hsync, hcnt⟩ := pushResult_farSide s.params s.fifo.cap fr
      simp only [roomSeen, filledSeen, occC, ownFailures, hp, hf, hrd, hsync, hcnt, and_self]

/-- The audio domain's cells are not those the engines look through (R203). -/
theorem stepAudioCells_reserveInv (h : ReserveInv s d) : ReserveInv (stepAudioCells s) d := by
  cases d <;> exact h.of_eq rfl rfl rfl le_rfl rfl

theorem drawn_reserveInv (h : ReserveInv s d) : ReserveInv s.drawn d := by
  cases d <;> exact h.of_eq rfl rfl rfl le_rfl rfl

theorem ticksKeep_reservesInv : TicksKeep ReservesInv where
  reset _ hs := ⟨resetCore_buffersInv hs.1.1, fun d _ => by cases d <;> exact reserveInv_of_reset rfl rfl⟩
  bus _ _ hs := hs.of_eq rfl rfl rfl
  engine _ _ _ hs h := ⟨engineTick_buffersInv hs.1 h, engineTick_reserveInv hs.1.1 hs.2 h⟩
  transportCells s hs := ⟨ticksKeep_buffersInv.transportCells s hs.1,
    fun d he => drawn_reserveInv (stepTransportCells_reserveInv hs.1 (hs.2 d he))⟩
  line _ _ hs := hs.of_eq rfl rfl rfl
  divider s t inp hs h := by
    have he : t.eng = s.eng := by rw [(dividerStep_buffers h).only]
    exact ⟨dividerStep_buffersInv hs.1 h, fun d hd => dividerStep_reserveInv h (hs.2 d (by rwa [he] at hd))⟩
  audioCells s hs := ⟨ticksKeep_buffersInv.audioCells s hs.1,
    fun d he => drawn_reserveInv (stepAudioCells_reserveInv (hs.2 d he))⟩

end Reserve

/-- Settles O37: the room taken at the launch lasts for the burst, since nothing but the engine's own words uses it up (R189). -/
theorem burstsNeverFail : Obligations.BurstsNeverFail := fun _ _ hs h =>
  step_keeps (movesKeep_of_quiet fun _ _ hq hs => hs.of_eq hq.params hq.eng hq.fifo) ticksKeep_reservesInv hs h

end Sys2Proof.Machine

/-! The Transfer Engine state by state (R140 to R149, R155, R156): which transition a tick takes in each state, what it writes to
the complete signal, what waits, and what does not look at the enable. -/

namespace Sys2Proof.Machine

section Transitions

variable {s t u : State} {d : Dir} {desc : Desc}

/-! ## The transition that a state of the engine takes (R140) -/

theorem engineStep_of_idle (hst : (s.eng.get d).st = .idle) : engineStep d s = idleStep d s := by
  simp only [engineStep, inHand, restStep, hst]

theorem engineStep_of_complete (hst : (s.eng.get d).st = .complete) : engineStep d s = completeStep d s := by
  simp only [engineStep, inHand, restStep, hst]

theorem engineStep_of_currentComplete (hst : (s.eng.get d).st = .fetchDescriptor) (hc : currentComplete s d = true) :
    engineStep d s = alreadyCompleteStep d s := by
  simp only [engineStep, inHand, restStep, hst, hc, if_true]

theorem engineStep_of_absentRecord (hst : (s.eng.get d).st = .fetchDescriptor) (hc : currentComplete s d = false)
    (hv : (s.eng.get d).curValid = false) (hb : (s.bus.get d).descData = none) : engineStep d s = waitStep d s := by
  simp only [engineStep, inHand, restStep, hst, hc, hv, hb, Bool.false_eq_true, if_false]

/-- An engine has a record in its hands that it latched in an earlier tick. -/
def HoldsRecord (s : State) (d : Dir) : Prop :=
  ((s.eng.get d).st = .fetchDescriptor ∧ currentComplete s d = false ∧ (s.eng.get d).curValid = true) ∨
    (s.eng.get d).st = .moveData ∨ (s.eng.get d).st = .updateDescriptor

theorem inHand_of_holdsRecord (h : HoldsRecord s d) : inHand s d = .instr (instrOfDesc (s.eng.get d).cur) := by
  rcases h with ⟨hst, hc, hv⟩ | hst | hst
  · simp only [inHand, hst, hc, hv, Bool.false_eq_true, if_false, if_true]
  · simp only [inHand, hst]
  · simp only [inHand, hst]

theorem engineStep_of_holdsRecord (h : HoldsRecord s d) :
    engineStep d s = exec (instrOfDesc (s.eng.get d).cur) (s.withTurn d) := by
  simp only [engineStep, inHand_of_holdsRecord h]

theorem engineTick_of_engineStep (he : (s.eng.get d).dmaErr = false) :
    engineTick d s = mapNext (engineStep d s) (latchDmaError d) := by
  simp only [engineTick, he, Bool.false_eq_true, if_false]

/-- An instruction with its record in the latch, on a slot not complete, asks for the burst. -/
theorem exec_of_requesting {i : Instr} (hst : (s.eng.get s.turn).st = .fetchDescriptor)
    (hc : currentComplete s s.turn = false) (hv : (s.eng.get s.turn).curValid = true) :
    exec i s = requestStep s.turn i.desc s := by
  simp [exec_eq, activation, hst, hc, hv]

/-- Settles O27: the record in the latch is the instruction in the engine's hands. -/
theorem tickRunsLatchedInstruction : Obligations.TickRunsLatchedInstruction := by
  refine ⟨fun s pb cap rest hin hr => ?_, fun d s he hst => ⟨?_, instrOfDesc_desc _⟩⟩
  · rw [step_of_transportTick (nextEvent_of_inputs hin) hr]
    simp only [takeEvent, hin]
    rfl
  · rw [engineTick_of_engineStep he, engineStep_of_holdsRecord hst]

/-! ## The launch (R141, R142) -/

theorem idleStep_of_launch (he : s.host.enable.get d = true) (hs : spaceOk s d = true) : idleStep d s =
    if burstDivides s d = false then .refused .burstNotDividing
    else if launchOverlaps s d then .refused .overlappingRegions
    else .next (s.withEng d { s.eng.get d with st := .fetchDescriptor, completeSig := false }) := by
  have hnext : writeSig d false (setState d .fetchDescriptor s) =
      s.withEng d { s.eng.get d with st := .fetchDescriptor, completeSig := false } := by
    rw [writeSig_false]
    cases d <;> rfl
  simp only [idleStep, he, hs, hnext, Bool.and_self, if_true, Bool.not_eq_true']

theorem waitStep_eq (d : Dir) (s : State) : waitStep d s = .next (s.withEng d { s.eng.get d with completeSig := false }) := by
  rw [waitStep, writeSig_false]

theorem idleStep_of_no_launch (h : ¬(s.host.enable.get d = true ∧ spaceOk s d = true)) : idleStep d s = waitStep d s :=
  if_neg (by rwa [Bool.and_eq_true])

/-- Settles O9: the launch condition, and the two preconditions in the order of log 10. (`idleStep` is the transition itself.) -/
theorem idleStepRule : Obligations.IdleStep := by
  intro d s hst room launch overwritten
  have hlaunch : launch ↔ s.host.enable.get d = true ∧ spaceOk s d = true := by
    cases d with
    | pb => exact and_congr_right' (spaceOk_pb s).symm
    | cap => exact and_congr_right' (spaceOk_cap s).symm
  have hover : overwritten ↔ launchOverlaps s d = true := (launchOverlaps_iff s d).symm
  rw [engineStep_of_idle hst, hlaunch, hover, ← burstDivides_iff, ← waitStep_eq]
  refine ⟨fun hl hb ho => ?_, fun hl hb => ?_, fun hl hb ho => ?_, idleStep_of_no_launch⟩
  · simp [idleStep_of_launch hl.1 hl.2, hb, ho]
  · have hb' : burstDivides s d = false := Bool.eq_false_iff.2 (mt (burstDivides_iff s d).1 hb)
    simp [idleStep_of_launch hl.1 hl.2, hb']
  · simp [idleStep_of_launch hl.1 hl.2, hb, ho]

/-! ## The ends of a pass (R143, R148) -/

/-- Settles O10: a complete slot puts nothing in the engine's hands. -/
theorem completeSlotEndsPass : Obligations.CompleteSlotEndsPass := by
  intro d s hst hc
  rw [engineStep_of_currentComplete hst hc, alreadyCompleteStep, writeSig_false]
  cases d <;> rfl

/-- Settles O19. -/
theorem completeStateHolds : Obligations.CompleteStateHolds := by
  intro d s hst
  have hedge : edgeOf (s.eng.get d).completeSig true = if (s.eng.get d).completeSig then 0 else 1 := by
    cases (s.eng.get d).completeSig <;> rfl
  rw [engineStep_of_complete hst, completeStep, writeSig, ← hedge]
  cases s.host.enable.get d with
  | true => cases d <;> simp [State.withEng, State.withUsed, ← hst]
  | false => cases d <;> rfl

/-! ## Waiting (R155) -/

/-- Settles O20: each of the four transitions that await an input is `waitStep` without it. -/
theorem absentInputWaits : Obligations.AbsentInputWaits := by
  intro d s quiet
  have hquiet : waitStep d s = .next quiet := waitStep_eq d s
  rw [← hquiet]
  refine ⟨engineStep_of_absentRecord, ?_, ?_, ?_⟩
  · rintro i rfl hst hc hv ha
    rw [exec_of_requesting hst hc hv]
    simp only [requestStep, ha, Bool.false_eq_true, if_false]
  · rintro i hturn rfl hst hw
    rw [exec_of_moveData (by rw [hturn]; exact hst), hturn]
    simp only [moveStep, movePlayback, show s.bus.pb.rdWord = none from hw]
  · rintro i hturn rfl hst hw
    rw [exec_of_moveData (by rw [hturn]; exact hst), hturn]
    simp only [moveStep, moveCapture, show s.bus.cap.wrReady = false from hw, Bool.false_eq_true, if_false]

/-! ## The complete signal (R149) -/

/-- From `s` to `t` the signal of engine `d` was written with `v`, once. -/
def SignalWritten (d : Dir) (v : Bool) (s t : State) : Prop :=
  (t.eng.get d).completeSig = v ∧
    (t.eng.get d).completeEdges = (s.eng.get d).completeEdges + edgeOf (s.eng.get d).completeSig v

/-- A write of the signal over a state that has the signal and the edge counter of `s`. -/
theorem writeSig_signalWritten {v : Bool} (hs : (u.eng.get d).completeSig = (s.eng.get d).completeSig)
    (he : (u.eng.get d).completeEdges = (s.eng.get d).completeEdges) : SignalWritten d v s (writeSig d v u) := by
  simp [SignalWritten, hs, he]

theorem completeStep_signalWritten (h : completeStep d s = .next t) : SignalWritten d true s t := by
  rw [completeStep_next h]
  split <;> exact writeSig_signalWritten (by simp) (by simp)

theorem finish_signalWritten {k : Nat} {st : EngState} (h : finish d desc k st s = .next t) :
    SignalWritten d desc.interrupt s t := by
  obtain ⟨u, hu, rfl⟩ := finish_next h
  obtain ⟨m, rfl⟩ := retire_eq hu
  exact writeSig_signalWritten (by simp [retired]) (by simp [retired])

/-- R147: the interrupt bit is written whatever the kind. -/
theorem kindUpdate_signalWritten {i : Instr} (h : kindUpdate i d desc s = .next t) : SignalWritten d desc.interrupt s t := by
  cases i with
  | xfer =>
    simp only [kindUpdate, updateXfer] at h
    split at h
    · cases h
    · exact finish_signalWritten h
  | xferW => exact finish_signalWritten h
  | xferL => exact finish_signalWritten h

/-- Every effect outside `Complete` and `UpdateDescriptor` writes 0. -/
theorem EngineEffect.signalWritten (h : EngineEffect d desc s t) (hc : (s.eng.get d).st ≠ .complete)
    (hu : (s.eng.get d).st ≠ .updateDescriptor) : SignalWritten d false s t := by
  cases h with
  | waits h => exact h ▸ writeSig_signalWritten rfl rfl
  | launches _ _ _ _ _ h => exact h ▸ writeSig_signalWritten (by simp) (by simp)
  | ends _ _ h => exact h ▸ writeSig_signalWritten (by simp) (by simp)
  | rests hst _ => exact absurd hst hc
  | latches _ _ _ _ h => exact h ▸ writeSig_signalWritten (by simp) (by simp)
  | requests _ _ _ _ h => exact h ▸ writeSig_signalWritten (by simp) (by simp)
  | plays _ _ _ _ hd _ _ _ _ h => subst hd h; exact writeSig_signalWritten (by simp) (by simp)
  | captures _ hd _ _ _ _ h => subst hd h; exact writeSig_signalWritten (by simp) (by simp)
  | retires _ _ _ hst => exact absurd hst hu

/-- What a tick writes to the signal, by the state that it starts in (R149). -/
def signalOf (e : Eng) : Bool :=
  match e.st with
  | .complete => true
  | .updateDescriptor => e.cur.interrupt
  | _ => false

theorem engineStep_signalWritten (h : engineStep d s = .next t) : SignalWritten d (signalOf (s.eng.get d)) s t := by
  by_cases hc : (s.eng.get d).st = .complete
  · rw [engineStep_of_complete hc] at h
    rw [signalOf, hc]
    exact completeStep_signalWritten h
  by_cases hu : (s.eng.get d).st = .updateDescriptor
  · rw [engineStep_of_updateDescriptor hu, instrOfDesc_desc] at h
    rw [signalOf, hu]
    exact kindUpdate_signalWritten (s := s.withTurn d) h
  · have hsig : signalOf (s.eng.get d) = false := by
      unfold signalOf
      split
      · next hst => exact absurd hst hc
      · next hst => exact absurd hst hu
      · rfl
    rw [hsig]
    obtain ⟨u, desc, hturn, _, hef⟩ := engineStep_effect h
    rcases hturn with rfl | rfl <;> exact hef.signalWritten hc hu

theorem latchDmaError_signal (d : Dir) (s : State) :
    ((latchDmaError d s).eng.get d).completeSig = (s.eng.get d).completeSig ∧
      ((latchDmaError d s).eng.get d).completeEdges = (s.eng.get d).completeEdges := by
  unfold latchDmaError
  split
  · simp [raise]
  · exact ⟨rfl, rfl⟩

/-- Settles O21: the tick's one write of the signal, which the DMA-error latch leaves alone. -/
theorem completeSignalEveryTick : Obligations.CompleteSignalEveryTick := by
  intro d s t he h
  rcases engineTick_next h with ⟨hd, _⟩ | ⟨_, v, hv, rfl⟩
  · rw [he] at hd; cases hd
  obtain ⟨hsig, hedges⟩ := engineStep_signalWritten hv
  obtain ⟨hsame, hsame'⟩ := latchDmaError_signal d v
  rw [hsame, hsame', hsig, hedges]
  exact ⟨rfl, by simp [edgeOf]⟩

/-! ## A reset in flight (R343) -/

/-- Settles O56: an engine in either state has a request outstanding. -/
theorem resetInFlightRefused : Obligations.ResetInFlightRefused := by
  intro s d hr he hst
  have hout : requestOutstanding s d = true := by
    rcases hst with ⟨hst, hc⟩ | hst
    · simp only [requestOutstanding, he, hst, hc, Bool.false_eq_true, if_false, Bool.not_false]
    · simp only [requestOutstanding, he, hst, Bool.false_eq_true, if_false]
  have hany : (requestOutstanding s .pb || requestOutstanding s .cap) = true := by
    cases d <;> simp only [hout, Bool.true_or, Bool.or_true]
  rw [step_of_resetTickNext hr, resetStep, requestOutstanding_takeEvent, requestOutstanding_takeEvent]
  exact if_pos hany

end Transitions

end Sys2Proof.Machine

/-! What the latch of a record reads (R64, R67, R121, R357), and that an instruction in flight does not read the enable of its
direction (R156). -/

namespace Sys2Proof.Machine

/-! ## What the latch reads -/

section LatchReads

variable {s t : State} {d : Dir} {desc : Desc}

/-- `s` and `t` agree on all that the checks of the latch read, but for who is in play. -/
structure SameForLatch (s t : State) : Prop where
  params : t.params = s.params
  ring : t.ring = s.ring
  eng : t.eng = s.eng
  mem : t.mem = s.mem
  used : t.used = s.used
  hostRing : t.host.ring = s.host.ring

theorem SameForLatch.slotAddress (h : SameForLatch s t) (d : Dir) (i : Nat) : slotAddress t d i = slotAddress s d i := by
  simp only [Machine.slotAddress, ringBase, h.hostRing]

theorem SameForLatch.ringCount (h : SameForLatch s t) (d : Dir) : ringCount t d = ringCount s d := by
  simp only [Machine.ringCount, h.hostRing]

theorem SameForLatch.recordInHand (h : SameForLatch s t) (d : Dir) (i : Nat) : recordInHand t d i = recordInHand s d i := by
  simp only [Machine.recordInHand, recordAt, h.slotAddress, h.ring, h.eng, h.mem]

theorem SameForLatch.nextSlot (h : SameForLatch s t) (d : Dir) (desc : Desc) : nextSlot t d desc = nextSlot s d desc := by
  simp only [Machine.nextSlot, ringBase, Machine.ringCount, h.hostRing]

theorem SameForLatch.successor (h : SameForLatch s t) (d : Dir) (desc : Desc) : successor t d desc = successor s d desc := by
  simp only [Machine.successor, h.nextSlot]

theorem SameForLatch.footprint (h : SameForLatch s t) (d : Dir) (i : Nat) (desc : Desc) :
    footprint t d i desc = footprint s d i desc := by
  cases d <;> simp only [Machine.footprint, recordRegion, writeBackRegions, flagsRegion, h.slotAddress, h.params]

theorem SameForLatch.chainFrom (h : SameForLatch s t) (d : Dir) (fuel : Nat) (seen : List Nat) (i : Option Nat) :
    chainFrom t d fuel seen i = chainFrom s d fuel seen i := by
  induction fuel generalizing seen i with
  | zero => rfl
  | succ fuel ih =>
    cases i with
    | none => rfl
    | some i =>
      have hcomplete : slotComplete t d i = slotComplete s d i := by simp only [slotComplete, h.ring]
      rw [Machine.chainFrom, Machine.chainFrom, hcomplete, h.recordInHand, h.successor, ih]

theorem SameForLatch.slotFootprints (h : SameForLatch s t) (d : Dir) (ks : List Nat) :
    slotFootprints t d ks = slotFootprints s d ks := by
  simp only [Machine.slotFootprints, h.recordInHand, h.footprint]

theorem SameForLatch.passFootprints (h : SameForLatch s t) (hp : inPlay t d = inPlay s d) :
    passFootprints t d = passFootprints s d := by
  simp only [Machine.passFootprints, slotsFrom, chainFuel, hp, h.used, h.ring, h.params, h.ringCount, h.chainFrom, h.slotFootprints]

theorem SameForLatch.overlaps (h : SameForLatch s t) (hp : inPlay t d.other = inPlay s d.other) :
    overlaps t d desc = overlaps s d desc := by
  have hself (i : Nat) : selfClash t d i desc = selfClash s d i desc := by
    cases d <;> simp only [selfClash, writeBackRegions, flagsRegion, recordRegion, h.slotAddress, h.params]
  simp only [Machine.overlaps, otherFootprints, slotsAfter, chainFuel, hself, h.used, h.ring, h.params, h.ringCount, h.chainFrom,
    h.slotFootprints, h.successor, h.footprint, h.passFootprints hp]

/-- The latch refuses the same records in states that agree on what it reads. -/
theorem SameForLatch.latchRefusal (h : SameForLatch s t) (hp : inPlay t d.other = inPlay s d.other) :
    latchRefusal t d desc = latchRefusal s d desc := by
  have haligned : alignedOk t d desc = alignedOk s d desc := by
    simp only [alignedOk, baseAligned, ringBase, h.params, h.hostRing]
  have hranges : rangesOk t d desc = rangesOk s d desc := by
    simp only [rangesOk, countOk, ringFits, successorOk, ringBase, h.ringCount, h.nextSlot, h.params, h.hostRing]
  have hdevice : inDevice t d desc = inDevice s d desc := by
    simp only [inDevice, ringRegion, ringBase, h.ringCount, h.params, h.hostRing]
  simp only [Machine.latchRefusal, haligned, hranges, hdevice, h.overlaps hp]

end LatchReads

/-! ## The enable in flight (R156) -/

section Enable

variable {s : State} {d : Dir} {desc : Desc} {v : Bool}

/-- The latch reads the enable of the other direction alone (R357). -/
theorem latchRefusal_setEnable : latchRefusal (setEnable d v s) d desc = latchRefusal s d desc :=
  SameForLatch.latchRefusal ⟨rfl, rfl, rfl, rfl, rfl, rfl⟩ (by simp [inPlay, setEnable])

theorem latchStep_setEnable : latchStep d desc (setEnable d v s) = mapNext (latchStep d desc s) (setEnable d v) := by
  cases h : latchRefusal s d desc with
  | some r => rw [latchStep_of_refusal h, latchStep_of_refusal (latchRefusal_setEnable.trans h)]; rfl
  | none => rw [latchStep_of_valid h, latchStep_of_valid (latchRefusal_setEnable.trans h)]; rfl

theorem requestStep_setEnable : requestStep d desc (setEnable d v s) = mapNext (requestStep d desc s) (setEnable d v) := by
  cases h : (s.bus.get d).reqAccept <;> simp only [requestStep, setEnable, State.withHost_bus, h] <;> rfl

theorem pushFrame_setEnable (fr : Frame) : pushFrame .pb fr (setEnable d v s) = setEnable d v (pushFrame .pb fr s) := by
  dsimp only [pushFrame, setEnable, State.withHost]
  split <;> rfl

theorem popFrame_setEnable : (popFrame .cap (setEnable d v s)).2 = setEnable d v (popFrame .cap s).2 := by
  dsimp only [popFrame, setEnable, State.withHost]
  split <;> rfl

theorem playedWord_setEnable (g : Geom) (w : Nat) (last : Bool) :
    playedWord g w last (setEnable d v s) = setEnable d v (playedWord g w last s) := by
  have hslice : slice (setEnable d v s).params g w = slice s.params g w := rfl
  rw [playedWord, hslice, pushFrame_setEnable]
  rfl

theorem capturedWord_setEnable (g : Geom) :
    capturedWord desc g (setEnable d v s) = setEnable d v (capturedWord desc g s) := by
  have hframe : capturedFrame (setEnable d v s) = capturedFrame s := by
    rw [capturedFrame, capturedFrame, popFrame_fst, popFrame_fst]
    rfl
  have hwrite : capturedWrite desc g (setEnable d v s) = capturedWrite desc g s := by
    rw [capturedWrite, capturedWrite, hframe]
    rfl
  rw [capturedWord, hwrite, popFrame_setEnable]
  rfl

theorem movePlayback_setEnable : movePlayback desc (setEnable d v s) = mapNext (movePlayback desc s) (setEnable d v) := by
  have hbus : (setEnable d v s).bus = s.bus := rfl
  have hword (src : Source Nat) : playbackWord desc src (setEnable d v s) = playbackWord desc src s := rfl
  have hgeom : transportGeometry (setEnable d v s) = transportGeometry s := rfl
  have hplayed (g : Geom) (w : Nat) (last : Bool) := playedWord_setEnable (s := s) (d := d) (v := v) g w last
  unfold playedWord at hplayed
  simp only [movePlayback, hbus, hword, hgeom]
  split
  · rfl
  · split
    · rfl
    · split
      · rfl
      · exact congrArg Host.Outcome.next (hplayed ..)

theorem moveCapture_setEnable : moveCapture desc (setEnable d v s) = mapNext (moveCapture desc s) (setEnable d v) := by
  have hbus : (setEnable d v s).bus = s.bus := rfl
  have hgeom : transportGeometry (setEnable d v s) = transportGeometry s := rfl
  have hspace : inSpace (wordAddress (setEnable d v s).params desc (setEnable d v s).eng.cap.burstCnt)
      (setEnable d v s).params.wordBytes = inSpace (wordAddress s.params desc s.eng.cap.burstCnt) s.params.wordBytes := rfl
  simp only [moveCapture, hbus, hgeom, hspace]
  split
  · split
    · rfl
    · split
      · exact congrArg Host.Outcome.next (capturedWord_setEnable ..)
      · rfl
  · rfl

theorem writeBackFlags_setEnable (f : BitVec 32) :
    writeBackFlags d f (setEnable d v s) = (writeBackFlags d f s).map (setEnable d v) := by
  have hparams : (setEnable d v s).params = s.params := rfl
  have hwrite (val : Nat) : memWrite (setEnable d v s).mem (fetchAddress (setEnable d v s) d + flagsOffset) 4 val =
    memWrite s.mem (fetchAddress s d + flagsOffset) 4 val := rfl
  simp only [writeBackFlags, hparams, hwrite]
  split
  · rfl
  · rw [Option.map_map]
    rfl

/-- The shared part of R147 as its two memory accesses, each of which may lie outside the address space. -/
theorem retire_eq_bind : retire d desc s =
    (performAll s.mem (s.port.get d).pending).bind fun m => writeBackFlags d desc.flags (retired d m s) := by
  unfold retire
  cases performAll s.mem (s.port.get d).pending <;> rfl

theorem retire_setEnable : retire d desc (setEnable d v s) = (retire d desc s).map (setEnable d v) := by
  have hmem : performAll (setEnable d v s).mem ((setEnable d v s).port.get d).pending =
    performAll s.mem (s.port.get d).pending := rfl
  have hretired (m : Memory) : retired d m (setEnable d v s) = setEnable d v (retired d m s) := rfl
  rw [retire_eq_bind, retire_eq_bind, hmem, Option.map_bind]
  simp only [hretired, writeBackFlags_setEnable, Function.comp_def]

theorem finish_setEnable {k : Nat} {st : EngState} :
    finish d desc k st (setEnable d v s) = mapNext (finish d desc k st s) (setEnable d v) := by
  rw [finish, finish, retire_setEnable]
  cases retire d desc s <;> rfl

theorem kindUpdate_setEnable {i : Instr} :
    kindUpdate i d desc (setEnable d v s) = mapNext (kindUpdate i d desc s) (setEnable d v) := by
  cases i with
  | xfer =>
    have hadv : advanceTo (setEnable d v s) d desc = advanceTo s d desc := rfl
    simp only [kindUpdate, updateXfer, hadv]
    cases advanceTo s d desc with
    | none => rfl
    | some k => exact finish_setEnable
  | xferW => exact finish_setEnable
  | xferL => exact finish_setEnable

end Enable

/-- On a slot that is already complete an instruction of any kind takes the step of R143. -/
theorem exec_of_currentComplete {i : Instr} {s : State} (hst : (s.eng.get s.turn).st = .fetchDescriptor)
    (hc : currentComplete s s.turn = true) : exec i s = alreadyCompleteStep s.turn s := by
  simp [exec_eq, activation, hst, hc]

/-- Settles O22: none of the transitions in flight reads the enable of its own direction. -/
theorem enableIgnoredInFlight : Obligations.EnableIgnoredInFlight := by
  intro i s v hst
  rcases hst with hst | hst | hst
  · cases hc : currentComplete s s.turn with
    | true => rw [exec_of_currentComplete hst hc, exec_of_currentComplete (s := setEnable s.turn v s) hst hc]; rfl
    | false =>
      cases hv : (s.eng.get s.turn).curValid with
      | true =>
        rw [exec_of_requesting hst hc hv, exec_of_requesting (s := setEnable s.turn v s) hst hc hv]
        exact requestStep_setEnable
      | false =>
        rw [exec_of_latching hst hc hv, exec_of_latching (s := setEnable s.turn v s) hst hc hv]
        exact latchStep_setEnable
  · rw [exec_of_moveData hst, exec_of_moveData (s := setEnable s.turn v s) hst]
    show moveStep s.turn i.desc (setEnable s.turn v s) = _
    cases s.turn with
    | pb => exact movePlayback_setEnable
    | cap => exact moveCapture_setEnable
  · rw [exec_of_updateDescriptor hst, exec_of_updateDescriptor (s := setEnable s.turn v s) hst]
    exact kindUpdate_setEnable

end Sys2Proof.Machine

/-! Slicing and packing (R151): the two layouts bit by bit, their round trips, and the refusal of a frame wider than a word. -/

namespace Sys2Proof.Machine

section Layout

variable {p : Params} {g : Geom} {f : Frame} {w c k : Nat}

/-! ## Slicing -/

theorem slice_length (p : Params) (g : Geom) (w : Nat) : (slice p g w).length = p.maxC := by simp [slice]

theorem slice_getD (hc : c < p.maxC) : (slice p g w).getD c 0 = if c < g.channels then sliceWord g w c else 0 := by
  simp [slice, List.getD_eq_getElem?_getD, hc]

theorem sliceWord_testBit : (sliceWord g w c).testBit k = (decide (k < g.width) && w.testBit (c * g.width + k)) := by
  rw [sliceWord, Nat.testBit_mod_two_pow, Nat.testBit_shiftRight]

theorem slice_testBit (hc : c < p.maxC) : ((slice p g w).getD c 0).testBit k =
    (decide (c < g.channels ∧ k < g.width) && w.testBit (c * g.width + k)) := by
  rw [slice_getD hc]
  split
  · next h => simp only [sliceWord_testBit, h, true_and]
  · next h => simp only [h, false_and, decide_false, Bool.false_and, Nat.zero_testBit]

/-! ## Packing -/

theorem packFrom_succ (g : Geom) (f : Frame) (n c : Nat) :
    packFrom g f (n + 1) c = 2 ^ g.width * packFrom g f n (c + 1) + f.getD c 0 % 2 ^ g.width := Nat.add_comm ..

theorem packFrom_lt (g : Geom) (f : Frame) (n c : Nat) : packFrom g f n c < 2 ^ (n * g.width) := by
  induction n generalizing c with
  | zero => simp [packFrom]
  | succ n ih =>
    have hlow : f.getD c 0 % 2 ^ g.width < 2 ^ g.width := Nat.mod_lt _ (Nat.two_pow_pos _)
    calc packFrom g f (n + 1) c
      _ < 2 ^ g.width * (packFrom g f n (c + 1) + 1) := by rw [packFrom_succ, Nat.mul_add, Nat.mul_one]; omega
      _ ≤ 2 ^ g.width * 2 ^ (n * g.width) := Nat.mul_le_mul_left _ (ih (c + 1))
      _ = 2 ^ ((n + 1) * g.width) := by rw [← Nat.pow_add, Nat.succ_mul, Nat.add_comm]

/-- Bit `k` of the channel that is packed `j` places after the lowest. -/
theorem packFrom_testBit {n j : Nat} (hj : j < n) (hk : k < g.width) (c : Nat) :
    (packFrom g f n c).testBit (j * g.width + k) = (f.getD (c + j) 0).testBit k := by
  induction n generalizing c j with
  | zero => exact absurd hj (Nat.not_lt_zero j)
  | succ n ih =>
    rw [packFrom_succ, Nat.testBit_two_pow_mul_add _ (Nat.mod_lt _ (Nat.two_pow_pos _))]
    cases j with
    | zero => simp [hk, Nat.testBit_mod_two_pow]
    | succ j =>
      have hpos : ¬(j + 1) * g.width + k < g.width := by rw [Nat.succ_mul]; omega
      have hsub : (j + 1) * g.width + k - g.width = j * g.width + k := by rw [Nat.succ_mul]; omega
      rw [if_neg hpos, hsub, ih (Nat.lt_of_succ_lt_succ hj), Nat.add_right_comm, Nat.add_assoc]

theorem pack_testBit (hc : c < g.channels) (hk : k < g.width) :
    (pack g f).testBit (c * g.width + k) = (f.getD c 0).testBit k := by
  rw [pack, packFrom_testBit hc hk, Nat.zero_add]

theorem pack_lt (g : Geom) (f : Frame) : pack g f < 2 ^ (g.channels * g.width) := packFrom_lt ..

/-! ## The round trips -/

/-- Packing what was sliced clears the bits above the frame: a bit below is bit `i % W` of channel `i / W`. -/
theorem pack_slice (hg : g.channels ≤ p.maxC) (w : Nat) : pack g (slice p g w) = w % 2 ^ (g.channels * g.width) := by
  refine Nat.eq_of_testBit_eq fun i => ?_
  rw [Nat.testBit_mod_two_pow]
  by_cases hi : i < g.channels * g.width
  · have hw : 0 < g.width := Nat.pos_of_ne_zero fun h0 => by rw [h0, Nat.mul_zero] at hi; exact Nat.not_lt_zero i hi
    have hc : i / g.width < g.channels := Nat.div_lt_of_lt_mul (by rwa [Nat.mul_comm])
    have hk : i % g.width < g.width := Nat.mod_lt _ hw
    have hsplit : i / g.width * g.width + i % g.width = i := Nat.div_add_mod' ..
    have hpack := pack_testBit (f := slice p g w) hc hk
    rw [slice_testBit (Nat.lt_of_lt_of_le hc hg), hsplit] at hpack
    rw [hpack, decide_eq_true ⟨hc, hk⟩, decide_eq_true hi]
  · have hbig := Nat.pow_le_pow_right Nat.two_pos (Nat.le_of_not_lt hi)
    rw [Nat.testBit_lt_two_pow (Nat.lt_of_lt_of_le (pack_lt g _) hbig), decide_eq_false hi, Bool.false_and]

theorem sliceWord_pack (hc : c < g.channels) (hf : f.getD c 0 < 2 ^ g.width) : sliceWord g (pack g f) c = f.getD c 0 := by
  refine Nat.eq_of_testBit_eq fun k => ?_
  rw [sliceWord_testBit]
  by_cases hk : k < g.width
  · rw [decide_eq_true hk, Bool.true_and, pack_testBit hc hk]
  · have hbig := Nat.pow_le_pow_right Nat.two_pos (Nat.le_of_not_lt hk)
    rw [decide_eq_false hk, Bool.false_and, Nat.testBit_lt_two_pow (Nat.lt_of_lt_of_le hf hbig)]

theorem slice_pack (hlen : f.length = p.maxC) (hwidth : ∀ c, c < g.channels → f.getD c 0 < 2 ^ g.width)
    (hzero : ∀ c, g.channels ≤ c → f.getD c 0 = 0) : slice p g (pack g f) = f := by
  refine List.ext_getElem ((slice_length ..).trans hlen.symm) fun c hc hc' => ?_
  have hmax : c < p.maxC := by rwa [← hlen]
  rw [← List.getD_eq_getElem _ 0 hc, ← List.getD_eq_getElem _ 0 hc', slice_getD hmax]
  split
  · next h => exact sliceWord_pack h (hwidth c h)
  · next h => exact (hzero c (Nat.le_of_not_lt h)).symm

end Layout

/-! ## A frame wider than a transport word -/

section Wide

variable {s : State} {desc : Desc} {r : Refusal}

theorem transportGeometry_of_wide {f : Format} (hf : legalFormat s.host.cfg.format.toNat s.host.cfg.dsdMode.toNat = some f)
    (hwide : 8 * s.params.wordBytes <
      (geometry s.params f s.host.cfg.dsdMode.toNat).channels * (geometry s.params f s.host.cfg.dsdMode.toNat).width) :
    transportGeometry s = .error .frameWiderThanWord := by
  simp only [transportGeometry, hf, Nat.not_le_of_lt hwide, if_false]

/-- Under a geometry that is refused no playback word is moved. -/
theorem movePlayback_of_refused {src : Source Nat} {last : Bool} {w : Nat} (hg : transportGeometry s = .error r)
    (hb : s.bus.pb.rdWord = some (src, last)) (hw : playbackWord desc src s = some w) : movePlayback desc s = .refused r := by
  simp only [movePlayback, hb, hw, hg]

/-- Nor is a capture word. -/
theorem moveCapture_of_refused (hg : transportGeometry s = .error r) (hb : s.bus.cap.wrReady = true) :
    moveCapture desc s = .refused r := by
  simp only [moveCapture, hb, hg, if_true]

end Wide

/-- Settles O41. -/
theorem sliceAndPack : Obligations.SliceAndPack := by
  refine ⟨fun p g w c k _ hc => slice_testBit hc, fun g f c k hc hk => pack_testBit hc hk, pack_lt,
    fun p g w hg => pack_slice hg w, fun p g f _ hlen hwidth hzero => slice_pack hlen hwidth hzero,
    fun s f hf hwide => transportGeometry_of_wide hf hwide, fun i s last hg => ⟨fun ht hst hb ha => ?_, fun ht hst hb => ?_⟩⟩
  · obtain ⟨w, hw, _⟩ := playbackWord_memory (desc := i.desc) ha
    rw [exec_of_moveData (by rw [ht]; exact hst), ht]
    exact movePlayback_of_refused hg hb hw
  · rw [exec_of_moveData (by rw [ht]; exact hst), ht]
    exact moveCapture_of_refused hg hb

end Sys2Proof.Machine

/-! A whole activation (R144 to R147, R152 to R154): against a transport that presents everything at once, one tick latches the
record, one requests the burst, one moves each word, and one completes the slot. The ticks of the latch, of the request and of the
completion are argued once for both directions; what a word does is the direction's own. -/

namespace Sys2Proof.Machine

/-! ## A burst's buffer, writes and memory, word by word -/

section Burst

variable {p : Params} {f : Fifo} {g : Geom}

theorem pushAll_append_singleton (p : Params) (f : Fifo) (frames : List Frame) (fr : Frame) :
    pushAll p f (frames ++ [fr]) = (pushAll p f frames).pushed p fr := by
  simp only [pushAll, List.foldl_append, List.foldl_cons, List.foldl_nil]

theorem occP_pushAll (frames : List Frame) (h : occP p f + frames.length ≤ p.capacity) :
    occP p (pushAll p f frames) = occP p f + frames.length := by
  induction frames generalizing f with
  | nil => rfl
  | cons fr rest ih =>
    rw [List.length_cons] at h
    have hfirst : occP p (f.pushed p fr) = occP p f + 1 := occP_pushed fr (by omega)
    have hrest := ih (f := f.pushed p fr) (by omega)
    rw [List.length_cons, show pushAll p f (fr :: rest) = pushAll p (f.pushed p fr) rest from rfl, hrest]
    omega

theorem popMany_succ (p : Params) (k : Nat) (f : Fifo) : popMany p (k + 1) f = (popMany p k f).popped p := by
  induction k generalizing f with
  | zero => rfl
  | succ k ih => exact ih (f.popped p)

theorem occC_popMany (hp : p.ok = true) {k : Nat} (h : k ≤ occC p f) : occC p (popMany p k f) = occC p f - k := by
  induction k with
  | zero => rfl
  | succ k ih =>
    have hk := ih (by omega)
    rw [popMany_succ, occC_popped hp (by omega), hk]
    omega

/-- One more frame is written behind the others. -/
theorem writeFrames_succ (p : Params) (g : Geom) (k a : Nat) (f : Fifo) (m : Memory) :
    writeFrames p g (k + 1) a f m =
      setBytes (writeFrames p g k a f m) (a + k * p.wordBytes) (bytesOfNat p.wordBytes (pack g ((popMany p k f).front p))) := by
  induction k generalizing a f m with
  | zero => simp [writeFrames, popMany]
  | succ k ih =>
    have hrest := ih (a + p.wordBytes) (f.popped p) (setBytes m a (bytesOfNat p.wordBytes (pack g (f.front p))))
    have haddr : a + p.wordBytes + k * p.wordBytes = a + (k + 1) * p.wordBytes := by rw [Nat.succ_mul]; omega
    rw [haddr] at hrest
    exact hrest

theorem performAll_append (m : Memory) (ws ws' : List PendingWrite) :
    performAll m (ws ++ ws') = (performAll m ws).bind fun m' => performAll m' ws' := by
  induction ws generalizing m with
  | nil => rfl
  | cons w rest ih =>
    simp only [List.cons_append, performAll]
    cases memWrite m w.addr w.size w.value with
    | none => rfl
    | some m' => exact ih m'

/-- The write that hands over the frame which a buffer holds behind `j` others, as word `j` of a burst of `n` (R146). -/
def frameWrite (p : Params) (g : Geom) (desc : Desc) (f : Fifo) (n j : Nat) : PendingWrite :=
  ⟨wordAddress p desc j, p.wordBytes, pack g ((popMany p j f).front p), decide (j + 1 = n)⟩

/-- The writes of the first `k` words of a capture burst are the writes of the `k` oldest frames. -/
theorem performAll_frameWrites {desc : Desc} {n k : Nat} (m : Memory)
    (ha : desc.bufferAddress.toNat + k * p.wordBytes ≤ 2 ^ 64) :
    performAll m ((List.range k).map (frameWrite p g desc f n)) =
      some (writeFrames p g k desc.bufferAddress.toNat f m) := by
  induction k with
  | zero => rfl
  | succ k ih =>
    rw [Nat.succ_mul] at ha
    have hspace : inSpace (desc.bufferAddress.toNat + k * p.wordBytes) p.wordBytes = true := (inSpace_iff ..).2 (by omega)
    rw [List.range_succ, List.map_append, performAll_append, ih (by omega), Option.bind_some, writeFrames_succ]
    simp only [List.map_cons, List.map_nil, performAll, frameWrite, wordAddress, memWrite, hspace, if_true]

end Burst

/-! ## One tick against an eager transport -/

section Eager

variable {s t u : State} {d : Dir} {i : Instr}

/-- The eager transport presents its inputs to engine `d`. -/
def presented (d : Dir) (s : State) : State := s.withBus (s.bus.set d (eagerPort s d))

/-- That state in engine `d`'s turn: the one in which its instruction is executed. -/
def offered (d : Dir) (s : State) : State := (presented d s).withTurn d

@[simp] theorem offered_params : (offered d s).params = s.params := rfl
@[simp] theorem offered_mem : (offered d s).mem = s.mem := rfl
@[simp] theorem offered_ring : (offered d s).ring = s.ring := rfl
@[simp] theorem offered_eng : (offered d s).eng = s.eng := rfl
@[simp] theorem offered_port : (offered d s).port = s.port := rfl
@[simp] theorem offered_fifo : (offered d s).fifo = s.fifo := rfl
@[simp] theorem offered_turn : (offered d s).turn = d := rfl
@[simp] theorem offered_bus : (offered d s).bus.get d = eagerPort s d := by simp [offered, presented]

/-- What a run of engine `d` leaves as it was. -/
structure Elsewhere (d : Dir) (s t : State) : Prop where
  params : t.params = s.params
  host : t.host = s.host
  ring : t.ring.get d.other = s.ring.get d.other
  eng : t.eng.get d.other = s.eng.get d.other
  fifo : t.fifo.get d.other = s.fifo.get d.other
  afp : t.afp = s.afp

theorem Elsewhere.trans (h : Elsewhere d s t) (h' : Elsewhere d t u) : Elsewhere d s u :=
  ⟨h'.params.trans h.params, h'.host.trans h.host, h'.ring.trans h.ring, h'.eng.trans h.eng, h'.fifo.trans h.fifo,
    h'.afp.trans h.afp⟩

theorem engineTick_elsewhere (h : engineTick d (presented d s) = .next t) : Elsewhere d s t :=
  have hk := engineTick_keepsOthers h
  ⟨hk.params, hk.host, hk.ring, hk.eng, hk.fifo, hk.afp⟩

/-- An eager transport signals no DMA error, so a tick in which an instruction is executed is that instruction. -/
theorem engineTick_of_exec
    (htick : engineTick d (presented d s) = mapNext (exec i (offered d s)) (latchDmaError d))
    (h : exec i (offered d s) = .next t) : engineTick d (presented d s) = .next t := by
  have hbus : t.bus = (presented d s).bus := (exec_effect h).ownOnly.keepsOthers.bus
  have hquiet : (t.bus.get d).dmaErrorIn = false := by simp [hbus, presented, eagerPort]
  have hlatch : latchDmaError d t = t := if_neg (by simp [hquiet])
  rw [htick, h, mapNext_next, hlatch]

/-- With a record in its hands the engine executes the instruction of that record. -/
theorem engineTick_of_held {desc : Desc} (herr : (s.eng.get d).dmaErr = false) (hheld : HoldsRecord s d)
    (hcur : (s.eng.get d).cur = desc) (h : exec (instrOfDesc desc) (offered d s) = .next t) :
    engineTick d (presented d s) = .next t := by
  subst hcur
  refine engineTick_of_exec ?_ h
  rw [engineTick_of_engineStep (s := presented d s) herr, engineStep_of_holdsRecord (s := presented d s) hheld]
  rfl

theorem runEngine_one (h : engineTick d (presented d s) = .next t) : runEngine d 1 s = .next t := by
  show andThen (engineTick d (presented d s)) (runEngine d 0) = _
  rw [h]
  rfl

theorem runEngine_trans {m n : Nat} (h : runEngine d m s = .next t) (h' : runEngine d n t = .next u) :
    runEngine d (m + n) s = .next u := by
  induction m generalizing s with
  | zero =>
    cases h
    rwa [Nat.zero_add]
  | succ m ih =>
    obtain ⟨v, hv, hrest⟩ := andThen_eq_next h
    rw [Nat.add_right_comm]
    show andThen (engineTick d (s.withBus _)) (runEngine d (m + n)) = _
    rw [hv]
    exact ih hrest

end Eager

/-! ## What an activation starts from -/

section Activation

variable {s t u : State} {d : Dir} {desc : Desc} {g : Geom} {k : Nat}

/-- Engine `d` waits for the record `desc` of its current slot, which nothing forbids, with room for its burst. -/
structure Activates (d : Dir) (s : State) (desc : Desc) (g : Geom) : Prop where
  record : desc = recordAt s d (s.ring.get d).currentIndex
  ok : s.params.ok = true
  err : (s.eng.get d).dmaErr = false
  st : (s.eng.get d).st = .fetchDescriptor
  fresh : currentComplete s d = false
  empty : (s.eng.get d).curValid = false
  port : s.port.get d = portReset
  inSpace : fetchAddress s d + 24 ≤ 2 ^ 64
  valid : latchRefusal s d desc = none
  geom : transportGeometry s = .ok g
  room : burstLength s.params desc ≤ roomSeen s d

namespace Activates

/-- R64: a burst has at least one word. -/
theorem burst_pos (h : Activates d s desc g) : 0 < burstLength s.params desc := by
  have hw := Params.ok_wordBytes h.ok
  obtain ⟨_, _, hlen, _⟩ := (alignedOk_iff s d desc).1 ((latchRefusal_none s d desc).1 h.valid).1
  have hburst : s.params.wordBytes ≤ s.params.burstBytes := by
    rw [Params.ok_burst h.ok]
    exact Nat.le_mul_of_pos_left _ (Params.ok_burstWords h.ok)
  exact Nat.div_pos (le_min hburst hlen) hw

/-- R92: nor more than the configured burst length. -/
theorem burst_le (_ : Activates d s desc g) : burstLength s.params desc ≤ s.params.burstWords :=
  Nat.div_le_div_right (min_le_left _ _)

/-- R68: every word of the burst lies in the address space. -/
theorem burst_inSpace (h : Activates d s desc g) :
    desc.bufferAddress.toNat + burstLength s.params desc * s.params.wordBytes ≤ 2 ^ 64 := by
  obtain ⟨_, _, _, hfits, _⟩ := (rangesOk_iff s d desc).1 ((latchRefusal_none s d desc).1 h.valid).2.1
  exact (Nat.add_le_add_left (Nat.div_mul_le_self _ _) _).trans hfits

theorem word_inSpace (h : Activates d s desc g) (hk : k < burstLength s.params desc) :
    wordAddress s.params desc k + s.params.wordBytes ≤ 2 ^ 64 := by
  have hlast : (k + 1) * s.params.wordBytes ≤ burstLength s.params desc * s.params.wordBytes := Nat.mul_le_mul_right _ hk
  have hfits := h.burst_inSpace
  rw [Nat.succ_mul] at hlast
  unfold wordAddress
  omega

/-- The burst ends where the engine or the configuration says, which is at its last word (R146). -/
theorem ends_iff (h : Activates d s desc g) (hk : k < burstLength s.params desc) :
    k + 1 = burstLength s.params desc ∨ k + 1 = s.params.burstWords ↔ k + 1 = burstLength s.params desc := by
  have := h.burst_le
  omega

/-- R121 (f), R122: the slot that the cursor moves to. -/
theorem exists_slot (h : Activates d s desc g) : ∃ k,
    if desc.lastInChain = true ∨ desc.wrap = true then k = 0 else nextSlot s d desc = some k := by
  obtain ⟨_, _, _, _, hend⟩ := (rangesOk_iff s d desc).1 ((latchRefusal_none s d desc).1 h.valid).2.1
  by_cases hlast : desc.lastInChain = true ∨ desc.wrap = true
  · exact ⟨0, by rw [if_pos hlast]⟩
  · rw [not_or] at hlast
    obtain ⟨k, hk⟩ := Option.isSome_iff_exists.1 ((hend.resolve_left hlast.1).resolve_left hlast.2)
    exact ⟨k, by rw [if_neg (not_or.2 hlast)]; exact hk⟩

end Activates

/-! ## The latch and the request (R144, R145) -/

/-- After the latch: the engine holds the record, and nothing else of its own has changed. -/
structure Latched (d : Dir) (s : State) (desc : Desc) (u : State) : Prop where
  elsewhere : Elsewhere d s u
  mem : u.mem = s.mem
  ring : u.ring.get d = s.ring.get d
  st : (u.eng.get d).st = .fetchDescriptor
  cur : (u.eng.get d).cur = desc
  valid : (u.eng.get d).curValid = true
  err : (u.eng.get d).dmaErr = false
  fifo : u.fifo.get d = s.fifo.get d
  ahead : (u.port.get d).rdAhead = []
  pending : (u.port.get d).pending = []

theorem Activates.engineTick_latches (h : Activates d s desc g) :
    ∃ u, engineTick d (presented d s) = .next u ∧ Latched d s desc u := by
  have hfields : (s.port.get d).fields = ⟨none, none, none, none⟩ := by rw [h.port]; rfl
  have hbytes : deliveredBytes (presented d s) d .memory = some (loadBytes s.mem (fetchAddress s d) 24 ++ []) := by
    have hfield (f : DescField) : deliveredField (presented d s) d f = fieldNow s d f := by
      show ((s.port.get d).fields.get f).getD _ = _
      rw [hfields]
      cases f <;> rfl
    rw [deliveredBytes_memory (s := presented d s) h.inSpace, hfield, hfield, hfield, hfield, List.append_nil]
    exact congrArg some (loadBytes_fields ..)
  have hdec : decode (loadBytes s.mem (fetchAddress s d) 24 ++ []) = .ok (instrOfDesc desc, []) := by
    rw [decode_append (loadBytes_length ..), h.record]
    rfl
  have htick := engineTick_of_fetch (s := presented d s) h.err h.st h.fresh h.empty (by simp [presented, eagerPort]) hbytes hdec
  have hsame : SameForLatch s (offered d s) := ⟨rfl, rfl, rfl, rfl, rfl, rfl⟩
  have hplay : inPlay (offered d s) d.other = inPlay s d.other := rfl
  have hvalid : latchRefusal (offered d s) d desc = none := by rw [hsame.latchRefusal hplay, h.valid]
  have hexec : exec (instrOfDesc desc) (offered d s) = .next (latched d desc (offered d s)) := by
    rw [exec_of_latching (s := offered d s) h.st h.fresh h.empty, instrOfDesc_desc]
    exact latchStep_of_valid hvalid
  have hnext := engineTick_of_exec htick hexec
  exact ⟨_, hnext, {
    elsewhere := engineTick_elsewhere hnext
    mem := by simp [latched]
    ring := by simp [latched]
    st := by simpa [latched] using h.st
    cur := by simp [latched]
    valid := by simp [latched]
    err := by simpa [latched] using h.err
    fifo := by simp [latched]
    ahead := by simp [latched, h.port, portReset]
    pending := by simp [latched, h.port, portReset] }⟩

/-- The engine's buffer after `k` words of the burst. -/
def burstFifo (s : State) (desc : Desc) (g : Geom) (k : Nat) : Dir → Fifo
  | .pb => pushAll s.params s.fifo.pb (burstFrames s desc g k)
  | .cap => popMany s.params k s.fifo.cap

/-- The writes that `k` words of the burst have handed over. -/
def burstWrites (s : State) (desc : Desc) (g : Geom) (k : Nat) : Dir → List PendingWrite
  | .pb => []
  | .cap => (List.range k).map (frameWrite s.params g desc s.fifo.cap (burstLength s.params desc))

/-- Host memory once those writes are performed. -/
def burstMem (s : State) (desc : Desc) (g : Geom) (k : Nat) : Dir → Memory
  | .pb => s.mem
  | .cap => writeFrames s.params g k desc.bufferAddress.toNat s.fifo.cap s.mem

/-- After `k` words of the burst. -/
structure Moved (d : Dir) (s : State) (desc : Desc) (g : Geom) (k : Nat) (u : State) : Prop where
  elsewhere : Elsewhere d s u
  mem : u.mem = s.mem
  ring : u.ring.get d = { s.ring.get d with activeCount := 1 }
  st : (u.eng.get d).st = if k = burstLength s.params desc then .updateDescriptor else .moveData
  count : (u.eng.get d).burstCnt = k
  cur : (u.eng.get d).cur = desc
  req : (u.eng.get d).reqBytes = burstSize s.params desc.length
  err : (u.eng.get d).dmaErr = false
  fifo : u.fifo.get d = burstFifo s desc g k d
  ahead : (u.port.get d).rdAhead = []
  pending : (u.port.get d).pending = burstWrites s desc g k d

theorem Latched.engineTick_requests (hu : Latched d s desc u) (h : Activates d s desc g) :
    ∃ v, engineTick d (presented d u) = .next v ∧ Moved d s desc g 0 v := by
  have hfresh : currentComplete u d = false := (currentComplete_congr hu.ring).trans h.fresh
  have hexec : exec (instrOfDesc desc) (offered d u) = .next (requested d desc (offered d u)) := by
    have haccept : ((offered d u).bus.get d).reqAccept = true := by simp [eagerPort]
    rw [exec_of_requesting (s := offered d u) hu.st hfresh hu.valid, instrOfDesc_desc]
    simp only [offered_turn, requestStep, haccept, if_true, requested]
  have hnext := engineTick_of_held hu.err (.inl ⟨hu.st, hfresh, hu.valid⟩) hu.cur hexec
  have hpos : ¬0 = burstLength s.params desc := h.burst_pos.ne
  exact ⟨_, hnext, {
    elsewhere := hu.elsewhere.trans (engineTick_elsewhere hnext)
    mem := hu.mem
    ring := by simp [requested, hu.ring]
    st := by simp [requested, hpos]
    count := by simp [requested]
    cur := by simpa [requested] using hu.cur
    req := by simp [requested, hu.elsewhere.params]
    err := by simpa [requested] using hu.err
    fifo := by cases d <;> exact hu.fifo
    ahead := hu.ahead
    pending := by cases d <;> exact hu.pending }⟩

/-! ## The words of the burst (R146) -/

theorem transportGeometry_congr (hp : t.params = s.params) (hh : t.host = s.host) :
    transportGeometry t = transportGeometry s := by
  simp only [transportGeometry, hp, hh]

theorem Moved.st_of_lt (hu : Moved d s desc g k u) (hk : k < burstLength s.params desc) : (u.eng.get d).st = .moveData := by
  rw [hu.st, if_neg hk.ne]

/-- An engine in its burst executes the move of one word. -/
theorem Moved.engineTick_of_moveStep (hu : Moved d s desc g k u) (hk : k < burstLength s.params desc)
    (h : moveStep d desc (offered d u) = .next t) : engineTick d (presented d u) = .next t := by
  have hst := hu.st_of_lt hk
  refine engineTick_of_held hu.err (.inr (.inl hst)) hu.cur ?_
  rw [exec_of_moveData (s := offered d u) hst, instrOfDesc_desc]
  exact h

/-- The `k`-th word of a playback burst as memory holds it. -/
def burstWord (s : State) (desc : Desc) (k : Nat) : Nat :=
  natOfBytes (loadBytes s.mem (wordAddress s.params desc k) s.params.wordBytes)

theorem burstFrames_succ (s : State) (desc : Desc) (g : Geom) (k : Nat) :
    burstFrames s desc g (k + 1) = burstFrames s desc g k ++ [slice s.params g (burstWord s desc k)] := by
  simp only [burstFrames, burstWord, List.range_succ, List.map_append, List.map_cons, List.map_nil]

/-- A tick that moves word `k`: it is counted, and the burst is done where the engine or the configuration says. -/
theorem Moved.of_word (hu : Moved d s desc g k u) (h : Activates d s desc g) (hk : k < burstLength s.params desc)
    (htick : engineTick d (presented d u) = .next t) (hmem : t.mem = u.mem) (hring : t.ring.get d = u.ring.get d)
    (heng : t.eng.get d = { u.eng.get d with
      burstCnt := k + 1
      completeSig := false
      st := if k + 1 = burstLength s.params desc ∨ k + 1 = s.params.burstWords then .updateDescriptor else .moveData })
    (hfifo : t.fifo.get d = burstFifo s desc g (k + 1) d) (hahead : (t.port.get d).rdAhead = [])
    (hpending : (t.port.get d).pending = burstWrites s desc g (k + 1) d) : Moved d s desc g (k + 1) t where
  elsewhere := hu.elsewhere.trans (engineTick_elsewhere htick)
  mem := hmem.trans hu.mem
  ring := hring.trans hu.ring
  st := by simp only [heng, h.ends_iff hk]
  count := by rw [heng]
  cur := by rw [heng]; exact hu.cur
  req := by rw [heng]; exact hu.req
  err := by rw [heng]; exact hu.err
  fifo := hfifo
  ahead := hahead
  pending := hpending

/-- Room for the whole burst is room for each of its words (R182). -/
theorem Activates.room_for_word (h : Activates .pb s desc g) (hk : k < burstLength s.params desc) :
    occP s.params (burstFifo s desc g k .pb) < s.params.capacity := by
  have hroom : burstLength s.params desc ≤ s.params.capacity - occP s.params s.fifo.pb := h.room
  have hlen : (burstFrames s desc g k).length = k := by simp [burstFrames]
  have hocc : occP s.params (burstFifo s desc g k .pb) = occP s.params s.fifo.pb + k := by
    rw [burstFifo, occP_pushAll _ (by rw [hlen]; omega), hlen]
  omega

/-- The frames of the whole burst are there when it starts, so one is there for each of its words (R184). -/
theorem Activates.frame_for_word (h : Activates .cap s desc g) (hk : k < burstLength s.params desc) :
    0 < occC s.params (burstFifo s desc g k .cap) := by
  have hroom : burstLength s.params desc ≤ occC s.params s.fifo.cap := h.room
  rw [burstFifo, occC_popMany h.ok (by omega)]
  omega

theorem Moved.transportGeometry_offered (hu : Moved d s desc g k u) (h : Activates d s desc g) :
    transportGeometry (offered d u) = .ok g :=
  (transportGeometry_congr (s := s) hu.elsewhere.params hu.elsewhere.host).trans h.geom

/-- Nothing is read ahead, so the word that the tick moves is the one in memory. -/
theorem Moved.playbackWord_offered (hu : Moved .pb s desc g k u) (h : Activates .pb s desc g)
    (hk : k < burstLength s.params desc) :
    playbackWord desc .memory (offered .pb u) = some (burstWord s desc k) := by
  have hahead : u.port.pb.rdAhead = [] := hu.ahead
  have hcount : u.eng.pb.burstCnt = k := hu.count
  simp only [playbackWord, offered_port, offered_mem, offered_params, offered_eng, hahead, hu.mem, hcount,
    hu.elsewhere.params]
  exact memRead_of_inSpace _ (h.word_inSpace hk)

/-- R146, playback: the word in memory is sliced and pushed. -/
theorem Moved.engineTick_plays (hu : Moved .pb s desc g k u) (h : Activates .pb s desc g) (hk : k < burstLength s.params desc) :
    ∃ v, engineTick .pb (presented .pb u) = .next v ∧ Moved .pb s desc g (k + 1) v := by
  have hp : u.params = s.params := hu.elsewhere.params
  have hcount : u.eng.pb.burstCnt = k := hu.count
  have hreq : u.eng.pb.reqBytes = burstSize s.params desc.length := hu.req
  have hfifo : u.fifo.pb = burstFifo s desc g k .pb := hu.fifo
  have hahead : u.port.pb.rdAhead = [] := hu.ahead
  have hpending : u.port.pb.pending = [] := hu.pending
  have hbus : (offered .pb u).bus.pb.rdWord = some (.memory, k + 1 == burstLength s.params desc) := by
    simp [offered, presented, eagerPort, hcount, hreq, hp, burstLength]
  have htick := hu.engineTick_of_moveStep hk (movePlayback_eq hbus (hu.playbackWord_offered h hk) (hu.transportGeometry_offered h))
  refine ⟨_, htick, hu.of_word h hk htick ?_ ?_ ?_ ?_ ?_ ?_⟩
  · simp [playedWord]
  · simp [playedWord]
  · have heng := playedWord_eng_pb (s := offered .pb u) (g := g) (burstWord s desc k) (k + 1 == burstLength s.params desc)
      (hu.st_of_lt hk)
    simp only [offered_params, offered_eng, hp, hcount, beq_iff_eq] at heng
    exact heng
  · rw [playedWord_fifo, offered_params, offered_fifo, hp, hfifo, pushResult_of_room _ (h.room_for_word hk),
      PerDir.get_set_same, burstFifo, burstFifo, burstFrames_succ, pushAll_append_singleton]
  · simp [playedWord, hahead]
  · simp [playedWord, hpending, burstWrites]

theorem Moved.captureDone_offered (hu : Moved .cap s desc g k u) (h : Activates .cap s desc g)
    (hk : k < burstLength s.params desc) :
    captureDone (offered .cap u) = decide (k + 1 = burstLength s.params desc) := by
  have hcount : u.eng.cap.burstCnt = k := hu.count
  have hreq : u.eng.cap.reqBytes = burstSize s.params desc.length := hu.req
  rw [captureDone_eq, offered_eng, offered_params, hcount, hreq, hu.elsewhere.params]
  exact decide_eq_decide.2 (h.ends_iff hk)

theorem Moved.capturedWrite_offered (hu : Moved .cap s desc g k u) (h : Activates .cap s desc g)
    (hk : k < burstLength s.params desc)
    (hfilled : 0 < occC u.params u.fifo.cap) :
    capturedWrite desc g (offered .cap u) = frameWrite s.params g desc s.fifo.cap (burstLength s.params desc) k := by
  have hcount : u.eng.cap.burstCnt = k := hu.count
  have hfifo : u.fifo.cap = popMany s.params k s.fifo.cap := hu.fifo
  rw [capturedWrite, capturedFrame_of_filled (s := offered .cap u) hfilled, hu.captureDone_offered h hk, offered_params,
    offered_eng, offered_fifo, hu.elsewhere.params, hcount, hfifo]
  rfl

/-- R146, capture: the oldest frame is popped, packed and handed over. -/
theorem Moved.engineTick_captures (hu : Moved .cap s desc g k u) (h : Activates .cap s desc g)
    (hk : k < burstLength s.params desc) :
    ∃ v, engineTick .cap (presented .cap u) = .next v ∧ Moved .cap s desc g (k + 1) v := by
  have hp : u.params = s.params := hu.elsewhere.params
  have hcount : u.eng.cap.burstCnt = k := hu.count
  have hlast : u.eng.cap.reqBytes / s.params.wordBytes = burstLength s.params desc :=
    congrArg (· / s.params.wordBytes) hu.req
  have hfifo : u.fifo.cap = burstFifo s desc g k .cap := hu.fifo
  have hahead : u.port.cap.rdAhead = [] := hu.ahead
  have hpending : u.port.cap.pending = burstWrites s desc g k .cap := hu.pending
  have hbus : (offered .cap u).bus.cap.wrReady = true := by simp [offered, presented, eagerPort]
  have hfilled : 0 < occC u.params u.fifo.cap := by rw [hp, hfifo]; exact h.frame_for_word hk
  have hspace : wordAddress u.params desc u.eng.cap.burstCnt + u.params.wordBytes ≤ 2 ^ 64 := by
    rw [hp, hcount]
    exact h.word_inSpace hk
  have htick := hu.engineTick_of_moveStep hk (moveCapture_eq hbus (hu.transportGeometry_offered h) hspace)
  refine ⟨_, htick, hu.of_word h hk htick ?_ ?_ ?_ ?_ ?_ ?_⟩
  · simp [capturedWord]
  · simp [capturedWord]
  · have heng := capturedWord_eng_cap (s := offered .cap u) (desc := desc) (g := g) (hu.st_of_lt hk)
    simp only [offered_params, offered_eng, hp, hcount, hlast] at heng
    exact heng
  · rw [capturedWord_fifo, offered_params, offered_fifo, popResult_of_filled hfilled, PerDir.get_set_same, hp, hfifo, burstFifo,
      burstFifo, popMany_succ]
  · simp [capturedWord, hahead]
  · simp [capturedWord, hpending, hu.capturedWrite_offered h hk hfilled, burstWrites, List.range_succ]

theorem Moved.engineTick_moves (hu : Moved d s desc g k u) (h : Activates d s desc g) (hk : k < burstLength s.params desc) :
    ∃ v, engineTick d (presented d u) = .next v ∧ Moved d s desc g (k + 1) v := by
  cases d with
  | pb => exact hu.engineTick_plays h hk
  | cap => exact hu.engineTick_captures h hk

/-- The words of a burst, one tick each. -/
theorem Moved.runEngine_words (hu : Moved d s desc g 0 u) (h : Activates d s desc g) (hk : k ≤ burstLength s.params desc) :
    ∃ v, runEngine d k u = .next v ∧ Moved d s desc g k v := by
  induction k with
  | zero => exact ⟨u, rfl, hu⟩
  | succ k ih =>
    obtain ⟨v, hrun, hv⟩ := ih (Nat.le_of_succ_le hk)
    obtain ⟨v', htick, hv'⟩ := hv.engineTick_moves h hk
    exact ⟨v', runEngine_trans hrun (runEngine_one htick), hv'⟩

/-! ## The completion (R147, R152 to R154) -/

/-- The cursor that the kind of a descriptor asks for is where its `UpdateDescriptor` goes. -/
theorem kindUpdate_instrOfDesc
    (hk : if desc.lastInChain = true ∨ desc.wrap = true then k = 0 else nextSlot s d desc = some k) :
    kindUpdate (instrOfDesc desc) d desc s = finish d desc k (if desc.lastInChain then .complete else .idle) s := by
  unfold instrOfDesc
  cases hlast : desc.lastInChain with
  | true =>
    simp only [hlast, true_or, if_true] at hk
    simp only [if_true, kindUpdate, updateXferL, hk]
  | false =>
    cases hwrap : desc.wrap with
    | true =>
      simp only [hwrap, or_true, if_true] at hk
      simp only [Bool.false_eq_true, if_false, if_true, kindUpdate, updateXferW, hk]
    | false =>
      simp only [hlast, hwrap, Bool.false_eq_true, or_self, if_false] at hk
      simp only [Bool.false_eq_true, if_false, kindUpdate, updateXfer, advanceTo, hlast, hwrap, Bool.or_self, hk]

/-- The writes of the whole burst, performed by the completion at the latest (R71), put its frames in memory. -/
theorem performAll_burstWrites (h : Activates d s desc g) :
    performAll s.mem (burstWrites s desc g (burstLength s.params desc) d) =
      some (burstMem s desc g (burstLength s.params desc) d) := by
  cases d with
  | pb => rfl
  | cap => exact performAll_frameWrites s.mem h.burst_inSpace

/-- What an activation leaves of its own direction. -/
structure Activated (d : Dir) (s : State) (desc : Desc) (g : Geom) (k : Nat) (t : State) : Prop where
  elsewhere : Elsewhere d s t
  slot : if desc.lastInChain = true ∨ desc.wrap = true then k = 0
    else k < ringCount s d ∧ desc.nextAddress.toNat = ringBase s d + k * 24
  fifo : t.fifo.get d = burstFifo s desc g (burstLength s.params desc) d
  ring : t.ring.get d =
    { complete := (s.ring.get d).complete.set (s.ring.get d).currentIndex true
      currentIndex := k
      activeCount := 0
      bytesProcessed := ((s.ring.get d).bytesProcessed + burstLength s.params desc * s.params.wordBytes) % 2 ^ s.params.bytesW }
  st : (t.eng.get d).st = if desc.lastInChain then .complete else .idle
  empty : (t.eng.get d).curValid = false
  sig : (t.eng.get d).completeSig = desc.interrupt
  mem : t.mem = writtenBack s d desc.flags (burstMem s desc g (burstLength s.params desc) d)

theorem Moved.engineTick_completes (hu : Moved d s desc g (burstLength s.params desc) u) (h : Activates d s desc g) :
    ∃ t k, engineTick d (presented d u) = .next t ∧ Activated d s desc g k t := by
  obtain ⟨k, hslot⟩ := h.exists_slot
  have hst : (u.eng.get d).st = .updateDescriptor := by rw [hu.st, if_pos rfl]
  have hhost : u.host = s.host := hu.elsewhere.host
  have hslot' : if desc.lastInChain = true ∨ desc.wrap = true then k = 0 else nextSlot (offered d u) d desc = some k := by
    have hnext : nextSlot (offered d u) d desc = nextSlot s d desc := by
      show nextSlot u d desc = _
      simp only [nextSlot, ringBase, ringCount, hhost]
    rwa [hnext]
  have hfetch : fetchAddress (offered d u) d = fetchAddress s d := by
    show fetchAddress u d = _
    simp only [fetchAddress, slotAddress, ringBase, hhost, hu.ring]
  have hperform : performAll (offered d u).mem ((offered d u).port.get d).pending =
      some (burstMem s desc g (burstLength s.params desc) d) := by
    rw [offered_mem, offered_port, hu.mem, hu.pending, performAll_burstWrites h]
  obtain ⟨t, hfin, hc⟩ := finish_completes (s := offered d u) (desc := desc) k (if desc.lastInChain then .complete else .idle)
    hperform (by rw [hfetch]; exact h.inSpace)
  have hexec : exec (instrOfDesc desc) (offered d u) = .next t := by
    rw [exec_of_updateDescriptor (s := offered d u) hst, instrOfDesc_desc, ← hfin]
    exact kindUpdate_instrOfDesc hslot'
  have hnext := engineTick_of_held hu.err (.inr (.inr hst)) hu.cur hexec
  have hp : (offered d u).params = s.params := hu.elsewhere.params
  exact ⟨t, k, hnext, {
    elsewhere := hu.elsewhere.trans (engineTick_elsewhere hnext)
    slot := by simpa only [nextSlot_eq_some_iff] using hslot
    fifo := by rw [hc.fifo]; exact hu.fifo
    ring := by
      rw [hc.ring, PerDir.get_set_same, hp, show (offered d u).ring.get d = _ from hu.ring,
        show ((offered d u).eng.get d).burstCnt = _ from hu.count]
    st := by rw [hc.eng, PerDir.get_set_same]
    empty := by rw [hc.eng, PerDir.get_set_same]
    sig := by rw [hc.eng, PerDir.get_set_same]
    mem := by rw [hc.mem]; simp only [writtenBack, hp, hfetch] }⟩

/-- R144 to R147: the latch, the request, the words and the completion. -/
theorem Activates.runEngine_activates (h : Activates d s desc g) :
    ∃ t k, runEngine d (burstLength s.params desc + 3) s = .next t ∧ Activated d s desc g k t := by
  obtain ⟨u, hlatch, hu⟩ := h.engineTick_latches
  obtain ⟨v, hrequest, hv⟩ := hu.engineTick_requests h
  obtain ⟨w, hwords, hw⟩ := hv.runEngine_words h le_rfl
  obtain ⟨t, k, hfinal, ht⟩ := hw.engineTick_completes h
  refine ⟨t, k, ?_, ht⟩
  rw [show burstLength s.params desc + 3 = 1 + (1 + (burstLength s.params desc + 1)) by omega]
  exact runEngine_trans (runEngine_one hlatch) (runEngine_trans (runEngine_one hrequest)
    (runEngine_trans hwords (runEngine_one hfinal)))

end Activation

/-- Settles O59: the run of one activation, playback; the room asked for is the room seen (R186). -/
theorem playbackActivation : Obligations.PlaybackActivation := by
  intro s g desc hrec n hok herr hst hfresh hempty hport hspace hvalid hgeom hroom
  have h : Activates .pb s desc g :=
    ⟨hrec, hok, herr, hst, hfresh, hempty, hport, hspace, hvalid, hgeom, Nat.le_sub_of_add_le hroom⟩
  obtain ⟨t, k, hrun, ht⟩ := h.runEngine_activates
  exact ⟨t, k, hrun, ht.slot, ht.fifo, ht.ring, ht.st, ht.empty, ht.sig, ht.mem, ht.elsewhere.ring, ht.elsewhere.eng,
    ht.elsewhere.fifo, ht.elsewhere.afp⟩

/-- Settles O60: the run of one activation, capture. -/
theorem captureActivation : Obligations.CaptureActivation := by
  intro s g desc hrec n hok herr hst hfresh hempty hport hspace hvalid hgeom hroom
  have h : Activates .cap s desc g :=
    ⟨hrec, hok, herr, hst, hfresh, hempty, hport, hspace, hvalid, hgeom, hroom⟩
  obtain ⟨t, k, hrun, ht⟩ := h.runEngine_activates
  exact ⟨t, k, hrun, ht.slot, ht.mem, ht.fifo, ht.ring, ht.st, ht.empty, ht.sig, ht.elsewhere.ring, ht.elsewhere.eng,
    ht.elsewhere.fifo, ht.elsewhere.afp⟩

end Sys2Proof.Machine

/-! The rules of the Elastic Buffers (R181 to R189): an accepted and a refused push and pop, that both views are on the safe side
in a good buffer, and that every step keeps both buffers good. -/

namespace Sys2Proof.Machine

/-! ## What a refused push and a refused pop record (R183, R185) -/

section Refused

variable {s : State} {d : Dir}

/-- The two directions of an overrun in one equation: counted in both, flagged where the audio side pushes (R303). -/
theorem raise_overrun_eq : raise (.overrun d) s =
    (s.withFifo d { s.fifo.get d with overrunCnt := ((s.fifo.get d).overrunCnt + 1) % 2 ^ s.params.cntW }).withAfp
      { s.afp with overrunFlag := s.afp.overrunFlag || d == .cap } := by
  cases d with
  | pb => rw [show (Dir.pb == Dir.cap) = false from rfl, Bool.or_false]; rfl
  | cap => rw [show (Dir.cap == Dir.cap) = true from rfl, Bool.or_true]; rfl

/-- The two directions of an underrun in one equation: counted in both, flagged where the audio side pops (R302). -/
theorem raise_underrun_eq : raise (.underrun d) s =
    (s.withFifo d { s.fifo.get d with underrunCnt := ((s.fifo.get d).underrunCnt + 1) % 2 ^ s.params.cntW }).withAfp
      { s.afp with underrunFlag := s.afp.underrunFlag || d == .pb } := by
  cases d with
  | pb => rw [show (Dir.pb == Dir.pb) = true from rfl, Bool.or_true]; rfl
  | cap => rw [show (Dir.cap == Dir.pb) = false from rfl, Bool.or_false]; rfl

theorem pushFrame_of_room (fr : Frame) (h : occP s.params (s.fifo.get d) < s.params.capacity) :
    pushFrame d fr s = s.withFifo d ((s.fifo.get d).pushed s.params fr) := if_pos h

theorem pushFrame_of_full (fr : Frame) (h : s.params.capacity ≤ occP s.params (s.fifo.get d)) :
    pushFrame d fr s = raise (.overrun d) s := if_neg h.not_gt

theorem popFrame_of_filled (h : 0 < occC s.params (s.fifo.get d)) :
    popFrame d s = (some ((s.fifo.get d).front s.params), s.withFifo d ((s.fifo.get d).popped s.params)) := if_pos h

theorem popFrame_of_empty (h : occC s.params (s.fifo.get d) = 0) : popFrame d s = (none, raise (.underrun d) s) :=
  if_neg h.not_gt

end Refused

/-- Settles O32: the producer's occupancy alone decides between entering the frame and counting it (R182, R183). -/
theorem pushRule : Obligations.PushRule := fun _ fr _ =>
  ⟨fun hroom => pushFrame_of_room fr hroom, fun hfull => (pushFrame_of_full fr hfull).trans raise_overrun_eq⟩

/-- Settles O33: the consumer's occupancy alone decides between taking the front and counting the attempt (R184, R185). -/
theorem popRule : Obligations.PopRule := fun _ _ =>
  ⟨fun hfilled => popFrame_of_filled hfilled,
    fun hempty => (popFrame_of_empty hempty).trans (congrArg (Prod.mk none) raise_underrun_eq)⟩

/-! ## The two views (R189) -/

section Conservative

variable {p : Params} {f : Fifo}

/-- The consumer looks at an earlier push index, which is no further ahead (R187). -/
theorem BufferInv.occC_le_occ (hp : p.ok = true) (h : BufferInv p f) : occC p f ≤ occ p f :=
  h.occC_le_dist hp (List.mem_cons_self ..)

/-- The producer looks at an earlier pop index, which is no nearer (R186). -/
theorem BufferInv.occ_le_occP (hp : p.ok = true) (h : BufferInv p f) : occ p f ≤ occP p f :=
  h.dist_le_occP hp (List.mem_cons_self ..)

/-- The pop index the producer sees was never more than the capacity behind (R186). -/
theorem BufferInv.occP_le_capacity (hp : p.ok = true) (h : BufferInv p f) : occP p f ≤ p.capacity :=
  h.rd_bound _ (List.mem_cons_of_mem _ (Sync.out_mem (stages_ne_nil hp h.rd_stages)))

end Conservative

/-- Settles O34: each view reads an index as old as the last stage of its cell. -/
theorem bufferViewsConservative : Obligations.BufferViewsConservative := fun _ _ hp h =>
  ⟨h.occC_le_occ hp, h.occ_le_occP hp, h.occP_le_capacity hp⟩

/-- Settles O35: a tick uses each buffer by a push, a pop or a shift of an index cell, a reset empties both, and no other move
touches them. -/
theorem buffersKept : Obligations.BuffersKept := fun _ _ hs h =>
  step_keeps (movesKeep_of_quiet fun _ _ hq hs => hs.of_eq hq.params hq.fifo) ticksKeep_buffersInv hs h

end Sys2Proof.Machine

/-! The synchronizer cells (R201 to R205): what each stage holds under a source that keeps its value, and what a scalar cell captures
bit by bit. -/

namespace Sys2Proof.Machine

/-! ## The stages under a kept source (R201, R202) -/

section Held

variable {c : Sync} {v n i : Nat}

theorem Sync.out_eq_getD (c : Sync) : c.out = c.stages.getD (c.stages.length - 1) 0 := by
  rw [Sync.out, List.getLastD_eq_getLast?, List.getLast?_eq_getElem?, List.getD_eq_getElem?_getD]

theorem shiftIn_getD_zero (v : Nat) (l : List Nat) : (shiftIn v l).getD 0 0 = v := rfl

theorem shiftIn_getD_succ {l : List Nat} (h : i + 1 < l.length) : (shiftIn v l).getD (i + 1) 0 = l.getD i 0 := by
  have hi : i < l.length - 1 := by omega
  simp only [shiftIn, List.getD_eq_getElem?_getD, List.getElem?_cons_succ, List.getElem?_dropLast, hi, if_true]

theorem Sync.length_stepWhole (hc : c.stages ≠ []) (v : Nat) : (c.stepWhole v).stages.length = c.stages.length :=
  length_shiftIn v hc

theorem Sync.length_held (hc : c.stages ≠ []) (v n : Nat) : (Sync.held v n c).stages.length = c.stages.length := by
  induction n generalizing c with
  | zero => rfl
  | succ n ih => exact (ih (List.cons_ne_nil _ _)).trans (Sync.length_stepWhole hc v)

/-- After `n` ticks the first `n` stages hold the kept value, and each other stage what stood `n` places before it. -/
theorem Sync.held_getD (hi : i < c.stages.length) :
    (Sync.held v n c).stages.getD i 0 = if i < n then v else c.stages.getD (i - n) 0 := by
  induction n generalizing c with
  | zero => rfl
  | succ n ih =>
    have hlen := Sync.length_stepWhole (List.ne_nil_of_length_pos (Nat.zero_lt_of_lt hi)) v
    have hstep : (Sync.held v (n + 1) c).stages.getD i 0 = if i < n then v else (shiftIn v c.stages).getD (i - n) 0 :=
      ih (c := c.stepWhole v) (hlen ▸ hi)
    rw [hstep]
    rcases Nat.lt_trichotomy i n with hlt | rfl | hgt
    · rw [if_pos hlt, if_pos (Nat.lt_succ_of_lt hlt)]
    · rw [if_neg (Nat.lt_irrefl i), if_pos (Nat.lt_succ_self i), Nat.sub_self, shiftIn_getD_zero]
    · obtain ⟨k, rfl⟩ := Nat.exists_eq_add_of_lt hgt
      rw [if_neg (by omega), if_neg (by omega), show n + k + 1 - n = k + 1 by omega, shiftIn_getD_succ (by omega),
        show n + k + 1 - (n + 1) = k by omega]

/-- R202: the output shows the kept value from the tick on that fills the last stage. -/
theorem Sync.held_out (hc : c.stages ≠ []) : (Sync.held v n c).out =
    if c.stages.length ≤ n then v else c.stages.getD (c.stages.length - 1 - n) 0 := by
  have hpos := List.length_pos_of_ne_nil hc
  rw [Sync.out_eq_getD, Sync.length_held hc, Sync.held_getD (Nat.sub_lt hpos Nat.one_pos)]
  exact if_congr (by omega) rfl rfl

end Held

/-- Settles O39: every tick moves each stage's content one place on, and each domain's tick steps its own cells. -/
theorem synchronizerLatency : Obligations.SynchronizerLatency :=
  ⟨fun _ _ _ hc =>
      ⟨fun hn => (Sync.held_out hc).trans (if_pos hn), fun hn => (Sync.held_out hc).trans (if_neg (Nat.not_le_of_lt hn))⟩,
    fun _ _ _ _ hg h => h.whole hg,
    fun _ => ⟨Sync.stepScalar_captures .., Sync.stepScalar_captures .., Sync.stepScalar_captures .., Sync.stepScalar_captures .., rfl⟩,
    fun _ => ⟨Sync.stepScalar_captures .., Sync.stepScalar_captures .., Sync.stepScalar_captures .., Sync.stepScalar_captures ..,
      Sync.stepScalar_captures .., Sync.stepScalar_captures .., Sync.stepScalar_captures .., rfl⟩⟩

/-! ## The bits that a scalar cell captures (R204, R205) -/

section Captured

variable {prev src mask k : Nat}

theorem mixBits_testBit (old new mask k : Nat) :
    (mixBits old new mask).testBit k = if mask.testBit k = true then new.testBit k else old.testBit k := by
  rw [mixBits, Nat.testBit_xor, Nat.testBit_and, Nat.testBit_xor]
  cases mask.testBit k <;> simp

theorem mixBits_self (v mask : Nat) : mixBits v v mask = v :=
  Nat.eq_of_testBit_eq fun k => by rw [mixBits_testBit, ite_self]

/-- The mix covers a source that did not change, whose old and new bits are the same. -/
theorem captured_bitmix (prev src mask : Nat) : captured .bitmix prev src mask = mixBits prev src mask := by
  simp only [captured]
  split
  · next he => rw [he, mixBits_self]
  · rfl

theorem captured_bitmix_testBit : (captured .bitmix prev src mask).testBit k = prev.testBit k ∨
    (captured .bitmix prev src mask).testBit k = src.testBit k := by
  rw [captured_bitmix, mixBits_testBit]
  split
  · exact .inr rfl
  · exact .inl rfl

end Captured

/-- Settles O40: under `bitmix` the capture is the mix of old and new by the mask, bit by bit. -/
theorem capturedBits : Obligations.CapturedBits := fun _ _ _ _ =>
  ⟨rfl, (captured_bitmix ..).trans (mixBits_self ..), captured_bitmix_testBit⟩

end Sys2Proof.Machine

/-! The bit event of the Audio Frame Processor (R225 to R236): the configuration and the frame that a boundary takes, and what every
bit event drives, samples and publishes. -/

namespace Sys2Proof.Machine

/-! ## The latch (R228, R229, R242) -/

section Latch

variable {s t : State} {inp : LineIn} {f m : Nat} {r : Refusal}

theorem atBoundary_iff (a : Afp) : atBoundary a = true ↔ a.bitCnt = 0 ∧ a.chCnt = 0 := by
  rw [atBoundary, Bool.and_eq_true, beq_iff_eq, beq_iff_eq]

/-- The control cells show a format, or under DSD a sub-mode, that has no meaning (R229). -/
def ShowsReserved (c : ControlCells) : Prop := 3 ≤ c.format.out ∨ (c.format.out = 2 ∧ 3 ≤ c.dsdMode.out)

theorem legalFormat_dsd (m : Nat) : legalFormat 2 m = if m < 3 then some .dsd else none := rfl

theorem legalFormat_eq_none_iff : legalFormat f m = none ↔ 3 ≤ f ∨ (f = 2 ∧ 3 ≤ m) := by
  match f with
  | 0 => simp [legalFormat, formatOfCode]
  | 1 => simp [legalFormat, formatOfCode]
  | 2 => simp [legalFormat_dsd]
  | f + 3 => simp [legalFormat, formatOfCode]

theorem formatOfCode_of_legalFormat {x : Format} (h : legalFormat f m = some x) : formatOfCode f = some x := by
  match f with
  | 0 => exact h
  | 1 => exact h
  | 2 =>
    rw [legalFormat_dsd] at h
    split at h
    · exact h
    · cases h
  | f + 3 => cases h

theorem latchConfig_of_reserved (h : ShowsReserved s.control) : latchConfig s = .error .reservedFormat := by
  simp only [latchConfig, legalFormat_eq_none_iff.2 h]

theorem exists_legalFormat (h : ¬ShowsReserved s.control) : ∃ x, legalFormat s.control.format.out s.control.dsdMode.out = some x :=
  Option.ne_none_iff_exists'.1 fun hn => h (legalFormat_eq_none_iff.1 hn)

theorem latchConfig_of_slave (h : ¬ShowsReserved s.control) (hm : s.control.master.out = 0) : latchConfig s = .error .slaveMode := by
  obtain ⟨x, hx⟩ := exists_legalFormat h
  simp only [latchConfig, hx, if_pos hm]

theorem latchConfig_of_master (h : ¬ShowsReserved s.control) (hm : s.control.master.out ≠ 0) :
    ∃ x, formatOfCode s.control.format.out = some x ∧
      latchConfig s = .ok ⟨x, s.control.family.out, s.control.mult.out, s.control.dsdMode.out, true⟩ := by
  obtain ⟨x, hx⟩ := exists_legalFormat h
  exact ⟨x, formatOfCode_of_legalFormat hx, by simp only [latchConfig, hx, if_neg hm]⟩

/-- The only two refusals of the latch, each with its reason. -/
theorem latchConfig_error (h : latchConfig s = .error r) :
    (r = .reservedFormat ∧ ShowsReserved s.control) ∨ (r = .slaveMode ∧ s.control.master.out = 0) := by
  by_cases hr : ShowsReserved s.control
  · rw [latchConfig_of_reserved hr] at h
    exact .inl ⟨(Except.error.inj h).symm, hr⟩
  · by_cases hm : s.control.master.out = 0
    · rw [latchConfig_of_slave hr hm] at h
      exact .inr ⟨(Except.error.inj h).symm, hm⟩
    · obtain ⟨x, _, hx⟩ := latchConfig_of_master hr hm
      rw [hx] at h
      cases h

/-! ### The bit event by the latch (R227) -/

theorem bitEvent_of_latched {act : ActiveConfig} (hb : atBoundary s.afp = true) (hl : latchConfig s = .ok act) :
    bitEvent inp s = .next (driveAndSample inp true act (loadFrame s).1 (loadFrame s).2) := by
  simp only [bitEvent, hb, hl, if_true]

theorem bitEvent_of_latch_refused (hb : atBoundary s.afp = true) (hl : latchConfig s = .error r) : bitEvent inp s = .refused r := by
  simp only [bitEvent, hb, hl, if_true]

theorem bitEvent_of_between (hb : ¬atBoundary s.afp = true) :
    bitEvent inp s = .next (driveAndSample inp false s.afp.act s.afp.txFrame s) := if_neg hb

/-- R239: a bit event goes on, or its boundary's latch is refused. -/
theorem bitEvent_next_or_refused (inp : LineIn) (s : State) : (∃ t, bitEvent inp s = .next t) ∨
    ∃ r, atBoundary s.afp = true ∧ latchConfig s = .error r ∧ bitEvent inp s = .refused r := by
  by_cases hb : atBoundary s.afp = true
  · cases hl : latchConfig s with
    | error r => exact .inr ⟨r, hb, rfl, bitEvent_of_latch_refused hb hl⟩
    | ok act => exact .inl ⟨_, bitEvent_of_latched hb hl⟩
  · exact .inl ⟨_, bitEvent_of_between hb⟩

end Latch

/-! ## What a bit event leaves and writes (R227) -/

section Registers

variable {s t u : State} {inp : LineIn} {boundary : Bool} {act : ActiveConfig} {tx : Frame}

theorem driveAndSample_act : (driveAndSample inp boundary act tx s).afp.act = act := by
  obtain ⟨_, h⟩ := driveAndSample_afp inp boundary act tx s
  rw [h]; rfl

theorem driveAndSample_txFrame : (driveAndSample inp boundary act tx s).afp.txFrame = tx := by
  obtain ⟨_, h⟩ := driveAndSample_afp inp boundary act tx s
  rw [h]; rfl

theorem driveAndSample_underrunFlag : (driveAndSample inp boundary act tx s).afp.underrunFlag = s.afp.underrunFlag := by
  obtain ⟨_, h⟩ := driveAndSample_afp inp boundary act tx s
  rw [h]; rfl

theorem driveAndSample_playback : (driveAndSample inp boundary act tx s).fifo.pb = s.fifo.pb :=
  (driveAndSample_effect inp boundary act tx).2.1

/-- `u` is `s`, or `s` once its boundary loaded a frame: all that the rest of the bit event reads is as it was. -/
structure LoadedOnly (s u : State) : Prop where
  params : u.params = s.params
  control : u.control = s.control
  capture : u.fifo.cap = s.fifo.cap
  afp : ∃ x, u.afp = { s.afp with underrunFlag := x }

theorem LoadedOnly.refl (s : State) : LoadedOnly s s := ⟨rfl, rfl, rfl, _, rfl⟩

theorem loadFrame_loadedOnly (s : State) : LoadedOnly s (loadFrame s).2 where
  params := loadFrame_params s
  control := by rw [loadFrame_buffers.1]
  capture := loadFrame_buffers.2.1
  afp := loadFrame_afp s

/-- A bit event that goes on drives and samples under the configuration and the frame that stand after it. -/
theorem bitEvent_eq_driveAndSample (h : bitEvent inp s = .next t) :
    ∃ u, LoadedOnly s u ∧ t = driveAndSample inp (atBoundary s.afp) t.afp.act t.afp.txFrame u := by
  rcases bitEvent_next h with ⟨hb, act, _, rfl⟩ | ⟨hb, rfl⟩
  · exact ⟨_, loadFrame_loadedOnly s, by rw [driveAndSample_act, driveAndSample_txFrame, hb]⟩
  · exact ⟨s, .refl s, by rw [driveAndSample_act, driveAndSample_txFrame, hb]⟩

/-- The processor's registers after a bit event, from those before it and the configuration and frame in force. -/
structure EventRegisters (inp : LineIn) (s t : State) (f : Format) (g : Geom) : Prop where
  sdOut : t.afp.sdOut = driveData s.params f g t.afp.txFrame s.afp.bitCnt s.afp.chCnt
  rxShift : t.afp.rxShift = sampleLine f g (lineIn inp t.afp.sdOut) s.afp.chCnt s.afp.rxShift
  frameSig : t.afp.frameSig = driveFrameSig f (atBoundary s.afp) s.afp.chCnt
  slotNum : t.afp.slotNum = driveSlot f s.afp.chCnt
  bitCnt : t.afp.bitCnt = (advanceCounters f g s.afp.bitCnt s.afp.chCnt).1
  chCnt : t.afp.chCnt = (advanceCounters f g s.afp.bitCnt s.afp.chCnt).2.1
  divCnt : t.afp.divCnt = s.afp.divCnt
  bitTick : t.afp.bitTick = s.afp.bitTick

theorem driveAndSample_registers (inp : LineIn) (act : ActiveConfig) (tx : Frame) (hu : LoadedOnly s u) :
    EventRegisters inp s (driveAndSample inp (atBoundary s.afp) act tx u) act.format (geometry s.params act.format act.dsdMode) := by
  obtain ⟨x, hx⟩ := hu.afp
  obtain ⟨o, ho⟩ := driveAndSample_afp inp (atBoundary s.afp) act tx u
  rw [eventAfp, hx, hu.params] at ho
  constructor <;> rw [ho] <;> rfl

theorem bitEvent_registers (h : bitEvent inp s = .next t) :
    EventRegisters inp s t t.afp.act.format (geometry s.params t.afp.act.format t.afp.act.dsdMode) := by
  obtain ⟨u, hu, ht⟩ := bitEvent_eq_driveAndSample h
  have hregs := driveAndSample_registers inp t.afp.act t.afp.txFrame hu
  rwa [← ht] at hregs

end Registers

/-- Settles O42: the latch has three outcomes, and an event between boundaries drives under what stands. -/
theorem configurationLatch : Obligations.ConfigurationLatch := by
  refine fun inp s => ⟨fun hb hr hm => ?_, fun hb hr => ?_, fun hb hr hm => ?_, fun hb => ?_⟩
  · obtain ⟨x, hx, hl⟩ := latchConfig_of_master hr hm
    exact ⟨_, x, bitEvent_of_latched ((atBoundary_iff _).2 hb) hl, hx, driveAndSample_act⟩
  · exact bitEvent_of_latch_refused ((atBoundary_iff _).2 hb) (latchConfig_of_reserved hr)
  · exact bitEvent_of_latch_refused ((atBoundary_iff _).2 hb) (latchConfig_of_slave hr hm)
  · exact ⟨_, bitEvent_of_between fun h => hb ((atBoundary_iff _).1 h), driveAndSample_act, driveAndSample_txFrame⟩

/-! ## The lines (R231 to R234) -/

section Lines

variable {p : Params} {f : Format} {g : Geom} {tx : Frame} {b ch l : Nat}

theorem driveData_dsd_getD (hl : l < p.maxC) :
    (driveData p .dsd g tx b ch).getD l false = (decide (l < g.channels) && lineBit g tx b l) := by
  simp [driveData, List.getD_eq_getElem?_getD, hl]

/-- I2S and TDM use line 0 alone. -/
theorem driveData_getD (hf : f ≠ .dsd) (hl : l < p.maxC) :
    (driveData p f g tx b ch).getD l false = (decide (l = 0) && lineBit g tx b ch) := by
  cases f with
  | dsd => exact absurd rfl hf
  | i2s => simp [driveData, List.getD_eq_getElem?_getD, hl]
  | tdm => simp [driveData, List.getD_eq_getElem?_getD, hl]

end Lines

/-- Settles O43: the lines, the frame signal and the slot number, format by format. -/
theorem lineOutputs : Obligations.LineOutputs := by
  intro inp s t h
  have hregs := bitEvent_registers h
  refine ⟨fun c hc => ?_, ?_, ?_⟩
  · rw [hregs.sdOut]
    split
    · next hf => rw [hf, driveData_dsd_getD hc, lineBit]
    · next hf => rw [driveData_getD hf hc, lineBit]
  · rw [hregs.frameSig]
    split
    · next hf => rw [hf]; exact Nat.testBit_zero _
    · next hf => rw [hf]; exact Bool.eq_iff_iff.2 ((atBoundary_iff _).trans decide_eq_true_iff.symm)
    · next hf => rw [hf]; rfl
  · rw [hregs.slotNum]
    split
    · next hf => rw [hf]; rfl
    · next hf =>
      cases hfm : t.afp.act.format with
      | tdm => exact absurd hfm hf
      | i2s => rfl
      | dsd => rfl

/-! ## The counters (R225) -/

section Counters

variable {f : Format} {g : Geom} {b ch : Nat}

theorem advanceCounters_of_bit (h : b < g.width - 1) : advanceCounters f g b ch = (b + 1, ch, false) := if_pos h

theorem advanceCounters_of_word (hb : g.width - 1 ≤ b) (hc : f ≠ .dsd ∧ ch < g.channels - 1) :
    advanceCounters f g b ch = (0, ch + 1, false) := by
  rw [advanceCounters, if_neg hb.not_gt, if_pos hc]

theorem advanceCounters_of_frame (hb : g.width - 1 ≤ b) (hc : ¬(f ≠ .dsd ∧ ch < g.channels - 1)) :
    advanceCounters f g b ch = (0, 0, true) := by
  rw [advanceCounters, if_neg hb.not_gt, if_neg hc]

/-- The last bit of the last channel, which in DSD is the last bit of all (R236). -/
def FrameEnd (f : Format) (g : Geom) (b ch : Nat) : Prop := g.width - 1 ≤ b ∧ (f = .dsd ∨ g.channels - 1 ≤ ch)

theorem frameEnd_iff : FrameEnd f g b ch ↔ g.width - 1 ≤ b ∧ ¬(f ≠ .dsd ∧ ch < g.channels - 1) := by
  rw [FrameEnd, not_and_or, not_ne_iff, Nat.not_lt]

theorem advanceCounters_frameEnd_iff : (advanceCounters f g b ch).2.2 = true ↔ FrameEnd f g b ch := by
  rw [frameEnd_iff]
  by_cases hb : b < g.width - 1
  · rw [advanceCounters_of_bit hb]
    exact iff_of_false Bool.false_ne_true fun h => hb.not_ge h.1
  · by_cases hc : f ≠ .dsd ∧ ch < g.channels - 1
    · rw [advanceCounters_of_word (Nat.le_of_not_lt hb) hc]
      exact iff_of_false Bool.false_ne_true fun h => h.2 hc
    · rw [advanceCounters_of_frame (Nat.le_of_not_lt hb) hc]
      exact iff_of_true rfl ⟨Nat.le_of_not_lt hb, hc⟩

end Counters

/-- Settles O44: a bit further, a channel further, or back to the boundary. -/
theorem bitAndChannelCounters : Obligations.BitAndChannelCounters := by
  intro inp s t h
  have hregs := bitEvent_registers h
  refine ⟨fun hb => ?_, fun hb => ?_⟩ <;> rw [hregs.bitCnt, hregs.chCnt]
  · rw [advanceCounters_of_bit hb]
    exact ⟨rfl, rfl⟩
  · split
    · next hc => rw [advanceCounters_of_word hb hc]; exact ⟨rfl, rfl⟩
    · next hc => rw [advanceCounters_of_frame hb hc]; exact ⟨rfl, rfl⟩

/-! ## The load (R230) -/

section Load

variable {s : State}

theorem loadFrame_of_off (h : s.control.pbEn.out = 0) : loadFrame s = (zeroFrame s.params, s) := if_pos h

theorem loadFrame_of_filled (h : s.control.pbEn.out ≠ 0) (hf : 0 < occC s.params s.fifo.pb) :
    loadFrame s = (s.fifo.pb.front s.params, s.withFifo .pb (s.fifo.pb.popped s.params)) := by
  rw [loadFrame, if_neg h, popFrame_of_filled (d := .pb) hf]
  rfl

theorem loadFrame_of_empty (h : s.control.pbEn.out ≠ 0) (hf : occC s.params s.fifo.pb = 0) :
    loadFrame s = (underrunFrame s, raise (.underrun .pb) s) := by
  rw [loadFrame, if_neg h, popFrame_of_empty (d := .pb) hf]
  rfl

theorem underrunFrame_of_lastValue (h : s.params.underrunOutput = .lastValue) : underrunFrame s = s.afp.txFrame := by
  rw [underrunFrame, h]

end Load

/-- Settles O48: the rest of the event touches neither the playback buffer nor its flag, so the load's three outcomes are the
event's. -/
theorem loadAtBoundary : Obligations.LoadAtBoundary := by
  intro inp s act hbit hch hl
  refine ⟨_, bitEvent_of_latched ((atBoundary_iff _).2 ⟨hbit, hch⟩) hl, ?_⟩
  rw [driveAndSample_playback, driveAndSample_underrunFlag, driveAndSample_txFrame]
  refine ⟨fun hoff => ?_, fun hon hfilled => ?_, fun hon hempty => ?_⟩
  · rw [loadFrame_of_off hoff]
    exact ⟨rfl, rfl, rfl⟩
  · rw [loadFrame_of_filled hon hfilled]
    exact ⟨rfl, rfl, rfl⟩
  · rw [loadFrame_of_empty hon hempty]
    exact ⟨rfl, rfl, underrunFrame_of_lastValue⟩

/-! ## The publish (R236) -/

section Publish

variable {s t : State} {inp : LineIn} {boundary : Bool} {act : ActiveConfig} {tx : Frame}

theorem driveAndSample_of_inside (h : ¬FrameEnd act.format (activeGeometry s.params act) s.afp.bitCnt s.afp.chCnt) :
    driveAndSample inp boundary act tx s = s.withAfp (eventAfp inp boundary act tx s) := by
  rw [driveAndSample_eq]
  exact if_neg (mt advanceCounters_frameEnd_iff.1 h)

theorem driveAndSample_of_frameEnd (h : FrameEnd act.format (activeGeometry s.params act) s.afp.bitCnt s.afp.chCnt) :
    driveAndSample inp boundary act tx s = publishFrame (activeGeometry s.params act) (eventAfp inp boundary act tx s).rxShift
      (s.withAfp (eventAfp inp boundary act tx s)) := by
  rw [driveAndSample_eq]
  exact if_pos (advanceCounters_frameEnd_iff.2 h)

/-- Neither inside a frame nor with capture off is the capture buffer touched. -/
theorem driveAndSample_unpublished
    (h : ¬FrameEnd act.format (activeGeometry s.params act) s.afp.bitCnt s.afp.chCnt ∨ s.control.capEn.out = 0) :
    driveAndSample inp boundary act tx s = s.withAfp (eventAfp inp boundary act tx s) := by
  by_cases hend : FrameEnd act.format (activeGeometry s.params act) s.afp.bitCnt s.afp.chCnt
  · rw [driveAndSample_of_frameEnd hend]
    exact if_pos (h.resolve_left (not_not_intro hend))
  · exact driveAndSample_of_inside hend

/-- A frame end with capture on pushes the frame that the shift registers then make. -/
theorem driveAndSample_published (hend : FrameEnd act.format (activeGeometry s.params act) s.afp.bitCnt s.afp.chCnt)
    (hon : s.control.capEn.out ≠ 0) :
    driveAndSample inp boundary act tx s = pushFrame .cap
      (receivedFrame s.params (activeGeometry s.params act) (driveAndSample inp boundary act tx s).afp.rxShift)
      (s.withAfp (eventAfp inp boundary act tx s)) := by
  obtain ⟨o, ho⟩ := driveAndSample_afp inp boundary act tx s
  rw [ho, driveAndSample_of_frameEnd hend]
  exact if_neg hon

/-- R236: a bit event inside a frame, or with capture off, pushes nothing. -/
theorem bitEvent_unpublished (h : bitEvent inp s = .next t)
    (hq : ¬FrameEnd t.afp.act.format (activeGeometry s.params t.afp.act) s.afp.bitCnt s.afp.chCnt ∨ s.control.capEn.out = 0) :
    t.fifo.cap = s.fifo.cap ∧ t.afp.overrunFlag = s.afp.overrunFlag := by
  obtain ⟨u, ⟨hp, hcontrol, hcap, _, hafp⟩, ht⟩ := bitEvent_eq_driveAndSample h
  have hflag : u.afp.overrunFlag = s.afp.overrunFlag := by rw [hafp]
  rw [driveAndSample_unpublished (by rwa [hp, hcontrol, hafp])] at ht
  rw [← hcap, ← hflag, ht]
  exact ⟨rfl, rfl⟩

/-- R236: a bit event at a frame end with capture on tries one push, and flags it where it is refused (R303). -/
theorem bitEvent_published (h : bitEvent inp s = .next t)
    (hend : FrameEnd t.afp.act.format (activeGeometry s.params t.afp.act) s.afp.bitCnt s.afp.chCnt)
    (hon : s.control.capEn.out ≠ 0) :
    t.fifo.cap = pushResult s.params s.fifo.cap (receivedFrame s.params (activeGeometry s.params t.afp.act) t.afp.rxShift) ∧
    t.afp.overrunFlag = if occP s.params s.fifo.cap < s.params.capacity then s.afp.overrunFlag else true := by
  obtain ⟨u, ⟨hp, hcontrol, hcap, _, hafp⟩, ht⟩ := bitEvent_eq_driveAndSample h
  have hflag : u.afp.overrunFlag = s.afp.overrunFlag := by rw [hafp]
  have hpush := driveAndSample_published (s := u) (inp := inp) (boundary := atBoundary s.afp) (tx := t.afp.txFrame)
    (by rwa [hp, hafp]) (by rwa [hcontrol])
  rw [← ht, hp] at hpush
  constructor
  · have hfifo := congrArg (fun v => v.fifo.cap) hpush
    simpa [hp, hcap] using hfifo
  · have hover := congrArg (fun v => v.afp.overrunFlag) hpush
    rw [pushFrame_cap_afp, State.withAfp_params, State.withAfp_fifo, State.withAfp_afp, hp, hcap] at hover
    rw [← hflag, hover]
    split <;> rfl

end Publish

/-- Settles O49: at a frame end with capture on one push is tried, which enters the frame or is counted; else none is. -/
theorem publishAtFrameEnd : Obligations.PublishAtFrameEnd := by
  intro inp s t h
  refine ⟨fun hinside => bitEvent_unpublished h (.inl hinside), fun hoff => bitEvent_unpublished h (.inr hoff),
    fun hend hon hroom => ?_, fun hend hon hfull => ?_⟩
  · obtain ⟨hcap, hflag⟩ := bitEvent_published h hend hon
    rw [hcap, hflag, if_pos hroom, pushResult_of_room _ hroom]
    exact ⟨rfl, rfl⟩
  · obtain ⟨hcap, hflag⟩ := bitEvent_published h hend hon
    rw [hcap, hflag, if_neg hfull.not_gt, pushResult, if_neg hfull.not_gt]
    exact ⟨rfl, rfl⟩

/-! ## The sampled bits (R235) -/

section Sampling

variable {f : Format} {g : Geom} {sd : List Bool} {rx : List Nat} {ch c : Nat}

theorem sampleLine_dsd_getD (hc : c < rx.length) : (sampleLine .dsd g sd ch rx).getD c 0 =
    if c < g.channels then shiftBit g (rx.getD c 0) (sd.getD c false) else rx.getD c 0 := by
  simp [sampleLine, List.getD_eq_getElem?_getD, hc]

/-- I2S and TDM sample line 0 into the register of the channel in turn alone. -/
theorem sampleLine_getD (hf : f ≠ .dsd) (hc : c < rx.length) : (sampleLine f g sd ch rx).getD c 0 =
    if c = ch then shiftBit g (rx.getD c 0) (sd.getD 0 false) else rx.getD c 0 := by
  have hset : sampleLine f g sd ch rx = rx.set ch (shiftBit g (rx.getD ch 0) (sd.getD 0 false)) := by
    cases f with
    | dsd => exact absurd rfl hf
    | i2s => rfl
    | tdm => rfl
  rw [hset, List.getD_eq_getElem?_getD, List.getElem?_set]
  by_cases he : c = ch
  · subst he
    simp [hc]
  · simp [he, Ne.symm he, List.getD_eq_getElem?_getD]

theorem shiftBit_eq (g : Geom) (old : Nat) (b : Bool) : shiftBit g old b = (old * 2 + b.toNat) % 2 ^ g.width := by
  rw [shiftBit, Nat.mul_comm]

end Sampling

/-- Settles O50: the registers in turn shift, each from its line, and the others stay. -/
theorem sampleShiftsIn : Obligations.SampleShiftsIn := by
  intro l s t hlen h
  have hregs := bitEvent_registers h
  refine fun c hc => ?_
  rw [← hlen] at hc
  rw [hregs.rxShift]
  split
  · next hf => rw [hf, sampleLine_dsd_getD hc, shiftBit_eq]; rfl
  · next hf => rw [sampleLine_getD hf hc, shiftBit_eq]; rfl

end Sys2Proof.Machine

/-! The loop-back of a whole frame (R237): the registers fill bit by bit from the lines that the same bit events drive, so the frame
that the last event publishes is the one that the first loaded. -/

namespace Sys2Proof.Machine

/-! ## The bits of a word, the most significant first (R231, R235) -/

section Loopback

variable {p : Params} {f : Format} {g : Geom} {tx : Frame} {rx : List Nat} {b ch c width v n x : Nat}

/-- The bits that `x` has shifted in last, `n` of them, are the top `n` bits of the `width`-bit word `v`. -/
def TopBits (width v n x : Nat) : Prop := ∀ i, i < n → x.testBit i = v.testBit (width - n + i)

theorem topBits_zero (width v x : Nat) : TopBits width v 0 x := fun i hi => absurd hi (Nat.not_lt_zero i)

/-- The most significant bit comes first, so the next bit of the word is the next one down. -/
theorem TopBits.shiftBit (h : TopBits g.width v n x) (hn : n < g.width) :
    TopBits g.width v (n + 1) (shiftBit g x (v.testBit (g.width - 1 - n))) := by
  intro i hi
  rw [shiftBit_eq, Nat.testBit_mod_two_pow, decide_eq_true (by omega : i < g.width), Bool.true_and, Nat.mul_comm, ← Nat.bit_val]
  cases i with
  | zero => rw [Nat.testBit_bit_zero, show g.width - (n + 1) + 0 = g.width - 1 - n by omega]
  | succ j => rw [Nat.testBit_bit_succ, h j (by omega), show g.width - (n + 1) + (j + 1) = g.width - n + j by omega]

/-- All the bits of the word. -/
theorem TopBits.mod_eq (h : TopBits width v width x) : x % 2 ^ width = v % 2 ^ width := by
  refine Nat.eq_of_testBit_eq fun i => ?_
  rw [Nat.testBit_mod_two_pow, Nat.testBit_mod_two_pow]
  by_cases hi : i < width
  · rw [h i hi, Nat.sub_self, Nat.zero_add]
  · rw [decide_eq_false hi, Bool.false_and, Bool.false_and]

/-! ## The channels in turn (R231, R234, R235) -/

/-- Whether channel `c` is on a line in this bit event: in DSD every channel is, else channel `ch` alone. -/
def inTurn (f : Format) (g : Geom) (ch c : Nat) : Bool := if f = .dsd then decide (c < g.channels) else decide (c = ch)

theorem inTurn_dsd : inTurn .dsd g ch c = true ↔ c < g.channels := decide_eq_true_iff

theorem inTurn_iff (hf : f ≠ .dsd) : inTurn f g ch c = true ↔ c = ch := by
  rw [inTurn, if_neg hf, decide_eq_true_iff]

/-- With the line looped back each channel in turn shifts in its own bit. -/
theorem sampleLine_driveData_getD (hrx : rx.length = p.maxC) (hc : c < p.maxC) :
    (sampleLine f g (driveData p f g tx b ch) ch rx).getD c 0 =
      if inTurn f g ch c then shiftBit g (rx.getD c 0) (lineBit g tx b c) else rx.getD c 0 := by
  by_cases hf : f = .dsd
  · subst hf
    rw [sampleLine_dsd_getD (hrx ▸ hc), driveData_dsd_getD hc]
    by_cases hin : c < g.channels
    · rw [if_pos hin, if_pos (inTurn_dsd.2 hin), decide_eq_true hin, Bool.true_and]
    · rw [if_neg hin, if_neg (mt inTurn_dsd.1 hin)]
  · rw [sampleLine_getD hf (hrx ▸ hc), driveData_getD hf (Nat.zero_lt_of_lt hc)]
    by_cases hin : c = ch
    · rw [if_pos hin, if_pos ((inTurn_iff hf).2 hin), hin]; rfl
    · rw [if_neg hin, if_neg (mt (inTurn_iff hf).1 hin)]

/-- The bits of channel `c` that a frame's bit events before counters `b`, `ch` carried. -/
def bitsIn (f : Format) (g : Geom) (b ch c : Nat) : Nat := if inTurn f g ch c then b else if c < ch then g.width else 0

/-- Each shift register ends with the bits of its channel's word that the frame's bit events so far carried. -/
def Received (f : Format) (g : Geom) (tx : Frame) (b ch : Nat) (rx : List Nat) : Prop :=
  ∀ c, c < g.channels → TopBits g.width (tx.getD c 0) (bitsIn f g b ch c) (rx.getD c 0)

theorem received_boundary (f : Format) (g : Geom) (tx : Frame) (rx : List Nat) : Received f g tx 0 0 rx := by
  intro c _
  rw [bitsIn, if_neg (Nat.not_lt_zero c), ite_self]
  exact topBits_zero _ _ _

/-- One bit event carries one more bit of every channel in turn. -/
theorem Received.sample (h : Received f g tx b ch rx) (hg : g.channels ≤ p.maxC) (hrx : rx.length = p.maxC) (hb : b < g.width) :
    Received f g tx (b + 1) ch (sampleLine f g (driveData p f g tx b ch) ch rx) := by
  intro c hc
  have hold := h c hc
  rw [sampleLine_driveData_getD hrx (Nat.lt_of_lt_of_le hc hg)]
  rw [bitsIn] at hold ⊢
  by_cases hin : inTurn f g ch c = true
  · rw [if_pos hin] at hold
    rw [if_pos hin, if_pos hin]
    exact hold.shiftBit hb
  · rw [if_neg hin] at hold
    rw [if_neg hin, if_neg hin]
    exact hold

/-- A channel's last bit is the state before the next channel's first. -/
theorem Received.next_channel (h : Received f g tx g.width ch rx) (hf : f ≠ .dsd) : Received f g tx 0 (ch + 1) rx := by
  intro c hc
  have hbits : bitsIn f g 0 (ch + 1) c = bitsIn f g g.width ch c := by
    simp only [bitsIn, inTurn_iff hf]
    split_ifs <;> omega
  rw [hbits]
  exact h c hc

/-- After the last bit of the last channel every register ends with its channel's whole word. -/
theorem Received.receivedFrame_eq (h : Received f g tx g.width ch rx) (hc : f = .dsd ∨ g.channels - 1 ≤ ch) (p : Params) :
    receivedFrame p g rx = (List.range p.maxC).map (fun c => if c < g.channels then tx.getD c 0 % 2 ^ g.width else 0) := by
  refine List.map_congr_left fun c _ => ?_
  by_cases hin : c < g.channels
  · have hall : bitsIn f g g.width ch c = g.width := by
      by_cases hf : f = .dsd
      · subst hf
        exact if_pos (inTurn_dsd.2 hin)
      · have hle := hc.resolve_left hf
        simp only [bitsIn, inTurn_iff hf]
        split_ifs <;> omega
    have hword := h c hin
    rw [hall] at hword
    rw [if_pos hin, if_pos hin, hword.mod_eq]
  · rw [if_neg hin, if_neg hin]

/-! ## The bit events of a frame (R225) -/

/-- The bit events of a frame before counters `b`, `ch`. -/
def framePos (g : Geom) (b ch : Nat) : Nat := ch * g.width + b

theorem frameBits_dsd (g : Geom) : frameBits .dsd g = g.width := rfl

theorem frameBits_eq (hf : f ≠ .dsd) : frameBits f g = g.channels * g.width := by
  cases f with
  | dsd => exact absurd rfl hf
  | i2s => rfl
  | tdm => rfl

/-- A frame ends with its last bit event. -/
theorem framePos_of_frameEnd {act : ActiveConfig} (h : CountsFit p act b ch)
    (hend : FrameEnd act.format (activeGeometry p act) b ch) :
    framePos (activeGeometry p act) b ch + 1 = frameBits act.format (activeGeometry p act) := by
  obtain ⟨hbits, hchannels, hdsd⟩ := h
  obtain ⟨hb, hc⟩ := hend
  rw [framePos]
  by_cases hf : act.format = .dsd
  · rw [hdsd hf, hf, frameBits_dsd]
    omega
  · have hlast : (activeGeometry p act).channels = ch + 1 :=
      Nat.le_antisymm (Nat.le_add_of_sub_le (hc.resolve_left hf)) hchannels
    rw [frameBits_eq hf, hlast, Nat.succ_mul]
    omega

/-- Any other bit event has one after it, which carries the next bit. -/
theorem framePos_advance {act : ActiveConfig} (h : CountsFit p act b ch)
    (hend : ¬FrameEnd act.format (activeGeometry p act) b ch) :
    let next := advanceCounters act.format (activeGeometry p act) b ch
    framePos (activeGeometry p act) next.1 next.2.1 = framePos (activeGeometry p act) b ch + 1 := by
  obtain ⟨hbits, _, _⟩ := h
  by_cases hb : b < (activeGeometry p act).width - 1
  · rw [advanceCounters_of_bit hb]
    rfl
  · rw [advanceCounters_of_word (Nat.le_of_not_lt hb) (not_not.1 fun hc => hend (frameEnd_iff.2 ⟨Nat.le_of_not_lt hb, hc⟩))]
    simp only [framePos, Nat.succ_mul]
    omega

theorem framePos_lt_frameBits {act : ActiveConfig} (h : CountsFit p act b ch) :
    framePos (activeGeometry p act) b ch < frameBits act.format (activeGeometry p act) := by
  obtain ⟨hbits, hchannels, hdsd⟩ := h
  rw [framePos]
  by_cases hf : act.format = .dsd
  · rw [hdsd hf, hf, frameBits_dsd, Nat.zero_mul, Nat.zero_add]
    exact hbits
  · have hwords := Nat.mul_le_mul_right (activeGeometry p act).width hchannels
    rw [Nat.succ_mul] at hwords
    rw [frameBits_eq hf]
    omega

theorem Received.advance {act : ActiveConfig}
    (h : Received act.format (activeGeometry p act) tx (b + 1) ch rx) (hb : b < (activeGeometry p act).width)
    (hend : ¬FrameEnd act.format (activeGeometry p act) b ch) :
    let next := advanceCounters act.format (activeGeometry p act) b ch
    Received act.format (activeGeometry p act) tx next.1 next.2.1 rx := by
  by_cases hlast : b < (activeGeometry p act).width - 1
  · rw [advanceCounters_of_bit hlast]
    exact h
  · have hc := not_not.1 fun hc => hend (frameEnd_iff.2 ⟨Nat.le_of_not_lt hlast, hc⟩)
    rw [advanceCounters_of_word (Nat.le_of_not_lt hlast) hc]
    rw [show b + 1 = (activeGeometry p act).width by omega] at h
    exact h.next_channel hc.1

end Loopback

/-! ## The run (R237) -/

section Run

variable {s₀ s u : State} {act : ActiveConfig} {tx : Frame}

/-- `s` is before a bit event of the frame `tx` that the boundary `s₀` started under `act`. -/
structure Looping (s₀ : State) (act : ActiveConfig) (tx : Frame) (s : State) : Prop where
  params : s.params = s₀.params
  control : s.control = s₀.control
  capture : s.fifo.cap = s₀.fifo.cap
  registers : s.afp.rxShift.length = s₀.params.maxC
  counts : CountsFit s₀.params act s.afp.bitCnt s.afp.chCnt
  received : Received act.format (activeGeometry s₀.params act) tx s.afp.bitCnt s.afp.chCnt s.afp.rxShift

/-- What R237 says of the state after the frame's last bit event. -/
structure LoopedBack (s₀ : State) (act : ActiveConfig) (tx : Frame) (t : State) : Prop where
  capture : t.fifo.cap = (pushFrame .cap ((List.range s₀.params.maxC).map (fun c =>
    if c < (activeGeometry s₀.params act).channels then tx.getD c 0 % 2 ^ (activeGeometry s₀.params act).width else 0)) s₀).fifo.cap
  bitCnt : t.afp.bitCnt = 0
  chCnt : t.afp.chCnt = 0
  txFrame : t.afp.txFrame = tx
  act : t.afp.act = act

theorem geometry_channels_le (hp : s₀.params.ok = true) (act : ActiveConfig) :
    (activeGeometry s₀.params act).channels ≤ s₀.params.maxC := by
  obtain ⟨-, hle, -⟩ := (Params.geomOk_iff _ _).1 (Params.ok_geometry hp act.format act.dsdMode)
  exact hle

/-- What the bit event writes, in the terms of the frame's configuration. -/
theorem Looping.registers_next (hs : Looping s₀ act tx s) (h : bitEvent .loopback s = .next u) (hact : u.afp.act = act) :
    EventRegisters .loopback s u act.format (activeGeometry s₀.params act) := by
  have hregs := bitEvent_registers h
  rwa [hact, hs.params] at hregs

/-- A bit event in loop-back completes the bit it carries, in every register in turn. -/
theorem Looping.received_next (hs : Looping s₀ act tx s) (hp : s₀.params.ok = true) (h : bitEvent .loopback s = .next u)
    (hact : u.afp.act = act) (htx : u.afp.txFrame = tx) :
    Received act.format (activeGeometry s₀.params act) tx (s.afp.bitCnt + 1) s.afp.chCnt u.afp.rxShift := by
  have hregs := hs.registers_next h hact
  rw [hregs.rxShift, hregs.sdOut, htx, hs.params]
  exact hs.received.sample (geometry_channels_le hp act) hs.registers hs.counts.bits

/-- Inside the frame the next bit event is one of the frame again, one bit further on. -/
theorem Looping.next (hs : Looping s₀ act tx s) (hp : s₀.params.ok = true) (h : bitEvent .loopback s = .next u)
    (hact : u.afp.act = act) (htx : u.afp.txFrame = tx)
    (hend : ¬FrameEnd act.format (activeGeometry s₀.params act) s.afp.bitCnt s.afp.chCnt) :
    Looping s₀ act tx u ∧ framePos (activeGeometry s₀.params act) u.afp.bitCnt u.afp.chCnt =
      framePos (activeGeometry s₀.params act) s.afp.bitCnt s.afp.chCnt + 1 := by
  have honly := (bitEvent_buffers h).only
  have hreceived := (hs.received_next hp h hact htx).advance hs.counts.bits hend
  have hcap := (bitEvent_unpublished h (.inl (by rwa [hact, hs.params]))).1
  have hregs := hs.registers_next h hact
  have hcounts := hs.counts.advance hp
  have hpos := framePos_advance hs.counts hend
  dsimp only at hreceived hpos
  rw [← hregs.bitCnt, ← hregs.chCnt] at hreceived hcounts hpos
  exact ⟨{
    params := by rw [honly]; exact hs.params
    control := by rw [honly]; exact hs.control
    capture := hcap.trans hs.capture
    registers := (bitEvent_lengths h).2.trans hs.registers
    counts := hcounts
    received := hreceived }, hpos⟩

/-- The frame's last bit event publishes what the registers then hold, the frame. -/
theorem Looping.last (hs : Looping s₀ act tx s) (hp : s₀.params.ok = true) (hon : s₀.control.capEn.out ≠ 0)
    (h : bitEvent .loopback s = .next u) (hact : u.afp.act = act) (htx : u.afp.txFrame = tx)
    (hend : FrameEnd act.format (activeGeometry s₀.params act) s.afp.bitCnt s.afp.chCnt) : LoopedBack s₀ act tx u := by
  have hreceived := hs.received_next hp h hact htx
  have hwidth : s.afp.bitCnt + 1 = (activeGeometry s₀.params act).width :=
    Nat.le_antisymm hs.counts.bits (Nat.le_add_of_sub_le hend.1)
  rw [hwidth] at hreceived
  have hcap := (bitEvent_published h (by rwa [hact, hs.params]) (by rwa [hs.control])).1
  rw [hact, hs.params, hs.capture, hreceived.receivedFrame_eq hend.2] at hcap
  have hregs := hs.registers_next h hact
  have hzero := advanceCounters_of_frame hend.1 (frameEnd_iff.1 hend).2
  exact {
    capture := by rw [hcap, pushFrame_fifo]; rfl
    bitCnt := hregs.bitCnt.trans (congrArg Prod.fst hzero)
    chCnt := hregs.chCnt.trans (congrArg (fun q => q.2.1) hzero)
    txFrame := htx
    act := hact }

/-- The rest of the frame after one of its bit events, by induction on the events to come. -/
theorem Looping.runBits_loopedBack {n : Nat} (hs : Looping s₀ act tx s) (hp : s₀.params.ok = true)
    (hon : s₀.control.capEn.out ≠ 0) (h : bitEvent .loopback s = .next u) (hact : u.afp.act = act) (htx : u.afp.txFrame = tx)
    (hn : frameBits act.format (activeGeometry s₀.params act) =
      framePos (activeGeometry s₀.params act) s.afp.bitCnt s.afp.chCnt + n + 1) :
    ∃ t, runBits .loopback n u = .next t ∧ LoopedBack s₀ act tx t := by
  induction n generalizing s u with
  | zero =>
    refine ⟨u, rfl, hs.last hp hon h hact htx (not_not.1 fun hend => ?_)⟩
    obtain ⟨hu, hpos⟩ := hs.next hp h hact htx hend
    have hlt := framePos_lt_frameBits hu.counts
    omega
  | succ n ih =>
    have hend : ¬FrameEnd act.format (activeGeometry s₀.params act) s.afp.bitCnt s.afp.chCnt := fun hend => by
      have hlast := framePos_of_frameEnd hs.counts hend
      omega
    obtain ⟨hu, hpos⟩ := hs.next hp h hact htx hend
    have hbetween : ¬atBoundary u.afp = true := fun hb => by
      obtain ⟨hb, hc⟩ := (atBoundary_iff _).1 hb
      rw [hb, hc, framePos] at hpos
      omega
    have hevent := bitEvent_of_between (inp := .loopback) hbetween
    rw [runBits, hevent, andThen_next]
    exact ih hu hevent (driveAndSample_act.trans hact) (driveAndSample_txFrame.trans htx) (by omega)

end Run

/-- Settles O51: the boundary's event is the frame's first, and each register ends with its channel's word at the last. -/
theorem loopbackRoundTrip : Obligations.LoopbackRoundTrip := by
  intro s act hp hlen hbit hch hl hon
  have hs : Looping s act (loadFrame s).1 s := {
    params := rfl
    control := rfl
    capture := rfl
    registers := hlen
    counts := by rw [hbit, hch]; exact countsFit_zero hp act
    received := by rw [hbit, hch]; exact received_boundary _ _ _ _ }
  have hevent := bitEvent_of_latched (inp := .loopback) ((atBoundary_iff _).2 ⟨hbit, hch⟩) hl
  obtain ⟨n, hn⟩ := Nat.exists_eq_add_of_lt (framePos_lt_frameBits hs.counts)
  obtain ⟨t, hrun, ht⟩ := hs.runBits_loopedBack hp hon hevent driveAndSample_act driveAndSample_txFrame hn
  have hbits : frameBits act.format (geometry s.params act.format act.dsdMode) = n + 1 := by
    rw [hbit, hch, framePos, Nat.zero_mul, Nat.zero_add] at hn
    exact hn
  refine ⟨t, ?_, ht.capture, ht.bitCnt, ht.chCnt, ht.txFrame, ht.act⟩
  rw [hbits, runBits, hevent]
  exact hrun

end Sys2Proof.Machine

/-! The audio tick (R223, R224, R239): the divider, and the only stops. -/

namespace Sys2Proof.Machine

section Tick

variable {a : AudioIn} {s : State}

theorem step_of_audioTick {rest : List Event} (hi : s.inputs = .audioTick a :: rest) (hr : resetAsserted s = false) :
    step s = audioStep a { s with inputs := rest } := by
  have hnext : nextEvent s = .audioTick a := by rw [nextEvent, hi]
  have htake : takeEvent s = { s with inputs := rest } := by rw [takeEvent, hi]
  have hlow : ¬resetAsserted { s with inputs := rest } = true := ne_true_of_eq_false hr
  rw [step, hnext, htake, applyEvent, tickOrReset, if_neg hlow]

/-- Below the divider's end the tick counts (R224). -/
theorem audioStep_of_counting (h : s.afp.divCnt < activeDivider s.params s.afp.act - 1) :
    audioStep a s = .next (stepAudioCells
      ((withLine a s).withAfp { s.afp with divCnt := s.afp.divCnt + 1, bitTick := false })).drawn :=
  congrArg (mapNext · fun s => (stepAudioCells s).drawn) (if_pos h)

/-- At the divider's end the tick is the bit event (R224). -/
theorem audioStep_of_bitTick (h : activeDivider s.params s.afp.act - 1 ≤ s.afp.divCnt) :
    audioStep a s = mapNext (bitEvent a.sdIn ((withLine a s).withAfp { s.afp with divCnt := 0, bitTick := true }))
      (fun t => (stepAudioCells t).drawn) :=
  congrArg (mapNext · fun s => (stepAudioCells s).drawn) (if_neg h.not_gt)

/-- R239: the only stops of an audio tick are those of a boundary's latch, which reads nothing that the divider writes. -/
theorem audioStep_next_or_refused (a : AudioIn) (s : State) : (∃ t, audioStep a s = .next t) ∨
    ∃ r, atBoundary s.afp = true ∧ latchConfig s = .error r ∧ audioStep a s = .refused r := by
  rcases Nat.lt_or_ge s.afp.divCnt (activeDivider s.params s.afp.act - 1) with hd | hd
  · exact .inl ⟨_, audioStep_of_counting hd⟩
  · rw [audioStep_of_bitTick hd]
    rcases bitEvent_next_or_refused a.sdIn ((withLine a s).withAfp { s.afp with divCnt := 0, bitTick := true }) with
      ⟨t, ht⟩ | ⟨r, hb, hl, hr⟩
    · exact .inl ⟨_, by rw [ht, mapNext_next]⟩
    · exact .inr ⟨r, hb, hl, by rw [hr]; rfl⟩

end Tick

/-- Settles O52: the divider decides between a count and the bit event, and only the latch stops a bit event. -/
theorem audioNeverWaits : Obligations.AudioNeverWaits := by
  refine fun a s => ⟨fun _ hi hr => step_of_audioTick hi hr, fun hd => audioStep_of_counting hd, fun hd => audioStep_of_bitTick hd,
    fun t ht => ⟨(bitEvent_registers ht).divCnt, (bitEvent_registers ht).bitTick⟩, ?_⟩
  rcases audioStep_next_or_refused a s with hnext | ⟨r, hb, hl, hr⟩
  · exact .inl hnext
  · obtain ⟨hbit, hch⟩ := (atBoundary_iff _).1 hb
    refine .inr ⟨hbit, hch, ?_⟩
    rcases latchConfig_error hl with ⟨rfl, hreserved⟩ | ⟨rfl, hslave⟩
    · exact .inl ⟨hr, hreserved⟩
    · exact .inr ⟨hr, hslave⟩

end Sys2Proof.Machine

/-! The ring set-up (R274, R356): the engine's state decides whether the ring is in flight, and a ring in flight stays as it is. -/

namespace Sys2Proof.Machine

section RingSetup

variable {s : State} {d : Dir} {base : BitVec 64} {count : Nat}

/-! ## What counts as in flight (R356) -/

theorem betweenFetchAndUpdate_of_rest (h : (s.eng.get d).st = .idle ∨ (s.eng.get d).st = .complete) :
    betweenFetchAndUpdate s d = false := by
  unfold betweenFetchAndUpdate
  rcases h with h | h <;> rw [h]

theorem betweenFetchAndUpdate_of_inFlight
    (h : (s.eng.get d).st = .fetchDescriptor ∨ (s.eng.get d).st = .moveData ∨ (s.eng.get d).st = .updateDescriptor) :
    betweenFetchAndUpdate s d = true := by
  unfold betweenFetchAndUpdate
  rcases h with h | h | h <;> rw [h]

/-! ## The command's two outcomes (R274, R356) -/

theorem ringSetup_of_notInFlight (h : betweenFetchAndUpdate s d = false) :
    ringSetup d base count s = .next (s.withHost { s.host with
      ring := s.host.ring.set d { s.host.ring.get d with base := base, descCount := count } }) :=
  if_neg (by simp only [h, Bool.false_and, Bool.false_eq_true, not_false_eq_true])

theorem ringSetup_of_moved (h : betweenFetchAndUpdate s d = true)
    (hmoved : (s.host.ring.get d).base ≠ base ∨ (s.host.ring.get d).descCount ≠ count) :
    ringSetup d base count s = .refused .ringMovedInFlight :=
  if_pos (by simpa only [h, Bool.true_and, Bool.or_eq_true, bne_iff_ne] using hmoved)

end RingSetup

/-- Settles O58: at rest the ring is free to move, and in flight a change of either input is refused. -/
theorem ringSetupRule : Obligations.RingSetupRule := fun _ _ _ _ =>
  ⟨fun hrest => ringSetup_of_notInFlight (betweenFetchAndUpdate_of_rest hrest),
    fun hflight hmoved => ringSetup_of_moved (betweenFetchAndUpdate_of_inFlight hflight) hmoved⟩

end Sys2Proof.Machine
